-- ==== Sys2Proof/Word.lean ====
section
/-!
DEFINITION. The word and byte types of the FSB (spec/00_scope.md R9, R10) and the size of MEM's address space
(spec/20_memory.md R60). Only plain arithmetic stands here.
-/
namespace Sys2Proof

/-- A register word: `XLEN` = 32 bits (R9), unsigned unless a rule says signed (R10). -/
abbrev Word := BitVec 32

/-- One byte of MEM or of the arena (R60, R30). -/
abbrev Byte := BitVec 8

/-- MEM has `2^ADDR_W` bytes, `ADDR_W` = 32 (R60). -/
abbrev memSize : Nat := 2 ^ 32

/-- The register word that holds the natural `n`, that is `n mod 2^32` (R10). -/
abbrev toWord (n : Nat) : Word := BitVec.ofNat 32 n

end Sys2Proof
end

