-- ==== Sys2Proof/Syntax.lean ====
section
/-!
DEFINITION. The commands of the FSB, one constructor per row of spec/opcode_table.json (spec/30_encoding.md R85).
The immediate fields are held as the numbers R84 assembles from them; Sys2Proof/WellFormed.lean bounds them by the widths
of R80.
-/
namespace Sys2Proof

/-- The 19 commands, in the order of the opcode table. `n` and `pidx` are `IMM8`, `f` is `FROM` and `t` is `TO` (R80,
R84). -/
inductive Instr where
  /-- `FS_BIND pidx` (R190) -/
  | fsBind (pidx : Nat)
  /-- `FS_UNBIND` (R191) -/
  | fsUnbind
  /-- `FS_RESET` (R192) -/
  | fsReset
  /-- `FS_LOAD` (R193) -/
  | fsLoad
  /-- `FS_FLUSH` (R194) -/
  | fsFlush
  /-- `CONV F,T` (R170) -/
  | conv (f t : Nat)
  /-- `CONV_QUERY F,T` (R171) -/
  | convQuery (f t : Nat)
  /-- `BR_BIND` (R120) -/
  | brBind
  /-- `BR_GET n` (R126) -/
  | brGet (n : Nat)
  /-- `BR_GETS n` (R127) -/
  | brGets (n : Nat)
  /-- `BR_GETB` (R128) -/
  | brGetb
  /-- `BR_SEEK` (R129) -/
  | brSeek
  /-- `BR_UNBIND` (R130) -/
  | brUnbind
  /-- `BW_BIND` (R140) -/
  | bwBind
  /-- `BW_PUT n` (R144) -/
  | bwPut (n : Nat)
  /-- `BW_PUTB` (R145) -/
  | bwPutb
  /-- `BW_SEEK` (R146) -/
  | bwSeek
  /-- `BW_FLUSH` (R147) -/
  | bwFlush
  /-- `BW_CLOSE` (R148) -/
  | bwClose
  deriving DecidableEq, Repr

end Sys2Proof
end

