-- ==== Sys2Proof/WellFormed.lean ====
section
/-!
DEFINITION. When a term of `Instr` is one a command word can carry: each immediate fits its field of
spec/30_encoding.md R80. Nothing else is checked here: a width above 32, a parser index past the table and a packing code 5
to 7 all decode, and the command itself raises the status R84 names for them.
-/
namespace Sys2Proof

/-- `IMM8` is an 8-bit field (R80). -/
def fitsImm8 (n : Nat) : Bool := decide (n < 256)

/-- `FROM` and `TO` are 3-bit fields (R80). -/
def fitsCode (c : Nat) : Bool := decide (c < 8)

/-- Every immediate of the command fits its field (R80). -/
def Instr.wf : Instr → Bool
  | .fsBind pidx => fitsImm8 pidx
  | .conv f t => fitsCode f && fitsCode t
  | .convQuery f t => fitsCode f && fitsCode t
  | .brGet n => fitsImm8 n
  | .brGets n => fitsImm8 n
  | .bwPut n => fitsImm8 n
  | .fsUnbind => true
  | .fsReset => true
  | .fsLoad => true
  | .fsFlush => true
  | .brBind => true
  | .brGetb => true
  | .brSeek => true
  | .brUnbind => true
  | .bwBind => true
  | .bwPutb => true
  | .bwSeek => true
  | .bwFlush => true
  | .bwClose => true

end Sys2Proof
end

