-- ==== Sys2Proof/Decode.lean ====
section
/-!
DEFINITION. The command word: its fields, the decoder and the encoder (spec/30_encoding.md R80, R81, R85, R86, R87). The
decoder is total on 32-bit words and says by name why it rejects one; the step turns every rejection into `ILLEGAL_COMMAND`.
-/
namespace Sys2Proof

/-- `OPC`, bits 7:0 (R80). -/
def opcOf (w : Word) : Nat := w.toNat % 256

/-- `IMM8`, bits 15:8 (R80). -/
def imm8Of (w : Word) : Nat := w.toNat / 256 % 256

/-- `FROM`, bits 18:16 (R80). -/
def fromOf (w : Word) : Nat := w.toNat / 65536 % 8

/-- `TO`, bits 21:19 (R80). -/
def toOf (w : Word) : Nat := w.toNat / 524288 % 8

/-- `RSVD`, bits 31:22 (R80). -/
def rsvdOf (w : Word) : Nat := w.toNat / 4194304

/-- Which optional fields an opcode uses (R81). -/
inductive UsedFields where
  | neither
  | imm8
  | fromTo
  deriving DecidableEq, Repr

/-- Why a command word is rejected (R81, R86). -/
inductive Reject where
  /-- the opcode is not in the table of R85 -/
  | unknownOpcode (opc : Nat)
  /-- a field the opcode does not use is not zero -/
  | unusedFieldNotZero (opc : Nat)
  deriving DecidableEq, Repr

/-- What the decoder answers. -/
inductive Decoded where
  | command (i : Instr)
  | rejected (r : Reject)
  deriving DecidableEq, Repr

/-- Every field the opcode does not use, and `RSVD`, is zero (R81, R87). -/
def unusedFieldsZero (u : UsedFields) (w : Word) : Bool :=
  rsvdOf w == 0 &&
    (match u with
    | .neither => imm8Of w == 0 && fromOf w == 0 && toOf w == 0
    | .imm8 => fromOf w == 0 && toOf w == 0
    | .fromTo => imm8Of w == 0)

/-- A word whose opcode stands for `i` and uses the fields `u`: the command, if the other fields are zero (R81). -/
def checkUnused (u : UsedFields) (w : Word) (i : Instr) : Decoded :=
  if unusedFieldsZero u w then .command i else .rejected (.unusedFieldNotZero (opcOf w))

/-- The decoder: `OPC` alone tells the command, and the unused fields must be zero (R85, R86, R87). -/
def decode (w : Word) : Decoded :=
  match opcOf w with
  | 0x01 => checkUnused .imm8 w (.fsBind (imm8Of w))
  | 0x02 => checkUnused .neither w .fsUnbind
  | 0x03 => checkUnused .neither w .fsReset
  | 0x04 => checkUnused .neither w .fsLoad
  | 0x05 => checkUnused .neither w .fsFlush
  | 0x10 => checkUnused .fromTo w (.conv (fromOf w) (toOf w))
  | 0x11 => checkUnused .fromTo w (.convQuery (fromOf w) (toOf w))
  | 0x20 => checkUnused .neither w .brBind
  | 0x21 => checkUnused .imm8 w (.brGet (imm8Of w))
  | 0x22 => checkUnused .imm8 w (.brGets (imm8Of w))
  | 0x23 => checkUnused .neither w .brGetb
  | 0x24 => checkUnused .neither w .brSeek
  | 0x25 => checkUnused .neither w .brUnbind
  | 0x30 => checkUnused .neither w .bwBind
  | 0x31 => checkUnused .imm8 w (.bwPut (imm8Of w))
  | 0x32 => checkUnused .neither w .bwPutb
  | 0x33 => checkUnused .neither w .bwSeek
  | 0x34 => checkUnused .neither w .bwFlush
  | 0x35 => checkUnused .neither w .bwClose
  | opc => .rejected (.unknownOpcode opc)

/-- The opcode of a command (R85). -/
def Instr.opcode : Instr → Nat
  | .fsBind _ => 0x01
  | .fsUnbind => 0x02
  | .fsReset => 0x03
  | .fsLoad => 0x04
  | .fsFlush => 0x05
  | .conv _ _ => 0x10
  | .convQuery _ _ => 0x11
  | .brBind => 0x20
  | .brGet _ => 0x21
  | .brGets _ => 0x22
  | .brGetb => 0x23
  | .brSeek => 0x24
  | .brUnbind => 0x25
  | .bwBind => 0x30
  | .bwPut _ => 0x31
  | .bwPutb => 0x32
  | .bwSeek => 0x33
  | .bwFlush => 0x34
  | .bwClose => 0x35

/-- The optional fields of a command in their places: `IMM8` from bit 8, `FROM` from bit 16, `TO` from bit 19 (R80). -/
def Instr.operandBits : Instr → Nat
  | .fsBind pidx => 256 * pidx
  | .conv f t => 65536 * f + 524288 * t
  | .convQuery f t => 65536 * f + 524288 * t
  | .brGet n => 256 * n
  | .brGets n => 256 * n
  | .bwPut n => 256 * n
  | .fsUnbind => 0
  | .fsReset => 0
  | .fsLoad => 0
  | .fsFlush => 0
  | .brBind => 0
  | .brGetb => 0
  | .brSeek => 0
  | .brUnbind => 0
  | .bwBind => 0
  | .bwPutb => 0
  | .bwSeek => 0
  | .bwFlush => 0
  | .bwClose => 0

/-- The command word of a well-formed command (R80, R85). -/
def encode (i : Instr) : Word := toWord (i.opcode + i.operandBits)

/-- The optional fields a command uses (R81). -/
def Instr.used : Instr → UsedFields
  | .fsBind _ => .imm8
  | .conv _ _ => .fromTo
  | .convQuery _ _ => .fromTo
  | .brGet _ => .imm8
  | .brGets _ => .imm8
  | .bwPut _ => .imm8
  | .fsUnbind => .neither
  | .fsReset => .neither
  | .fsLoad => .neither
  | .fsFlush => .neither
  | .brBind => .neither
  | .brGetb => .neither
  | .brSeek => .neither
  | .brUnbind => .neither
  | .bwBind => .neither
  | .bwPutb => .neither
  | .bwSeek => .neither
  | .bwFlush => .neither
  | .bwClose => .neither

/-- The mask of R87: the bits the opcode table fixes for a command that uses the fields `u`. -/
def maskOf : UsedFields → Word
  | .neither => 0xFFFFFFFF
  | .imm8 => 0xFFFF00FF
  | .fromTo => 0xFFC0FFFF

/-- One row of the match/mask form of the opcode map (R87; spec/opcode_table.json). -/
structure OpcodeRow where
  mnemonic : String
  matchWord : Word
  mask : Word
  deriving DecidableEq, Repr

/-- The opcode map as match/mask rows, in the order of spec/opcode_table.json (R85, R87). -/
def opcodeRows : List OpcodeRow :=
  [⟨"FS_BIND", 0x01, 0xFFFF00FF⟩, ⟨"FS_UNBIND", 0x02, 0xFFFFFFFF⟩, ⟨"FS_RESET", 0x03, 0xFFFFFFFF⟩,
    ⟨"FS_LOAD", 0x04, 0xFFFFFFFF⟩, ⟨"FS_FLUSH", 0x05, 0xFFFFFFFF⟩, ⟨"CONV", 0x10, 0xFFC0FFFF⟩,
    ⟨"CONV_QUERY", 0x11, 0xFFC0FFFF⟩, ⟨"BR_BIND", 0x20, 0xFFFFFFFF⟩, ⟨"BR_GET", 0x21, 0xFFFF00FF⟩,
    ⟨"BR_GETS", 0x22, 0xFFFF00FF⟩, ⟨"BR_GETB", 0x23, 0xFFFFFFFF⟩, ⟨"BR_SEEK", 0x24, 0xFFFFFFFF⟩,
    ⟨"BR_UNBIND", 0x25, 0xFFFFFFFF⟩, ⟨"BW_BIND", 0x30, 0xFFFFFFFF⟩, ⟨"BW_PUT", 0x31, 0xFFFF00FF⟩,
    ⟨"BW_PUTB", 0x32, 0xFFFFFFFF⟩, ⟨"BW_SEEK", 0x33, 0xFFFFFFFF⟩, ⟨"BW_FLUSH", 0x34, 0xFFFFFFFF⟩,
    ⟨"BW_CLOSE", 0x35, 0xFFFFFFFF⟩]

/-- A word fits a row: its masked bits are the row's (R87). -/
def OpcodeRow.fits (r : OpcodeRow) (w : Word) : Bool := (w &&& r.mask) == r.matchWord

/-- The instruction the decoder reads from the `nbits` low bits of `w`, every bit above them zero. A command is one 32-bit
word (R80), so bits above 31 make no command word. -/
def decodeTableWord (nbits w : Nat) : Option Instr :=
  let v := w % 2 ^ nbits
  if v < 2 ^ 32 then
    match decode (toWord v) with
    | .command i => some i
    | .rejected _ => none
  else none

end Sys2Proof
end

