-- ==== Sys2Proof/Config.lean ====
section
/-!
DEFINITION. What a platform fixes and what the spec leaves to any value. The parameters are those of spec/00_scope.md R9
and spec/93_implementation_defined.md I11: the parser table, `NP`, `ARENA_MAX`, `PAD14`, `REG_BASE` and `ARENA_BASE`. They
are opaque constants, so that nothing can be proved of a particular choice. The free values (I2, I3, I4, I5, I6, I9) are opaque
functions, read through the counter State holds.
-/
namespace Sys2Proof

/-- A HeaderInfo: nine 32-bit fields (spec/40_parser_port.md R103; the order of spec/10_state.md R36). -/
structure HeaderInfo where
  /-- format tag -/
  format : Word
  /-- channel-layout mask -/
  chmask : Word
  /-- sample rate -/
  srate : Word
  /-- relation/mode hint -/
  relation : Word
  /-- `fs`: declared frame size, 0 = free format -/
  frameSize : Word
  /-- `ss`: scan-window bound -/
  scanSize : Word
  /-- sample count -/
  nsamples : Word
  /-- transport sub-type code -/
  spdifType : Word
  /-- bit-packing type, copied and never checked -/
  bsType : Word
  deriving DecidableEq, Repr, Inhabited

/-- A parser descriptor (R100). `parse` is given exactly `headerSize` bytes (R101); `parse` and `compare` are pure and
total because they are Lean functions, and no law of `compare` is assumed (R102). -/
structure ParserDescriptor where
  /-- `header_size`, written `H` -/
  headerSize : Nat
  /-- `min_frame_size`, written `Fmin` -/
  minFrameSize : Nat
  /-- `max_frame_size`, written `Fmax` -/
  maxFrameSize : Nat
  /-- the structural probe -/
  parse : List Byte → Option HeaderInfo
  /-- the same-stream test; the header that stands earlier in the stream comes first -/
  compare : HeaderInfo → HeaderInfo → Bool
  /-- multi-format dispatch (R106) -/
  canParse : Word → Bool
  deriving Inhabited

/-- `PAD14`: the two unused top bits of a 14-bit word on expansion (R9, I10). -/
inductive Pad14 where
  | zero
  | sign
  deriving DecidableEq, Repr, Inhabited

/-- The parameters of R9 that change what a command does. `NP` and `ARENA_MAX` are held less one, which is the bound R9
gives each of them (1 ≤ `NP` ≤ 256, 1 ≤ `ARENA_MAX`). -/
structure Platform where
  /-- `NP - 1` -/
  npLess1 : BitVec 8
  /-- `PARSERS`; only the indices below `NP` name a descriptor of the platform -/
  parsers : Nat → ParserDescriptor
  /-- `ARENA_MAX - 1` -/
  arenaMaxLess1 : Nat
  /-- `PAD14` -/
  pad14 : Pad14
  deriving Inhabited

/-- `NP`, the number of parser descriptors, 1 to 256 (R9). -/
def Platform.np (P : Platform) : Nat := P.npLess1.toNat + 1

/-- `ARENA_MAX`, the largest arena capacity, at least 1 (R9). -/
def Platform.arenaMax (P : Platform) : Nat := P.arenaMaxLess1 + 1

/-- The platform the machine stands on: any platform (R9, I11). -/
opaque Config.platform : Platform

/-- `REG_BASE`: the host address of the register window, left OPEN (R9, R61, R68). Host actions of the model name REG
by offset, so no meaning depends on it. -/
opaque Config.regBase : Nat

/-- `ARENA_BASE`: the host address of the arena window, left OPEN (R9, R62, R68). -/
opaque Config.arenaBase : Nat

/-- What a byte of MEM that nothing has written holds: any value, one per address (R262, I6). -/
opaque Config.unwrittenByte : Nat → Byte

/-- A fresh byte of any value, by the count of free values drawn so far (I2, I3, I4, I5). -/
opaque Config.freeByte : Nat → Byte

/-- A fresh word of any value, by the count of free values drawn so far (I9; R170 where the byte count does not fit). -/
opaque Config.freeWord : Nat → Word

/-- The host address of the register at `off` in REG (R61). -/
def Config.regAddress (off : Nat) : Nat := Config.regBase + off

/-- The host address of arena byte `i` (R62). -/
def Config.arenaAddress (i : Nat) : Nat := Config.arenaBase + i

end Sys2Proof
end

