-- ==== Sys2Proof/Machine/State.lean ====
section
/-!
DEFINITION. The state of the FSB as plain data (spec/10_state.md), the host's side of the bus, the reset state, and the
reasons a step can stop. INVENTORY.md lists every field with its rule and its reset value.
-/
namespace Sys2Proof.Machine

/-- Why a step can stop. The FSB has no fault of its own (spec/60_exceptions.md R244, R253). -/
inductive Fault where
  /-- Raised by a BitReader get, a BitWriter commit or a reset that would touch the byte at `addr`, which lies above the
  last address of MEM (spec/20_memory.md R60). Safe: R66 checks every range when it is named, so a run from reset never
  gets there (Sys2Proof/Safety.lean, `State.Inv`). -/
  | outsideMem (addr : Nat)
  deriving DecidableEq, Repr

/-- Why a step can be refused. -/
inductive Refusal where
  /-- Raised by an arm of `exec` whose command has no meaning yet. Safe. No arm is refused. -/
  | notModelled (mnemonic : String)
  deriving DecidableEq, Repr

/-- The status codes by name (R17, spec/60_exceptions.md R240). -/
inductive Status where
  | ok
  | needInput
  | outOfRangeBitAccess
  | unflushedWriter
  | unsupportedConversion
  | badLength
  | overlap
  | notBound
  | illegalCommand
  | illegalValue
  | badParserParams
  | addressRange
  deriving DecidableEq, Repr

/-- `FS_RESULT` by name: `NONE`, `FRAME`, `DEBRIS` (R33). -/
inductive FsResult where
  | noOutput
  | frame
  | debris
  deriving DecidableEq, Repr

/-- A view: an offset and a length in the arena (R14, R32). -/
structure View where
  off : Word
  len : Word
  deriving DecidableEq, Repr

/-- The empty view has offset 0 and length 0 (R32). -/
def View.empty : View := ⟨0, 0⟩

/-- The HeaderInfo with every field 0: what the `FS_HI_*` set holds at reset (R36). -/
def noHeader : HeaderInfo := ⟨0, 0, 0, 0, 0, 0, 0, 0, 0⟩

/-- The FrameSynchronizer's state (R23 to R37). `fill` (R30) is the length of `arena`, which holds the bytes below the fill
level only: the bytes above it hold no defined value. -/
structure FsUnit where
  /-- `fs_bound` (R23) -/
  bound : Bool
  /-- `fs_parser` (R24) -/
  parser : BitVec 8
  /-- `H` (R25) -/
  h : Word
  /-- `Fmin` (R25) -/
  fmin : Word
  /-- `Fmax` (R25) -/
  fmax : Word
  /-- `C`, the arena capacity (R25, R31) -/
  cap : Word
  /-- `fs_sync` (R26) -/
  sync : Bool
  /-- `scan_pos` (R27) -/
  scanPos : Word
  /-- `last_len` (R28) -/
  lastLen : Word
  /-- `consumed` (R29) -/
  consumed : Word
  /-- `Arena[0 .. fill-1]` (R30) -/
  arena : List Byte
  /-- the debris view (R32) -/
  debris : View
  /-- the frame view (R32) -/
  frame : View
  /-- `FS_RESULT` (R33) -/
  result : FsResult
  /-- `FS_COUNT` (R34) -/
  count : Word
  /-- `FS_GEN` (R35) -/
  gen : Word
  /-- the confirmed HeaderInfo (R36) -/
  hi : HeaderInfo
  /-- `hinfo_valid` (R36) -/
  hiValid : Bool
  /-- `FS_IN_PTR` (R37) -/
  inPtr : Word
  /-- `FS_IN_END` (R37) -/
  inEnd : Word
  deriving DecidableEq, Repr

/-- The fields both bit cursors have (R38, R40). -/
structure Cursor where
  /-- `br_bound`, `bw_bound` -/
  bound : Bool
  /-- `br_buf`, `bw_buf`: byte address of the buffer -/
  buf : Word
  /-- `br_start`, `bw_start`: first stream bit of the region -/
  start : Word
  /-- `br_pos`, `bw_pos`: stream bit of the next field -/
  pos : Word
  /-- `br_end`, `bw_end`: one past the region's last stream bit -/
  stop : Word
  deriving DecidableEq, Repr

/-- The BitReader's state (R38, R39). -/
structure BrUnit where
  cur : Cursor
  /-- `br_wvalid` -/
  wvalid : Bool
  /-- `br_widx` -/
  widx : Word
  /-- `br_word` -/
  word : Word
  deriving DecidableEq, Repr

/-- The BitWriter's state (R40, R41). -/
structure BwUnit where
  cur : Cursor
  /-- `bw_pending`: a finite map from stream bits to bit values, as pairs in strictly rising order of stream bit -/
  pending : List (Nat × Bool)
  deriving DecidableEq, Repr

/-- The contents of MEM (R60): (address, byte) pairs, addresses strictly rising. An unlisted address holds a byte nothing has
written. -/
abbrev Memory := List Host.Cell

/-- The registers of REG (spec/30_encoding.md R82). -/
inductive Reg where
  | cmd | status | arg0 | arg1 | arg2 | res0 | res1
  | fsState | fsResult | fsInPtr | fsInEnd | fsDebrisOff | fsDebrisLen | fsFrameOff | fsFrameLen
  | fsCount | fsGen | fsFill | fsCap | fsScanPos | fsLastLen | fsConsumed
  | fsHiFormat | fsHiChmask | fsHiSrate | fsHiRelation | fsHiFrameSize | fsHiScanSize | fsHiNsamples
  | fsHiSpdifType | fsHiBsType
  | fsH | fsFmin | fsFmax
  | brState | brBuf | brStart | brPos | brEnd
  | bwState | bwBuf | bwStart | bwPos | bwEnd
  deriving DecidableEq, Repr

/-- What the host or the platform does to the FSB and to MEM, one action at a time (R8, R61, R62, R70, R260). -/
inductive HostAction where
  /-- an aligned 32-bit write to REG, as far as `off` is a multiple of 4 -/
  | regWrite (off : Word) (value : Word)
  /-- an aligned 32-bit read of REG, as far as `off` is a multiple of 4 -/
  | regRead (off : Word)
  /-- a write to REG of another width, `bytes` wide (I9) -/
  | regWriteOther (off : Word) (bytes : Nat) (value : Nat)
  /-- a read of REG of another width (I9) -/
  | regReadOther (off : Word) (bytes : Nat)
  /-- a byte read of the arena window (R62) -/
  | arenaRead (i : Word)
  /-- a byte write to the arena window (R62) -/
  | arenaWrite (i : Word) (value : Byte)
  /-- a byte read of MEM by the host -/
  | memRead (addr : Word)
  /-- a byte write to MEM by the host -/
  | memWrite (addr : Word) (value : Byte)
  /-- the power-on or platform reset input (R260) -/
  | reset
  deriving DecidableEq, Repr

/-- The whole state. `bus`, `hostData` and `freeCount` are the model's own: the host's actions still to come, oldest first;
the value the last host read returned; and how many free values have been drawn. -/
structure State where
  /-- `STATUS` (R22) -/
  status : Status
  /-- `ARG0` (R20) -/
  arg0 : Word
  /-- `ARG1` (R20) -/
  arg1 : Word
  /-- `ARG2` (R20) -/
  arg2 : Word
  /-- `RES0` (R20) -/
  res0 : Word
  /-- `RES1` (R20) -/
  res1 : Word
  /-- the FrameSynchronizer -/
  fs : FsUnit
  /-- the BitReader -/
  br : BrUnit
  /-- the BitWriter -/
  bw : BwUnit
  /-- MEM (R60) -/
  mem : Memory
  /-- the model's own: what the host does next -/
  bus : List HostAction
  /-- the model's own: what the last host read returned -/
  hostData : Word
  /-- the model's own: the count of free values drawn -/
  freeCount : Nat
  deriving DecidableEq, Repr

/-- The three outcomes of a step of this machine. -/
abbrev Result := Host.Outcome State Fault Refusal

/-- The FS after reset (R23 to R37): unbound, empty, every field 0. -/
def FsUnit.reset : FsUnit :=
  { bound := false, parser := 0, h := 0, fmin := 0, fmax := 0, cap := 0, sync := false, scanPos := 0, lastLen := 0,
    consumed := 0, arena := [], debris := View.empty, frame := View.empty, result := .noOutput, count := 0, gen := 0,
    hi := noHeader, hiValid := false, inPtr := 0, inEnd := 0 }

/-- A cursor that is not bound: every field 0 (R38, R40, R130, R148). -/
def Cursor.unbound : Cursor := { bound := false, buf := 0, start := 0, pos := 0, stop := 0 }

/-- The BitReader after reset (R38, R39). -/
def BrUnit.reset : BrUnit := { cur := Cursor.unbound, wvalid := false, widx := 0, word := 0 }

/-- The BitWriter after reset (R40, R41). -/
def BwUnit.reset : BwUnit := { cur := Cursor.unbound, pending := [] }

/-- The machine right after reset (R44, R260): every field at the value its rule states, nothing listed in MEM (R262), the
FSB idle (R263). -/
def State.reset : State :=
  { status := .ok, arg0 := 0, arg1 := 0, arg2 := 0, res0 := 0, res1 := 0, fs := FsUnit.reset, br := BrUnit.reset,
    bw := BwUnit.reset, mem := [], bus := [], hostData := 0, freeCount := 0 }

end Sys2Proof.Machine
end

