-- ==== Sys2Proof/Machine/Operands.lean ====
section
/-!
DEFINITION. Operand forms (spec/30_encoding.md R84): the packing codes (spec/42_converter.md R160), byte ranges and their
overlap (spec/00_scope.md R14), the region check of a bind (spec/41_bit_cursors.md R121), word geometry (R122) and a region's
byte range (spec/20_memory.md R64). Arithmetic is on naturals (R10). `ARG0` to `ARG2` are taken as unsigned (R84), by
`BitVec.toNat` where a command reads them.
-/
namespace Sys2Proof.Machine

/-- The packing types (R160). -/
inductive Packing where
  | byte
  | w16be
  | w16le
  | w14be
  | w14le
  deriving DecidableEq, Repr

/-- The packing type of a 3-bit code; codes 5 to 7 name none (R160). -/
def packingOf : Nat → Option Packing
  | 0 => some .byte
  | 1 => some .w16be
  | 2 => some .w16le
  | 3 => some .w14be
  | 4 => some .w14le
  | _ => none

/-- `ceil(a/b)` (R11). -/
def ceilDiv (a b : Nat) : Nat := (a + b - 1) / b

/-- The ranges `[a, b)` and `[c, d)` overlap: both are non-empty and they share a byte (R14). -/
def overlaps (a b c d : Nat) : Bool := decide (a < b) && decide (c < d) && decide (a < d) && decide (c < b)

/-- A region's first byte: `buf + floor(start/8)` (R64). -/
def regionLo (buf start : Nat) : Nat := buf + start / 8

/-- One past a region's last byte: `buf + ceil(end/8)` (R64). -/
def regionHi (buf stop : Nat) : Nat := buf + ceilDiv stop 8

/-- `RegionOK(b, s, l)`: the region's end `e`, or nothing where `ADDRESS_RANGE` is raised (R121, R66). -/
def regionOk (b s l : Nat) : Option Nat :=
  if s + l > 2 ^ 32 - 1 then none
  else if regionHi b (s + l) > memSize then none
  else some (s + l)

/-- A cursor's first byte (R64). -/
def Cursor.lo (c : Cursor) : Nat := regionLo c.buf.toNat c.start.toNat

/-- One past a cursor's last byte (R64). -/
def Cursor.hi (c : Cursor) : Nat := regionHi c.buf.toNat c.stop.toNat

/-- `base = b - (b mod 4)` (R122, R39). -/
def Cursor.base (c : Cursor) : Nat := c.buf.toNat - c.buf.toNat % 4

/-- `off = 8*(b - base)` (R122). -/
def Cursor.off (c : Cursor) : Nat := 8 * (c.buf.toNat - c.base)

/-- `widx(k)`: the word that holds stream bit `k` (R122). -/
def Cursor.widxOf (c : Cursor) (k : Nat) : Nat := (k + c.off) / 32

/-- The bit of that word which is stream bit `k` (R122). -/
def Cursor.wbitOf (c : Cursor) (k : Nat) : Nat := 31 - (k + c.off) % 32

/-- "Bits remaining" in the current word, derived (R39). -/
def Cursor.bitsRemaining (c : Cursor) : Nat := 32 - (c.pos.toNat + 8 * (c.buf.toNat - c.base)) % 32

/-- The cursor a bind leaves: at `b`, region `[s, e)`, positioned at its start (R120, R140). -/
def Cursor.bindTo (b s : Word) (e : Nat) : Cursor := { bound := true, buf := b, start := s, pos := s, stop := toWord e }

/-- A field of `n` bits at the cursor's position stays inside the region, and `n` is at most 32 (R126, R144). -/
def Cursor.fieldFits (c : Cursor) (n : Nat) : Bool := decide (n ≤ 32) && decide (c.pos.toNat + n ≤ c.stop.toNat)

/-- The stream bit `p` lies in `[start, end]`: a seek may go there (R129, R146). -/
def Cursor.canSeek (c : Cursor) (p : Word) : Bool := decide (c.start.toNat ≤ p.toNat) && decide (p.toNat ≤ c.stop.toNat)

end Sys2Proof.Machine
end

