-- ==== Sys2Proof/Machine/Ops.lean ====
section
/-!
DEFINITION. The named operations every meaning goes through: finite maps in canonical form, MEM reads and writes
(spec/00_scope.md R13), stream bits (R12), pending bytes (spec/10_state.md R41), the commit (spec/41_bit_cursors.md R143),
free values, and how a command ends: with `OK` or by raising a status (spec/60_exceptions.md R240, R242, R244, R245).
-/
namespace Sys2Proof.Machine

/-! ### Finite maps as lists of pairs, keys strictly rising -/

/-- The value a map holds at `a`. -/
def mapGet {β : Type} : List (Nat × β) → Nat → Option β
  | [], _ => none
  | (k, v) :: rest, a => if k = a then some v else mapGet rest a

/-- The map with `v` at `a`, the order of keys kept. -/
def mapSet {β : Type} : List (Nat × β) → Nat → β → List (Nat × β)
  | [], a, v => [(a, v)]
  | (k, w) :: rest, a, v =>
    if a < k then (a, v) :: (k, w) :: rest
    else if a = k then (a, v) :: rest
    else (k, w) :: mapSet rest a v

/-- Every key of the map is above `a`. -/
def keysAbove {β : Type} (a : Nat) (m : List (Nat × β)) : Bool := m.all fun c => decide (a < c.1)

/-- The canonical form: keys strictly rising. -/
def rising {β : Type} : List (Nat × β) → Bool
  | [] => true
  | (k, _) :: rest => keysAbove k rest && rising rest

/-! ### MEM -/

/-- MEM is in its canonical form: addresses strictly rising, each of them an address of MEM (R60). No entry equals what an
unlisted address reads as, because an unlisted address holds no value at all. -/
def Memory.wf (m : Memory) : Bool := rising m && m.all fun c => decide (c.1 < memSize)

/-- The byte at address `a`; where nothing has been written, any value, the same at every read (R67, R262, I6). -/
def memByte (m : Memory) (a : Nat) : Byte := (mapGet m a).getD (Config.unwrittenByte a)

/-- MEM with the byte `b` at `a`. -/
def memSet (m : Memory) (a : Nat) (b : Byte) : Memory := mapSet m a b

/-- `MemRead(a, n)`: the `n` bytes from `a` up (R13, R60). -/
def memRead (m : Memory) (a n : Nat) : List Byte := (List.range n).map fun i => memByte m (a + i)

/-- `MemWrite(a, n, bs)`: the bytes of `bs` from `a` up, the first at the lowest address (R13, R60). -/
def memWrite (m : Memory) (a : Nat) : List Byte → Memory
  | [] => m
  | b :: bs => memWrite (memSet m a b) (a + 1) bs

/-! ### Stream bits (R12) -/

/-- The address of the byte that holds stream bit `k` of the buffer at `buf`. -/
def streamByte (buf k : Nat) : Nat := buf + k / 8

/-- The bit of that byte which is stream bit `k`. -/
def streamShift (k : Nat) : Nat := 7 - k % 8

/-- The byte `x` with bit `i` set to `b`. -/
def setBit (x : Byte) (i : Nat) (b : Bool) : Byte := if b then x ||| (1#8 <<< i) else x &&& ~~~(1#8 <<< i)

/-! ### The BitWriter's pending bytes (R41) and their commit (R143) -/

/-- The addresses of the pending bytes, one for each pending bit, in rising order of stream bit. -/
def BwUnit.pendingBytes (w : BwUnit) : List Nat := w.pending.map fun kb => streamByte w.cur.buf.toNat kb.1

/-- The byte at `a` is a pending byte of the BitWriter. -/
def BwUnit.isPending (w : BwUnit) (a : Nat) : Bool := w.pendingBytes.any fun p => p == a

/-- Some byte of `[lo, hi)` is a pending byte of the BitWriter (R75). -/
def BwUnit.pendingIn (w : BwUnit) (lo hi : Nat) : Bool := w.pendingBytes.any fun p => decide (lo ≤ p) && decide (p < hi)

/-- The first pending byte above MEM, if there is one (R66 keeps every run from one). -/
def BwUnit.outside (w : BwUnit) : Option Nat := w.pendingBytes.find? fun p => decide (memSize ≤ p)

/-- MEM with one pending bit committed: a read-modify-write of its byte that keeps the other bits (R143, D41). -/
def commitBit (buf : Nat) (m : Memory) (kb : Nat × Bool) : Memory :=
  memSet m (streamByte buf kb.1) (setBit (memByte m (streamByte buf kb.1)) (streamShift kb.1) kb.2)

/-- MEM with every pending bit committed (R143). -/
def commitMem (m : Memory) (buf : Nat) (pending : List (Nat × Bool)) : Memory := pending.foldl (commitBit buf) m

/-- `Commit()` (R143): the pending bits go to MEM and the pending map is empty. -/
def commit (s : State) : State :=
  { s with mem := commitMem s.mem s.bw.cur.buf.toNat s.bw.pending, bw := { s.bw with pending := [] } }

/-! ### Free values -/

/-- The free byte that comes next. -/
def nextFreeByte (s : State) : Byte := Config.freeByte s.freeCount

/-- The free word that comes next. -/
def nextFreeWord (s : State) : Word := Config.freeWord s.freeCount

/-- The state after one free value has been drawn. -/
def drewFree (s : State) : State := { s with freeCount := s.freeCount + 1 }

/-! ### How a command ends -/

/-- `raise E`: the command ends with status `E` and changes nothing else (R13, R242). This is the whole of the FSB's
exception entry: it saves no state and redirects nothing (R244), and there is nothing to return from (R245). -/
def raise (e : Status) (s : State) : Result := .next { s with status := e }

/-- The command ends with `OK` in the state `s` (R240). -/
def finish (s : State) : Result := .next { s with status := .ok }

/-- The command commits the pending bits, does `k` and ends with `OK`. A pending byte above MEM is an access to an address
that does not exist. -/
def commitThen (k : State → State) (s : State) : Result :=
  match s.bw.outside with
  | some a => .fault (.outsideMem a)
  | none => finish (k (commit s))

end Sys2Proof.Machine
end

