-- ==== Sys2Proof/Machine/BitReader.lean ====
section
/-!
DEFINITION. The BitReader's commands (spec/41_bit_cursors.md R120 to R130) over its one-word cache (R123 to R125).
-/
namespace Sys2Proof.Machine

/-- A byte of a cursor word: read from MEM inside the region's byte range, 0 outside it (R64). -/
def regionByte (m : Memory) (c : Cursor) (a : Nat) : Byte :=
  if c.lo ≤ a ∧ a < c.hi then memByte m a else 0

/-- The cursor word of index `w`: `{b0, b1, b2, b3}` from `base + 4*w` up (R64). -/
def wordAt (m : Memory) (c : Cursor) (w : Nat) : Word :=
  regionByte m c (c.base + 4 * w) ++ regionByte m c (c.base + 4 * w + 1) ++ regionByte m c (c.base + 4 * w + 2) ++
    regionByte m c (c.base + 4 * w + 3)

/-- The word cache holds the word of index `w`. -/
def BrUnit.holds (r : BrUnit) (w : Nat) : Bool := r.wvalid && r.widx.toNat == w

/-- `LoadWord(w)` (R125). -/
def loadWord (m : Memory) (r : BrUnit) (w : Nat) : BrUnit :=
  { r with wvalid := true, widx := toWord w, word := wordAt m r.cur w }

/-- The reader with the word of stream bit `k` in its cache, loaded if it is not there yet (R123). -/
def fetchWord (m : Memory) (r : BrUnit) (k : Nat) : BrUnit :=
  if r.holds (r.cur.widxOf k) then r else loadWord m r (r.cur.widxOf k)

/-- `ReadBit(k)` (R123): the bit, and the reader with the word in its cache. -/
def readBit (m : Memory) (r : BrUnit) (k : Nat) : Bool × BrUnit :=
  ((fetchWord m r k).word.getLsbD (r.cur.wbitOf k), fetchWord m r k)

/-- The loop of R126: `n` more bits from stream bit `k`, most significant first, after the value `v`. -/
def readBits (m : Memory) : Nat → BrUnit → Nat → Nat → Nat × BrUnit
  | 0, r, _, v => (v, r)
  | n + 1, r, k, v =>
    let (b, r') := readBit m r k
    readBits m n r' (k + 1) (2 * v + b.toNat)

/-- The word indices a get of `n ≥ 1` bits needs and has not cached: `Wn` of R124. -/
def wordsToLoad (r : BrUnit) (n : Nat) : List Nat :=
  let first := r.cur.widxOf r.cur.pos.toNat
  let last := r.cur.widxOf (r.cur.pos.toNat + n - 1)
  (List.range' first (last + 1 - first)).filter fun w => !r.holds w

/-- A byte of word `w` lies in the region's byte range and is pending (R124). -/
def wordPending (r : BrUnit) (bw : BwUnit) (w : Nat) : Bool :=
  (List.range 4).any fun j =>
    let a := r.cur.base + 4 * w + j
    decide (r.cur.lo ≤ a) && decide (a < r.cur.hi) && bw.isPending a

/-- The reader's pre-check fails: a word it must load holds a pending byte (R124). -/
def preCheckFails (s : State) (n : Nat) : Bool := (wordsToLoad s.br n).any (wordPending s.br s.bw)

/-- What a get of `n` bits leaves when nothing stands in its way: `RES0` is `put v` of the field's value `v`, and the
position moves by `n` (R126). -/
def gotField (n : Nat) (put : Nat → Word) (s : State) : State :=
  let vr := readBits s.mem n s.br s.br.cur.pos.toNat 0
  { s with
    res0 := put vr.1
    br := { vr.2 with cur := { vr.2.cur with pos := toWord (s.br.cur.pos.toNat + n) } } }

/-- The get of `n` bits that R126, R127 and R128 share; `put` makes `RES0` of the field's value. A region that reaches
above MEM, which R66 keeps every bind from, has no bytes to read there. -/
def getField (n : Nat) (put : Nat → Word) (s : State) : Result :=
  if s.br.cur.bound = false then raise .notBound s
  else if s.br.cur.fieldFits n = false then raise .outOfRangeBitAccess s
  else if n = 0 then finish { s with res0 := 0 }
  else if preCheckFails s n then raise .unflushedWriter s
  else if memSize < s.br.cur.hi then .fault (.outsideMem (s.br.cur.hi - 1))
  else finish (gotField n put s)

/-- `zext_32` of a field of at most 32 bits (R126). -/
def unsignedField (v : Nat) : Word := toWord v

/-- `sext_32` of an `n`-bit field, bit `n-1` the sign (R127). -/
def signedField (n : Nat) (v : Nat) : Word := (BitVec.ofNat n v).signExtend 32

/-- A field as a boolean (R128). -/
def boolField (v : Nat) : Word := if v ≠ 0 then 1 else 0

/-- The BitReader bound at `b`, `s` up to `e`, its cache empty (R120). -/
def boundReader (b s : Word) (e : Nat) (r : BrUnit) : BrUnit := { r with cur := Cursor.bindTo b s e, wvalid := false }

/-- `BR_BIND` (R120). -/
def execBrBind (s : State) : Result :=
  match regionOk s.arg0.toNat s.arg1.toNat s.arg2.toNat with
  | none => raise .addressRange s
  | some e => finish { s with br := boundReader s.arg0 s.arg1 e s.br }

/-- `BR_GET n` (R126). -/
def execBrGet (n : Nat) (s : State) : Result := getField n unsignedField s

/-- `BR_GETS n` (R127). -/
def execBrGets (n : Nat) (s : State) : Result := getField n (signedField n) s

/-- `BR_GETB` (R128). -/
def execBrGetb (s : State) : Result := getField 1 boolField s

/-- The BitReader at stream bit `p`, its cache empty (R129). -/
def soughtReader (p : Word) (r : BrUnit) : BrUnit := { r with cur := { r.cur with pos := p }, wvalid := false }

/-- `BR_SEEK` (R129). -/
def execBrSeek (s : State) : Result :=
  if s.br.cur.bound = false then raise .notBound s
  else if s.br.cur.canSeek s.arg0 = false then raise .outOfRangeBitAccess s
  else finish { s with br := soughtReader s.arg0 s.br }

/-- `BR_UNBIND` (R130). -/
def execBrUnbind (s : State) : Result :=
  if s.br.cur.bound = false then raise .notBound s
  else finish { s with br := { s.br with cur := Cursor.unbound, wvalid := false } }

end Sys2Proof.Machine
end

