-- ==== Sys2Proof/Machine/BitWriter.lean ====
section
/-!
DEFINITION. The BitWriter's commands (spec/41_bit_cursors.md R140 to R148). A put only records pending bits (R141); the
commit is `commit` of Sys2Proof/Machine/Ops.lean.
-/
namespace Sys2Proof.Machine

/-- The pending map with the `n` bits of `v` put from stream bit `k`, most significant first (R144). -/
def putBits (pending : List (Nat × Bool)) (k n v : Nat) : List (Nat × Bool) :=
  (List.range n).foldl (fun p i => mapSet p (k + i) (v.testBit (n - 1 - i))) pending

/-- The BitWriter after a put of the `n` bits of `v` at its position (R144). -/
def putField (n v : Nat) (w : BwUnit) : BwUnit :=
  { cur := { w.cur with pos := toWord (w.cur.pos.toNat + n) }, pending := putBits w.pending w.cur.pos.toNat n v }

/-- `v < 2^n`, asked when `n < 32` only (R142). -/
def valueFits (n v : Nat) : Bool := decide (32 ≤ n) || decide (v < 2 ^ n)

/-- The put that R144 and R145 share. -/
def putValue (n v : Nat) (s : State) : Result :=
  if s.bw.cur.bound = false then raise .notBound s
  else if s.bw.cur.fieldFits n = false then raise .outOfRangeBitAccess s
  else if valueFits n v = false then raise .illegalValue s
  else finish { s with bw := putField n v s.bw }

/-- The writer bound to the region the arguments name, its pending map as it stands (R140). -/
def rebindWriter (e : Nat) (s : State) : State := { s with bw := { s.bw with cur := Cursor.bindTo s.arg0 s.arg1 e } }

/-- `BW_BIND` (R140): the check comes before the commit of a bound writer. -/
def execBwBind (s : State) : Result :=
  match regionOk s.arg0.toNat s.arg1.toNat s.arg2.toNat with
  | none => raise .addressRange s
  | some e => if s.bw.cur.bound = true then commitThen (rebindWriter e) s else finish (rebindWriter e s)

/-- `BW_PUT n` (R144). -/
def execBwPut (n : Nat) (s : State) : Result := putValue n s.arg0.toNat s

/-- `BW_PUTB` (R145): one bit, 1 for any non-zero `ARG0`. -/
def execBwPutb (s : State) : Result := putValue 1 (if s.arg0 ≠ 0 then 1 else 0) s

/-- The writer at stream bit `ARG0` (R146). -/
def seekWriter (s : State) : State := { s with bw := { s.bw with cur := { s.bw.cur with pos := s.arg0 } } }

/-- `BW_SEEK` (R146): the commit comes first. -/
def execBwSeek (s : State) : Result :=
  if s.bw.cur.bound = false then raise .notBound s
  else if s.bw.cur.canSeek s.arg0 = false then raise .outOfRangeBitAccess s
  else commitThen seekWriter s

/-- `BW_FLUSH` (R147). -/
def execBwFlush (s : State) : Result :=
  if s.bw.cur.bound = false then raise .notBound s
  else commitThen id s

/-- The writer released (R148). -/
def releaseWriter (s : State) : State := { s with bw := { s.bw with cur := Cursor.unbound } }

/-- `BW_CLOSE` (R148). -/
def execBwClose (s : State) : Result :=
  if s.bw.cur.bound = false then raise .notBound s
  else commitThen releaseWriter s

end Sys2Proof.Machine
end

