-- ==== Sys2Proof/Machine/Converter.lean ====
section
/-!
DEFINITION. The BitstreamConverter (spec/42_converter.md): the primitive conversions (R162 to R165), the table of the 19
supported pairs with its output lengths (R166, R167), and the two commands (R170, R171).
-/
namespace Sys2Proof.Machine

/-! ### Primitive conversions -/

/-- `Swap16` (R162): the bytes of each 16-bit word exchanged, an odd length padded with one zero byte first. -/
def swap16 : List Byte → List Byte
  | [] => []
  | [b] => [0, b]
  | b :: c :: rest => c :: b :: swap16 rest

/-- The number whose bytes are `bs`, the first most significant (R163). -/
def bytesNat (bs : List Byte) : Nat := bs.foldl (fun x b => 256 * x + b.toNat) 0

/-- The `k` low bytes of `x`, the most significant first (R164). -/
def natBytes (k x : Nat) : List Byte := (List.range k).map fun i => BitVec.ofNat 8 (x >>> (8 * (k - 1 - i)))

/-- The 16-bit word that carries the 14-bit value `v`: bits 15..14 are `PAD14` (R163). -/
def padWord (pad : Pad14) (v : Nat) : Nat := if pad = .sign ∧ v.testBit 13 then v + 0xC000 else v

/-- The two bytes of a 16-bit word, high byte first (R161). -/
def wordBytes (w : Nat) : List Byte := natBytes 2 w

/-- The group of `m` elements of `xs` that starts at element `m*g`; the last one may be shorter. -/
def groupOf {α : Type} (m : Nat) (xs : List α) (g : Nat) : List α := (xs.drop (m * g)).take m

/-- `grp` with zero bytes appended up to 7 (R163). -/
def padTo7 (grp : List Byte) : List Byte := grp ++ List.replicate (7 - grp.length) 0

/-- One group of 7 bytes as 4 words of 14 bits, 8 bytes (R163). -/
def expandGroup (pad : Pad14) (grp : List Byte) : List Byte :=
  let x := bytesNat (padTo7 grp)
  (List.range 4).flatMap fun i => wordBytes (padWord pad ((x >>> (42 - 14 * i)) % 2 ^ 14))

/-- `Expand14BE` (R163). -/
def expand14be (pad : Pad14) (bs : List Byte) : List Byte :=
  (List.range (ceilDiv bs.length 7)).flatMap fun g => expandGroup pad (groupOf 7 bs g)

/-- The big-endian 16-bit words of an even number of bytes (R164). -/
def wordsOf : List Byte → List Nat
  | b :: c :: rest => (b.toNat * 256 + c.toNat) :: wordsOf rest
  | _ => []

/-- One group of `m` words, 1 to 4, as `floor(14m/8)` bytes: bits 13..0 of each word concatenated, the low bits that fill no
byte dropped (R164). -/
def contractGroup (grp : List Nat) : List Byte :=
  let x := grp.foldl (fun x w => 2 ^ 14 * x + w % 2 ^ 14) 0
  let k := 14 * grp.length / 8
  natBytes k (x >>> (14 * grp.length - 8 * k))

/-- `Contract14BE` (R164), for an even number of bytes. -/
def contract14be (bs : List Byte) : List Byte :=
  (List.range (ceilDiv (wordsOf bs).length 4)).flatMap fun g => contractGroup (groupOf 4 (wordsOf bs) g)

/-- `Expand14LE` (R165). -/
def expand14le (pad : Pad14) (bs : List Byte) : List Byte := swap16 (expand14be pad bs)

/-- `Contract14LE` (R165). -/
def contract14le (bs : List Byte) : List Byte := contract14be (swap16 bs)

/-! ### The conversion table -/

/-- The entries of the Conv column of R166. -/
inductive Conversion where
  | copy
  | swap
  | expandBe
  | contractBe
  | expandLe
  | contractLe
  | swapExpandBe
  | swapExpandLe
  | contractBeSwap
  | contractLeSwap
  deriving DecidableEq, Repr

/-- The conversion of a pair of packing types; the pairs that are in no row are unsupported (R166). -/
def conversionOf : Packing → Packing → Option Conversion
  | .byte, .byte => some .copy
  | .byte, .w16be => some .copy
  | .byte, .w16le => some .swap
  | .byte, .w14be => some .expandBe
  | .byte, .w14le => some .expandLe
  | .w16be, .byte => some .copy
  | .w16be, .w16be => some .copy
  | .w16be, .w16le => some .swap
  | .w16be, .w14be => none
  | .w16be, .w14le => none
  | .w16le, .byte => some .swap
  | .w16le, .w16be => some .swap
  | .w16le, .w16le => some .copy
  | .w16le, .w14be => some .swapExpandBe
  | .w16le, .w14le => some .swapExpandLe
  | .w14be, .byte => some .contractBe
  | .w14be, .w16be => none
  | .w14be, .w16le => some .contractBeSwap
  | .w14be, .w14be => some .copy
  | .w14be, .w14le => none
  | .w14le, .byte => some .contractLe
  | .w14le, .w16be => none
  | .w14le, .w16le => some .contractLeSwap
  | .w14le, .w14be => none
  | .w14le, .w14le => some .copy

/-- The conversion of a pair of 3-bit codes; a code that names no packing type has none (R160, R166). -/
def conversionOfCodes (f t : Nat) : Option Conversion :=
  match packingOf f, packingOf t with
  | some a, some b => conversionOf a b
  | _, _ => none

/-- `Conv(F, T, bs)` (R166). -/
def Conversion.apply (pad : Pad14) (c : Conversion) (bs : List Byte) : List Byte :=
  match c with
  | .copy => bs
  | .swap => swap16 bs
  | .expandBe => expand14be pad bs
  | .contractBe => contract14be bs
  | .expandLe => expand14le pad bs
  | .contractLe => contract14le bs
  | .swapExpandBe => expand14be pad (swap16 bs)
  | .swapExpandLe => expand14le pad (swap16 bs)
  | .contractBeSwap => swap16 (contract14be bs)
  | .contractLeSwap => swap16 (contract14le bs)

/-- `n + (n mod 2)`: the length Swap16 gives (R166). -/
def evenUp (n : Nat) : Nat := n + n % 2

/-- The length Expand14BE gives (R166). -/
def expandLen (n : Nat) : Nat := 8 * ceilDiv n 7

/-- The length Contract14BE gives (R166). -/
def contractLen (n : Nat) : Nat := 7 * (n / 8) + 14 * (n % 8 / 2) / 8

/-- `OutLen(F, T, n)`: the output length column of R166 (R167). -/
def Conversion.outLen (c : Conversion) (n : Nat) : Nat :=
  match c with
  | .copy => n
  | .swap => evenUp n
  | .expandBe => expandLen n
  | .contractBe => contractLen n
  | .expandLe => expandLen n
  | .contractLe => contractLen n
  | .swapExpandBe => expandLen (evenUp n)
  | .swapExpandLe => expandLen (evenUp n)
  | .contractBeSwap => evenUp (contractLen n)
  | .contractLeSwap => evenUp (contractLen n)

/-- The code names a 14-bit packing type. -/
def is14 (c : Nat) : Bool := c == 3 || c == 4

/-- `Contractive(F, T)` (R167). -/
def contractive (f t : Nat) : Bool := is14 f && t != f

/-! ### The commands -/

/-- `RES0 ← m`, the number of bytes a conversion wrote (R170). `m` is at most 2^32; for 2^32 itself, which no 32-bit register
holds and for which R170 states no reduction, a free value. -/
def countWritten (m : Nat) (s : State) : State :=
  if m < 2 ^ 32 then { s with res0 := toWord m } else drewFree { s with res0 := nextFreeWord s }

/-- What a conversion leaves once its checks pass: the whole source is read before a byte is written (R169, R170). -/
def converted (pad : Pad14) (c : Conversion) (s : State) : State :=
  countWritten (c.outLen s.arg1.toNat)
    { s with mem := memWrite s.mem s.arg2.toNat (c.apply pad (memRead s.mem s.arg0.toNat s.arg1.toNat)) }

/-- `CONV F,T` on a platform whose padding is `pad` (R170). -/
def convOn (pad : Pad14) (f t : Nat) (s : State) : Result :=
  match conversionOfCodes f t with
  | none => raise .unsupportedConversion s
  | some c =>
    let src := s.arg0.toNat
    let n := s.arg1.toNat
    let dst := s.arg2.toNat
    let m := c.outLen n
    if contractive f t = true ∧ n % 2 = 1 then raise .badLength s
    else if src + n > memSize ∨ dst + m > memSize then raise .addressRange s
    else if dst ≠ src ∧ overlaps src (src + n) dst (dst + m) = true then raise .overlap s
    else if s.bw.pendingIn src (src + n) = true ∨ s.bw.pendingIn dst (dst + m) = true then raise .unflushedWriter s
    else finish (converted pad c s)

/-- `CONV F,T` (R170). -/
def execConv (f t : Nat) (s : State) : Result := convOn Config.platform.pad14 f t s

/-- `CONV_QUERY F,T` (R171). `RES1` takes the output length modulo 2^32. -/
def execConvQuery (f t : Nat) (s : State) : Result :=
  match conversionOfCodes f t with
  | none => raise .unsupportedConversion s
  | some c =>
    if contractive f t = true ∧ s.arg1.toNat % 2 = 1 then raise .badLength s
    else finish { s with res0 := 1, res1 := toWord (c.outLen s.arg1.toNat) }

end Sys2Proof.Machine
end

