-- ==== Sys2Proof/Machine/ParserPort.lean ====
section
/-!
DEFINITION. The HeaderParser port (spec/40_parser_port.md): which descriptors can be bound (R104), and the composite
descriptor (R107). A descriptor itself is a parameter (Sys2Proof/Config.lean).
-/
namespace Sys2Proof.Machine

/-- `C = 3*Fmax + H` (R31, R104). -/
def capacityOf (D : ParserDescriptor) : Nat := 3 * D.maxFrameSize + D.headerSize

/-- The sizes of a descriptor that can be bound (R104). -/
def bindable (P : Platform) (D : ParserDescriptor) : Bool :=
  decide (1 ≤ D.headerSize) && decide (1 ≤ D.maxFrameSize) && decide (D.minFrameSize ≤ D.maxFrameSize) &&
    decide (capacityOf D ≤ P.arenaMax) && decide (capacityOf D < 2 ^ 32)

/-- The composite descriptor over the ordered members `M` and `Ms` (R107): sizes the union of the members', the first member
that parses wins, and a compare is true only between headers of one format that the first member handling it compares
true. -/
def compositeDescriptor (M : ParserDescriptor) (Ms : List ParserDescriptor) : ParserDescriptor where
  headerSize := Ms.foldl (fun x D => max x D.headerSize) M.headerSize
  minFrameSize := Ms.foldl (fun x D => min x D.minFrameSize) M.minFrameSize
  maxFrameSize := Ms.foldl (fun x D => max x D.maxFrameSize) M.maxFrameSize
  parse bs := (M :: Ms).findSome? fun D => D.parse (bs.take D.headerSize)
  compare a b :=
    a.format == b.format &&
      (match (M :: Ms).find? fun D => D.canParse a.format with
      | some D => D.compare a b
      | none => false)
  canParse t := (M :: Ms).any fun D => D.canParse t

end Sys2Proof.Machine
end

