-- ==== Sys2Proof/Machine/FrameSync.lean ====
section
/-!
DEFINITION. The FrameSynchronizer (spec/43_frame_sync.md): its search windows (R197, R198), the three-point confirmation
(R200), the buffer (R205, R206), the two steps (R207 to R212) and the five commands (R190 to R194). `D` is the bound parser's
descriptor and `f` the unit's state; the sizes are the latched ones (spec/10_state.md R25).
-/
namespace Sys2Proof.Machine

/-! ### Probes -/

/-- `fill` (R30). -/
def FsUnit.fill (f : FsUnit) : Nat := f.arena.length

/-- `Parse(i)`: the descriptor's `parse` of `Arena[i .. i+H-1]` (R101). -/
def probe (D : ParserDescriptor) (f : FsUnit) (i : Nat) : Option HeaderInfo := D.parse ((f.arena.drop i).take f.h.toNat)

/-- A declared frame size outside `[Fmin, Fmax]` (R105). -/
def sizeRejected (f : FsUnit) (h : HeaderInfo) : Bool :=
  h.frameSize != 0 && (decide (f.fmax.toNat < h.frameSize.toNat) || decide (h.frameSize.toNat < f.fmin.toNat))

/-- `Valid(i)` (R105). -/
def validAt (D : ParserDescriptor) (f : FsUnit) (i : Nat) : Option HeaderInfo :=
  match probe D f i with
  | none => none
  | some h => if sizeRejected f h then none else some h

/-- The `H` bytes of a probe at `i` are buffered: the condition of every `need` before a probe (R203). -/
def buffered (f : FsUnit) (i : Nat) : Bool := decide (i + f.h.toNat ≤ f.fill)

/-! ### Search windows -/

/-- The last offset of `Win`, counted from the frame's start (R197). -/
def winHi (f : FsUnit) (h : HeaderInfo) : Nat :=
  if h.frameSize ≠ 0 then max (min h.scanSize.toNat f.fmax.toNat) h.frameSize.toNat
  else if h.scanSize ≠ 0 then min h.scanSize.toNat f.fmax.toNat
  else f.fmax.toNat

/-- The first offset of `Win`, counted from the frame's start (R197). -/
def winLo (f : FsUnit) (h : HeaderInfo) : Nat :=
  if h.frameSize ≠ 0 then h.frameSize.toNat else max f.fmin.toNat 1

/-- `Win(i, h)` (R197): empty when its first offset is above its last. -/
def win (f : FsUnit) (i : Nat) (h : HeaderInfo) : List Nat :=
  List.range' (i + winLo f h) (winHi f h + 1 - winLo f h)

/-- The list with `x` moved to its front, where it holds `x` (R198, R210). -/
def tryFirst (x : Nat) (l : List Nat) : List Nat := if x ∈ l then x :: l.filter (fun y => y != x) else l

/-- `Win3(p, q, h2)` (R198). -/
def win3 (f : FsUnit) (p q : Nat) (h2 : HeaderInfo) : List Nat :=
  if h2.frameSize ≠ 0 then win f q h2 else tryFirst (q + (q - p)) (win f q h2)

/-! ### Three-point confirmation -/

/-- What a search answers: it needs more input, it found nothing, or it found `a` (R200). -/
inductive Search (α : Type) where
  | need
  | fail
  | found (a : α)
  deriving DecidableEq, Repr

/-- The loop over candidate 3 (R200). -/
def search3 (D : ParserDescriptor) (f : FsUnit) (h1 h2 : HeaderInfo) : List Nat → Search Unit
  | [] => .fail
  | r :: rs =>
    if buffered f r = false then .need
    else
      match validAt D f r with
      | none => search3 D f h1 h2 rs
      | some h3 => if D.compare h1 h3 && D.compare h2 h3 then .found () else search3 D f h1 h2 rs

/-- The loop over candidate 2 (R200). -/
def search2 (D : ParserDescriptor) (f : FsUnit) (p : Nat) (h1 : HeaderInfo) : List Nat → Search Nat
  | [] => .fail
  | q :: qs =>
    if buffered f q = false then .need
    else
      match validAt D f q with
      | none => search2 D f p h1 qs
      | some h2 =>
        if D.compare h1 h2 = false then search2 D f p h1 qs
        else
          match search3 D f h1 h2 (win3 f p q h2) with
          | .need => .need
          | .found _ => .found q
          | .fail => search2 D f p h1 qs

/-- `Search23(p, h1)` (R200). -/
def search23 (D : ParserDescriptor) (f : FsUnit) (p : Nat) (h1 : HeaderInfo) : Search Nat :=
  search2 D f p h1 (win f p h1)

/-! ### Outputs -/

/-- The view `(off, len)`. -/
def viewAt (off len : Nat) : View := ⟨toWord off, toWord len⟩

/-- `Confirm(p, h1, q)` (R211). -/
def confirmFrame (p : Nat) (h1 : HeaderInfo) (q : Nat) (f : FsUnit) : FsUnit :=
  let len := if h1.frameSize ≠ 0 then h1.frameSize.toNat else q - p
  { f with
    debris := if 0 < p then viewAt 0 p else View.empty
    frame := viewAt p len
    hi := h1
    hiValid := true
    sync := true
    lastLen := toWord len
    count := f.count + 1
    consumed := toWord (p + len)
    scanPos := 0
    result := .frame }

/-- `EmitSynced(len, h)` (R212). -/
def emitSynced (len : Nat) (h : HeaderInfo) (f : FsUnit) : FsUnit :=
  { f with
    debris := View.empty
    frame := viewAt 0 len
    hi := h
    hiValid := true
    lastLen := toWord len
    count := f.count + 1
    consumed := toWord len
    result := .frame }

/-- The debris-only output of R207: every candidate 1 below `Fmax` failed (R201). -/
def emitDebris (f : FsUnit) : FsUnit :=
  { f with
    debris := viewAt 0 f.fmax.toNat
    frame := View.empty
    result := .debris
    consumed := f.fmax
    scanPos := 0 }

/-! ### The steps -/

/-- How a step of the FS ends: it needs more input, or it made an output. -/
inductive FsOutcome where
  | need (f : FsUnit)
  | done (f : FsUnit)
  deriving DecidableEq, Repr

/-- The step ends in `need`, keeping the candidate-1 offset `p` (R203, R207). -/
def needAt (p : Nat) (f : FsUnit) : FsOutcome := .need { f with scanPos := toWord p }

/-- The scan of R207 from candidate-1 offset `p`, with `left` offsets below `Fmax` still to try. -/
def scanFrom (D : ParserDescriptor) (f : FsUnit) : Nat → Nat → FsOutcome
  | 0, _ => .done (emitDebris f)
  | left + 1, p =>
    if buffered f p = false then needAt p f
    else
      match validAt D f p with
      | none => scanFrom D f left (p + 1)
      | some h1 =>
        match search23 D f p h1 with
        | .need => needAt p f
        | .found q => .done (confirmFrame p h1 q f)
        | .fail => scanFrom D f left (p + 1)

/-- `UnsyncedStep()` (R207). -/
def unsyncedStep (D : ParserDescriptor) (f : FsUnit) : FsOutcome :=
  scanFrom D f (f.fmax.toNat - f.scanPos.toNat) f.scanPos.toNat

/-- The loop of `FastFree(h)` (R210): the offset of the next header. -/
def searchNext (D : ParserDescriptor) (f : FsUnit) (h : HeaderInfo) : List Nat → Search Nat
  | [] => .fail
  | j :: js =>
    if buffered f j = false then .need
    else
      match validAt D f j with
      | none => searchNext D f h js
      | some h' => if D.compare h h' then .found j else searchNext D f h js

/-- `FastFree(h)` (R210): `last_len` is tried first. -/
def fastFree (D : ParserDescriptor) (f : FsUnit) (h : HeaderInfo) : Search Nat :=
  searchNext D f h (tryFirst f.lastLen.toNat (win f 0 h))

/-- The desync of R208, in the same command: the raw scan from offset 0. -/
def desync (D : ParserDescriptor) (f : FsUnit) : FsOutcome := unsyncedStep D { f with sync := false, scanPos := 0 }

/-- The fast path of R208 for a header `h` that is valid at offset 0 and compares true: `FastKnown` (R209) or `FastFree`
(R210). -/
def fastPath (D : ParserDescriptor) (f : FsUnit) (h : HeaderInfo) : FsOutcome :=
  if h.frameSize ≠ 0 then
    if h.frameSize.toNat ≤ f.fill then .done (emitSynced h.frameSize.toNat h f) else .need f
  else
    match fastFree D f h with
    | .need => .need f
    | .found j => .done (emitSynced j h f)
    | .fail => desync D f

/-- `SyncedStep()` (R208). -/
def syncedStep (D : ParserDescriptor) (f : FsUnit) : FsOutcome :=
  if buffered f 0 = false then .need f
  else
    match validAt D f 0 with
    | none => desync D f
    | some h => if D.compare f.hi h then fastPath D f h else desync D f

/-- The step that `fs_sync` selects (R193, R196). -/
def fsStep (D : ParserDescriptor) (f : FsUnit) : FsOutcome := if f.sync then syncedStep D f else unsyncedStep D f

/-! ### The buffer -/

/-- `Drop()` (R205). -/
def dropOutput (f : FsUnit) : FsUnit :=
  { f with arena := f.arena.drop f.consumed.toNat, consumed := 0, debris := View.empty, frame := View.empty }

/-- The number of bytes `TopUp()` takes (R206). -/
def topUpCount (f : FsUnit) : Nat := min (f.cap.toNat - f.fill) (f.inEnd.toNat - f.inPtr.toNat)

/-- `TopUp()` (R206). -/
def topUp (m : Memory) (f : FsUnit) : FsUnit :=
  { f with
    arena := f.arena ++ memRead m f.inPtr.toNat (topUpCount f)
    inPtr := toWord (f.inPtr.toNat + topUpCount f) }

/-- `StreamClear()` (R195). -/
def streamClear (f : FsUnit) : FsUnit :=
  { f with
    arena := [], consumed := 0, debris := View.empty, frame := View.empty, result := .noOutput, sync := false
    scanPos := 0, lastLen := 0, hiValid := false, hi := noHeader }

/-- `FS_GEN + 1 mod 2^32` (R35). -/
def bumpGen (f : FsUnit) : FsUnit := { f with gen := f.gen + 1 }

/-! ### The commands -/

/-- The FS bound to entry `pidx`, the descriptor `D` (R190). -/
def boundUnit (pidx : Nat) (D : ParserDescriptor) (f : FsUnit) : FsUnit :=
  { streamClear f with
    bound := true
    parser := BitVec.ofNat 8 pidx
    h := toWord D.headerSize
    fmin := toWord D.minFrameSize
    fmax := toWord D.maxFrameSize
    cap := toWord (capacityOf D)
    count := 0 }

/-- `FS_BIND pidx` on the platform `P` (R190). -/
def fsBindOn (P : Platform) (pidx : Nat) (s : State) : Result :=
  if P.np ≤ pidx then raise .badParserParams s
  else if bindable P (P.parsers pidx) = false then raise .badParserParams s
  else finish { s with fs := bumpGen (boundUnit pidx (P.parsers pidx) s.fs) }

/-- `FS_BIND pidx` (R190). -/
def execFsBind (pidx : Nat) (s : State) : Result := fsBindOn Config.platform pidx s

/-- The FS with no parser bound (R191). -/
def unboundUnit (f : FsUnit) : FsUnit :=
  { streamClear f with count := 0, bound := false, parser := 0, h := 0, fmin := 0, fmax := 0, cap := 0 }

/-- `FS_UNBIND` (R191). -/
def execFsUnbind (s : State) : Result :=
  if s.fs.bound = false then raise .notBound s
  else finish { s with fs := bumpGen (unboundUnit s.fs) }

/-- `FS_RESET` (R192). -/
def execFsReset (s : State) : Result := finish { s with fs := bumpGen { streamClear s.fs with count := 0 } }

/-- The state a step of the FS leaves (R193): `need` sets `FS_RESULT` to `NONE` and `STATUS` to `NEED_INPUT`. -/
def afterFsStep (o : FsOutcome) (s : State) : State :=
  match o with
  | .need f => { s with fs := bumpGen { f with result := .noOutput }, status := .needInput }
  | .done f => { s with fs := bumpGen f, status := .ok }

/-- The drop, the top-up and the step of R193. -/
def loadStep (D : ParserDescriptor) (m : Memory) (f : FsUnit) : FsOutcome := fsStep D (topUp m (dropOutput f))

/-- `FS_LOAD` on the platform `P` (R193, R204). -/
def fsLoadOn (P : Platform) (s : State) : Result :=
  if s.fs.bound = false then raise .notBound s
  else if s.fs.inEnd.toNat < s.fs.inPtr.toNat then raise .addressRange s
  else if s.bw.pendingIn s.fs.inPtr.toNat s.fs.inEnd.toNat = true then raise .unflushedWriter s
  else .next (afterFsStep (loadStep (P.parsers s.fs.parser.toNat) s.mem s.fs) s)

/-- `FS_LOAD` (R193). -/
def execFsLoad (s : State) : Result := fsLoadOn Config.platform s

/-- The output of R194: everything buffered, as debris. -/
def flushOutput (f : FsUnit) : FsUnit :=
  if 0 < f.fill then
    { f with debris := viewAt 0 f.fill, frame := View.empty, result := .debris, consumed := toWord f.fill }
  else { f with debris := View.empty, frame := View.empty, result := .noOutput }

/-- `FS_FLUSH` (R194). -/
def execFsFlush (s : State) : Result :=
  if s.fs.bound = false then raise .notBound s
  else
    finish
      { s with
        fs :=
          bumpGen
            { flushOutput (dropOutput s.fs) with sync := false, scanPos := 0, lastLen := 0, hiValid := false, hi := noHeader } }

end Sys2Proof.Machine
end

