-- ==== Sys2Proof/Machine/Dispatch.lean ====
section
/-!
DEFINITION. The meaning of every command (spec/30_encoding.md R85), one arm per constructor of `Instr`.
-/
namespace Sys2Proof.Machine

def exec (i : Instr) (s : State) : Host.Outcome State Fault Refusal :=
  match i with
  | .fsBind pidx => Sys2Proof.Machine.execFsBind pidx s
  | .fsUnbind => Sys2Proof.Machine.execFsUnbind s
  | .fsReset => Sys2Proof.Machine.execFsReset s
  | .fsLoad => Sys2Proof.Machine.execFsLoad s
  | .fsFlush => Sys2Proof.Machine.execFsFlush s
  | .conv f t => Sys2Proof.Machine.execConv f t s
  | .convQuery f t => Sys2Proof.Machine.execConvQuery f t s
  | .brBind => Sys2Proof.Machine.execBrBind s
  | .brGet n => Sys2Proof.Machine.execBrGet n s
  | .brGets n => Sys2Proof.Machine.execBrGets n s
  | .brGetb => Sys2Proof.Machine.execBrGetb s
  | .brSeek => Sys2Proof.Machine.execBrSeek s
  | .brUnbind => Sys2Proof.Machine.execBrUnbind s
  | .bwBind => Sys2Proof.Machine.execBwBind s
  | .bwPut n => Sys2Proof.Machine.execBwPut n s
  | .bwPutb => Sys2Proof.Machine.execBwPutb s
  | .bwSeek => Sys2Proof.Machine.execBwSeek s
  | .bwFlush => Sys2Proof.Machine.execBwFlush s
  | .bwClose => Sys2Proof.Machine.execBwClose s

end Sys2Proof.Machine
end

