-- ==== Sys2Proof/Machine/Flags.lean ====
section
/-!
DEFINITION. The codes and status words a host reads: `STATUS` (spec/60_exceptions.md R240), its priority order (R243),
`FS_RESULT` (spec/10_state.md R33), and the words of `FS_STATE`, `BR_STATE` and `BW_STATE` (spec/30_encoding.md R82). The FSB
has no other flags (R42).
-/
namespace Sys2Proof.Machine

/-- The code of a status (R240). Codes 12 to 255 are never produced. -/
def Status.code : Status → Nat
  | .ok => 0
  | .needInput => 1
  | .outOfRangeBitAccess => 2
  | .unflushedWriter => 3
  | .unsupportedConversion => 4
  | .badLength => 5
  | .overlap => 6
  | .notBound => 7
  | .illegalCommand => 8
  | .illegalValue => 9
  | .badParserParams => 10
  | .addressRange => 11

/-- The place of a status in the priority list (R243), 1 the first reported; `OK` comes after the whole list. -/
def Status.priority : Status → Nat
  | .illegalCommand => 1
  | .notBound => 2
  | .unsupportedConversion => 3
  | .badParserParams => 4
  | .badLength => 5
  | .addressRange => 6
  | .outOfRangeBitAccess => 7
  | .illegalValue => 8
  | .overlap => 9
  | .unflushedWriter => 10
  | .needInput => 11
  | .ok => 12

/-- A status that ends a command without effect: every code but `OK` and `NEED_INPUT` (R242). -/
def Status.isFailure : Status → Bool
  | .ok => false
  | .needInput => false
  | _ => true

/-- `STATUS`: the code in bits 7:0, bits 31:8 zero (R22). -/
def statusWord (st : Status) : Word := toWord st.code

/-- The code of `FS_RESULT` (R33). -/
def FsResult.code : FsResult → Nat
  | .noOutput => 0
  | .frame => 1
  | .debris => 2

/-- One bit as a number. -/
def bitNat (b : Bool) : Nat := if b then 1 else 0

/-- `FS_STATE`: bit 0 `fs_bound`, bit 1 `fs_sync`, bit 2 `hinfo_valid`, bits 15:8 `fs_parser`, the rest 0 (R82). -/
def fsStateWord (f : FsUnit) : Word :=
  toWord (bitNat f.bound + 2 * bitNat f.sync + 4 * bitNat f.hiValid + 256 * f.parser.toNat)

/-- `BR_STATE`: bit 0 `br_bound` (R82). -/
def brStateWord (r : BrUnit) : Word := toWord (bitNat r.cur.bound)

/-- `BW_STATE`: bit 0 `bw_bound`, bit 1 set while a bit is pending (R41, R82). -/
def bwStateWord (w : BwUnit) : Word := toWord (bitNat w.cur.bound + 2 * bitNat (!w.pending.isEmpty))

end Sys2Proof.Machine
end

