-- ==== Sys2Proof/Machine/HostPort.lean ====
section
/-!
DEFINITION. What the host and the platform do to the block: the register map and its accesses (spec/30_encoding.md R82, R83;
spec/20_memory.md R61), the command register (spec/10_state.md R21, spec/30_encoding.md R81), the arena window (R62), host
accesses to MEM (spec/70_reset_and_hazards.md R271, R272), and the reset event (R260 to R262).
-/
namespace Sys2Proof.Machine

/-! ### The register map -/

/-- REG: every register at its byte offset (R82). -/
def regMap : List (Nat × Reg) :=
  [(0x000, .cmd), (0x004, .status), (0x008, .arg0), (0x00C, .arg1), (0x010, .arg2), (0x014, .res0), (0x018, .res1),
    (0x040, .fsState), (0x044, .fsResult), (0x048, .fsInPtr), (0x04C, .fsInEnd), (0x050, .fsDebrisOff),
    (0x054, .fsDebrisLen), (0x058, .fsFrameOff), (0x05C, .fsFrameLen), (0x060, .fsCount), (0x064, .fsGen),
    (0x068, .fsFill), (0x06C, .fsCap), (0x070, .fsScanPos), (0x074, .fsLastLen), (0x078, .fsConsumed),
    (0x080, .fsHiFormat), (0x084, .fsHiChmask), (0x088, .fsHiSrate), (0x08C, .fsHiRelation), (0x090, .fsHiFrameSize),
    (0x094, .fsHiScanSize), (0x098, .fsHiNsamples), (0x09C, .fsHiSpdifType), (0x0A0, .fsHiBsType), (0x0B0, .fsH),
    (0x0B4, .fsFmin), (0x0B8, .fsFmax), (0x0C0, .brState), (0x0C4, .brBuf), (0x0C8, .brStart), (0x0CC, .brPos),
    (0x0D0, .brEnd), (0x0E0, .bwState), (0x0E4, .bwBuf), (0x0E8, .bwStart), (0x0EC, .bwPos), (0x0F0, .bwEnd)]

/-- The register at a byte offset of REG, if one is listed there (R82). -/
def regAt (off : Word) : Option Reg := mapGet regMap off.toNat

/-- An offset is one of an aligned 32-bit access (R61). -/
def alignedOffset (off : Word) : Bool := off.toNat % 4 == 0

/-- A field of `FS_HI_*`: 0 while `hinfo_valid` is 0 (R36). -/
def hiField (f : FsUnit) (field : HeaderInfo → Word) : Word := if f.hiValid then field f.hi else 0

/-- What a host read of a register returns (R82). `CMD` reads 0 (R21, R83). -/
def regValue (s : State) : Reg → Word
  | .cmd => 0
  | .status => statusWord s.status
  | .arg0 => s.arg0
  | .arg1 => s.arg1
  | .arg2 => s.arg2
  | .res0 => s.res0
  | .res1 => s.res1
  | .fsState => fsStateWord s.fs
  | .fsResult => toWord s.fs.result.code
  | .fsInPtr => s.fs.inPtr
  | .fsInEnd => s.fs.inEnd
  | .fsDebrisOff => s.fs.debris.off
  | .fsDebrisLen => s.fs.debris.len
  | .fsFrameOff => s.fs.frame.off
  | .fsFrameLen => s.fs.frame.len
  | .fsCount => s.fs.count
  | .fsGen => s.fs.gen
  | .fsFill => toWord s.fs.fill
  | .fsCap => s.fs.cap
  | .fsScanPos => s.fs.scanPos
  | .fsLastLen => s.fs.lastLen
  | .fsConsumed => s.fs.consumed
  | .fsHiFormat => hiField s.fs (·.format)
  | .fsHiChmask => hiField s.fs (·.chmask)
  | .fsHiSrate => hiField s.fs (·.srate)
  | .fsHiRelation => hiField s.fs (·.relation)
  | .fsHiFrameSize => hiField s.fs (·.frameSize)
  | .fsHiScanSize => hiField s.fs (·.scanSize)
  | .fsHiNsamples => hiField s.fs (·.nsamples)
  | .fsHiSpdifType => hiField s.fs (·.spdifType)
  | .fsHiBsType => hiField s.fs (·.bsType)
  | .fsH => s.fs.h
  | .fsFmin => s.fs.fmin
  | .fsFmax => s.fs.fmax
  | .brState => brStateWord s.br
  | .brBuf => s.br.cur.buf
  | .brStart => s.br.cur.start
  | .brPos => s.br.cur.pos
  | .brEnd => s.br.cur.stop
  | .bwState => bwStateWord s.bw
  | .bwBuf => s.bw.cur.buf
  | .bwStart => s.bw.cur.start
  | .bwPos => s.bw.cur.pos
  | .bwEnd => s.bw.cur.stop

/-- What a host read of REG returns: 0 at an offset that lists no register (R83). -/
def readReg (s : State) (off : Word) : Word :=
  match regAt off with
  | some r => regValue s r
  | none => 0

/-- A host write to a register other than `CMD`: `ARG0` to `ARG2`, `FS_IN_PTR` and `FS_IN_END` take the word; a write to
anything else is ignored (R83). -/
def writeReg (s : State) (off v : Word) : State :=
  match regAt off with
  | some .arg0 => { s with arg0 := v }
  | some .arg1 => { s with arg1 := v }
  | some .arg2 => { s with arg2 := v }
  | some .fsInPtr => { s with fs := { s.fs with inPtr := v } }
  | some .fsInEnd => { s with fs := { s.fs with inEnd := v } }
  | _ => s

/-! ### Commands -/

/-- The command of a word written to `CMD` (R21, R80): its meaning, or `ILLEGAL_COMMAND` for a word the decoder rejects
(R81, R86). `run` is the meaning of a command. -/
def runCommand (run : Instr → State → Result) (w : Word) (s : State) : Result :=
  match decode w with
  | .command i => run i s
  | .rejected _ => raise .illegalCommand s

/-! ### The arena window -/

/-- The state after a host read that returned `v`. -/
def answered (v : Word) (s : State) : State := { s with hostData := v }

/-- A host read of arena offset `i` (R62, I2): the byte below the fill level, any value up to the capacity, 0 above it. -/
def readArena (i : Word) (s : State) : State :=
  if i.toNat < s.fs.fill then answered ((s.fs.arena.getD i.toNat 0).setWidth 32) s
  else if i.toNat < s.fs.cap.toNat then drewFree (answered ((nextFreeByte s).setWidth 32) s)
  else answered 0 s

/-! ### The host at MEM -/

/-- A host read of the byte at `a` (R67): any value while the byte is pending (R271, I3). -/
def hostMemRead (a : Word) (s : State) : State :=
  if s.bw.isPending a.toNat then drewFree (answered ((nextFreeByte s).setWidth 32) s)
  else answered ((memByte s.mem a.toNat).setWidth 32) s

/-- A host write of the byte at `a`. While the byte is pending, it is left with any value, so that after the commit the
pending positions hold the put bits and the others are any value (R271, I4). The reader's cached word is not touched
(R272). -/
def hostMemWrite (a : Word) (b : Byte) (s : State) : State :=
  if s.bw.isPending a.toNat then drewFree { s with mem := memSet s.mem a.toNat (nextFreeByte s) }
  else { s with mem := memSet s.mem a.toNat b }

/-! ### Reset -/

/-- MEM and the count of free values after the bytes at `addrs` have each taken any value (R261, I5). -/
def scrambleBytes : List Nat → Memory → Nat → Memory × Nat
  | [], m, c => (m, c)
  | a :: rest, m, c => scrambleBytes rest (memSet m a (Config.freeByte c)) (c + 1)

/-- The state after the reset event: every field at its reset value (R260), the pending bits dropped and their bytes any
value, the rest of MEM as it was (R261, R262). The host's side is not the block's and stays. -/
def afterReset (s : State) : State :=
  let mc := scrambleBytes s.bw.pendingBytes s.mem s.freeCount
  { State.reset with mem := mc.1, freeCount := mc.2, bus := s.bus, hostData := s.hostData }

/-- The reset event (R260). -/
def resetEvent (s : State) : Result :=
  match s.bw.outside with
  | some a => .fault (.outsideMem a)
  | none => .next (afterReset s)

/-! ### One host action -/

/-- One action of the host or the platform. An access to REG that is not 32 bits wide or not aligned is left to the platform:
the write is ignored and the read returns any value (R61, I9). -/
def hostAct (run : Instr → State → Result) (a : HostAction) (s : State) : Result :=
  match a with
  | .regWrite off v =>
    if alignedOffset off = false then .next s
    else if regAt off = some .cmd then runCommand run v s
    else .next (writeReg s off v)
  | .regRead off =>
    if alignedOffset off = false then .next (drewFree (answered (nextFreeWord s) s))
    else .next (answered (readReg s off) s)
  | .regWriteOther _ _ _ => .next s
  | .regReadOther _ _ => .next (drewFree (answered (nextFreeWord s) s))
  | .arenaRead i => .next (readArena i s)
  | .arenaWrite _ _ => .next s
  | .memRead addr => .next (hostMemRead addr s)
  | .memWrite addr b => .next (hostMemWrite addr b s)
  | .reset => resetEvent s

/-- The state with its next host action `a` taken off the bus, `rest` still to come. -/
def takenFromBus (rest : List HostAction) (s : State) : State := { s with bus := rest }

/-- One step of the block: the next host action, or idle where there is none (R8, R252, R263). -/
def busStep (run : Instr → State → Result) (s : State) : Result :=
  match s.bus with
  | [] => .next s
  | a :: rest => hostAct run a (takenFromBus rest s)

/-- The state whose next host action writes the command word `w` to `CMD`. -/
def withCommandWord (w : Word) (s : State) : State := { s with bus := .regWrite 0 w :: s.bus }

end Sys2Proof.Machine
end

