-- ==== Sys2Proof/Machine/Step.lean ====
section
/-!
DEFINITION. One step of the machine: the next host action on the bus, a write to `CMD` running the command it encodes
(spec/00_scope.md R8).
-/
namespace Sys2Proof.Machine

/-- One step: the next host action, idle where there is none (R8, R252). -/
def step (s : State) : Host.Outcome State Fault Refusal := busStep exec s

/-- The command word whose `nbits` low bits are `w`'s, as the word the host writes to `CMD` next. -/
def State.withFetchWord (s : State) (nbits w : Nat) : State := withCommandWord (toWord (w % 2 ^ nbits)) s

end Sys2Proof.Machine
end

