-- ==== Sys2Proof/Machine/Assembly.lean ====
section
/-!
DEFINITION. The spec's assembly notation for commands (spec/30_encoding.md R88) and its pseudo-instructions as lists of host
actions (R89).
-/
namespace Sys2Proof.Machine

/-- A packing code as R88 writes it; codes 5 to 7 have no name and are written as numbers. -/
def packingText : Nat → String
  | 0 => "byte"
  | 1 => "16be"
  | 2 => "16le"
  | 3 => "14be"
  | 4 => "14le"
  | c => toString c

/-- The assembly line of a command (R88). -/
def asmText : Instr → String
  | .fsBind pidx => "fs.bind " ++ toString pidx
  | .fsUnbind => "fs.unbind"
  | .fsReset => "fs.reset"
  | .fsLoad => "fs.load"
  | .fsFlush => "fs.flush"
  | .conv f t => "conv " ++ packingText f ++ "," ++ packingText t
  | .convQuery f t => "conv.query " ++ packingText f ++ "," ++ packingText t
  | .brBind => "br.bind"
  | .brGet n => "br.get " ++ toString n
  | .brGets n => "br.gets " ++ toString n
  | .brGetb => "br.getb"
  | .brSeek => "br.seek"
  | .brUnbind => "br.unbind"
  | .bwBind => "bw.bind"
  | .bwPut n => "bw.put " ++ toString n
  | .bwPutb => "bw.putb"
  | .bwSeek => "bw.seek"
  | .bwFlush => "bw.flush"
  | .bwClose => "bw.close"

/-- A command line: the host writes the command's word to `CMD` (R88). -/
def command (i : Instr) : HostAction := .regWrite 0x000 (encode i)

/-- `wr ARG0, v` (R88). -/
def wrArg0 (v : Word) : HostAction := .regWrite 0x008 v

/-- `wr ARG1, v` (R88). -/
def wrArg1 (v : Word) : HostAction := .regWrite 0x00C v

/-- `wr ARG2, v` (R88). -/
def wrArg2 (v : Word) : HostAction := .regWrite 0x010 v

/-- `wr FS_IN_PTR, v` (R88). -/
def wrInPtr (v : Word) : HostAction := .regWrite 0x048 v

/-- `wr FS_IN_END, v` (R88). -/
def wrInEnd (v : Word) : HostAction := .regWrite 0x04C v

/-- `fs.feed a, e` (R89). -/
def fsFeed (a e : Word) : List HostAction := [wrInPtr a, wrInEnd e, command .fsLoad]

/-- `br.bind3 b, s, l` (R89). -/
def brBind3 (b s l : Word) : List HostAction := [wrArg0 b, wrArg1 s, wrArg2 l, command .brBind]

/-- `bw.bind3 b, s, l` (R89). -/
def bwBind3 (b s l : Word) : List HostAction := [wrArg0 b, wrArg1 s, wrArg2 l, command .bwBind]

/-- `bw.put2 n, v` (R89). -/
def bwPut2 (n : Nat) (v : Word) : List HostAction := [wrArg0 v, command (.bwPut n)]

/-- `conv3 F,T, src, len, dst` (R89). -/
def conv3 (f t : Nat) (src len dst : Word) : List HostAction :=
  [wrArg0 src, wrArg1 len, wrArg2 dst, command (.conv f t)]

/-- `br.seek1 p` (R89). -/
def brSeek1 (p : Word) : List HostAction := [wrArg0 p, command .brSeek]

/-- `bw.seek1 p` (R89). -/
def bwSeek1 (p : Word) : List HostAction := [wrArg0 p, command .bwSeek]

end Sys2Proof.Machine
end

