-- ==== Sys2Proof/Safety.lean ====
section
/-!
DEFINITION. What a good state is: the invariants the spec states of the FSB's registers (spec/10_state.md R25, R27, R30, R31, R32,
R36, R38, R40, R41), as one predicate that claims about steps use.
-/
namespace Sys2Proof.Machine

/-- A cursor (R38, R40): `start ≤ pos ≤ end`, the region's bytes inside MEM (R66, R121), and every field 0 while it is not
bound (R130, R148). -/
structure Cursor.Good (c : Cursor) : Prop where
  unbound : c.bound = false → c = Cursor.unbound
  start_le_pos : c.start.toNat ≤ c.pos.toNat
  pos_le_stop : c.pos.toNat ≤ c.stop.toNat
  inside : c.hi ≤ memSize

/-- The BitReader: a good cursor, and a cached word only while it is bound (R39, R130). -/
structure BrUnit.Good (r : BrUnit) : Prop where
  cur : r.cur.Good
  cached : r.wvalid = true → r.cur.bound = true

/-- The BitWriter: a good cursor, and a pending map in canonical form whose stream bits lie in the part of the region already
written (R41, R144). -/
structure BwUnit.Good (w : BwUnit) : Prop where
  cur : w.cur.Good
  pending_rising : rising w.pending = true
  pending_inside : ∀ kb ∈ w.pending, w.cur.start.toNat ≤ kb.1 ∧ kb.1 < w.cur.pos.toNat

/-- The sizes of a bound FS (R25, R31, R104) and its search position (R27). -/
structure FsUnit.SizesGood (f : FsUnit) : Prop where
  h_pos : 1 ≤ f.h.toNat
  fmax_pos : 1 ≤ f.fmax.toNat
  fmin_le : f.fmin.toNat ≤ f.fmax.toNat
  cap_eq : f.cap.toNat = 3 * f.fmax.toNat + f.h.toNat
  scan_lt : f.scanPos.toNat < f.fmax.toNat

/-- An FS with no parser bound: no sizes, nothing in progress (R24, R25, R191). -/
structure FsUnit.Unbound (f : FsUnit) : Prop where
  parser : f.parser = 0
  h : f.h = 0
  fmin : f.fmin = 0
  fmax : f.fmax = 0
  cap : f.cap = 0
  sync : f.sync = false
  scan : f.scanPos = 0

/-- The views and the result of the last output (R29, R32, R33): the output covers the first `consumed` bytes, the debris
first and the frame behind it. -/
structure FsUnit.ViewsGood (f : FsUnit) : Prop where
  consumed_le : f.consumed.toNat ≤ f.fill
  covers : f.consumed.toNat = f.debris.len.toNat + f.frame.len.toNat
  debris_off : f.debris.off = 0
  frame_off : f.frame.len ≠ 0 → f.frame.off = f.debris.len
  frame_empty : f.frame.len = 0 → f.frame = View.empty
  is_frame : f.result = .frame ↔ f.frame.len ≠ 0
  is_none : f.result = .noOutput ↔ f.consumed = 0

/-- The FrameSynchronizer (R23 to R36). -/
structure FsUnit.Good (f : FsUnit) : Prop where
  unbound : f.bound = false → f.Unbound
  sizes : f.bound = true → f.SizesGood
  fill_le : f.fill ≤ f.cap.toNat
  views : f.ViewsGood
  hi_cleared : f.hiValid = false → f.hi = noHeader
  sync_has_hi : f.sync = true → f.hiValid = true

/-- The invariant of the machine. -/
structure State.Inv (s : State) : Prop where
  mem : Memory.wf s.mem = true
  br : s.br.Good
  bw : s.bw.Good
  fs : s.fs.Good

/-- A bound FS holds the sizes of the descriptor its index names, and that descriptor was one that could be bound (R24, R25,
R104). -/
def FsUnit.Latched (P : Platform) (f : FsUnit) : Prop :=
  f.bound = true →
    f.parser.toNat < P.np ∧ bindable P (P.parsers f.parser.toNat) = true ∧
      f.h.toNat = (P.parsers f.parser.toNat).headerSize ∧ f.fmin.toNat = (P.parsers f.parser.toNat).minFrameSize ∧
      f.fmax.toNat = (P.parsers f.parser.toNat).maxFrameSize

/-- The reader's cache agrees with MEM: no hazard of R272 is pending. -/
def State.CacheFresh (s : State) : Prop := s.br.wvalid = true → s.br.word = wordAt s.mem s.br.cur s.br.widx.toNat

/-- A get of `n` bits must load the byte at `a` (R124): it lies in the region and in a word that holds a bit of the field and is
not the cached one. -/
def State.Loads (s : State) (n a : Nat) : Prop :=
  ∃ k, s.br.cur.pos.toNat ≤ k ∧ k < s.br.cur.pos.toNat + n ∧
    ¬(s.br.wvalid = true ∧ s.br.widx.toNat = s.br.cur.widxOf k) ∧
      s.br.cur.base + 4 * s.br.cur.widxOf k ≤ a ∧ a < s.br.cur.base + 4 * s.br.cur.widxOf k + 4 ∧
        s.br.cur.lo ≤ a ∧ a < s.br.cur.hi

/-! ### The terms claims use -/

/-- Stream bit `k` of the buffer at `buf`, straight from MEM (R12): bit `7 - (k mod 8)` of byte `buf + floor(k/8)`. -/
def streamBit (m : Memory) (buf k : Nat) : Bool := (memByte m (buf + k / 8)).getLsbD (7 - k % 8)

/-- The field of `n` stream bits from `k`, the first most significant (R12). -/
def streamField (m : Memory) (buf k : Nat) : Nat → Nat
  | 0 => 0
  | n + 1 => 2 * streamField m buf k n + (streamBit m buf (k + n)).toNat

/-- The field of `n` stream bits from `k` as the cursor word `w` holds it, each bit at its place in the word (R122, R123). -/
def wordField (w : Word) (c : Cursor) (k : Nat) : Nat → Nat
  | 0 => 0
  | n + 1 => 2 * wordField w c k n + (w.getLsbD (c.wbitOf (k + n))).toNat

/-- Stream bit `k` as a get from the present position meets it: in the cached word where the get begins in that word and `k`
stands in it too (R123, R272), and in MEM elsewhere, in a word read fresh (R125). -/
def State.readerBit (s : State) (k : Nat) : Bool :=
  if s.br.wvalid = true ∧ s.br.widx.toNat = s.br.cur.widxOf s.br.cur.pos.toNat ∧ s.br.widx.toNat = s.br.cur.widxOf k then
    s.br.word.getLsbD (s.br.cur.wbitOf k)
  else streamBit s.mem s.br.cur.buf.toNat k

/-- The next `n` stream bits as a get meets them, the first most significant (R126). -/
def State.readerField (s : State) : Nat → Nat
  | 0 => 0
  | n + 1 => 2 * s.readerField n + (s.readerBit (s.br.cur.pos.toNat + n)).toNat

/-- An `n`-bit field read as a two's-complement number (R127): bit `n-1` is the sign, and no bits are 0. -/
def signedValue (n v : Nat) : Int := if n = 0 then 0 else if v < 2 ^ (n - 1) then v else (v : Int) - 2 ^ n

/-- The codes a command can end with (R240, the column "raised by"; `OK` for every command). -/
def codesOf : Instr → List Status
  | .fsBind _ => [.ok, .badParserParams]
  | .fsUnbind => [.ok, .notBound]
  | .fsReset => [.ok]
  | .fsLoad => [.ok, .needInput, .unflushedWriter, .notBound, .addressRange]
  | .fsFlush => [.ok, .notBound]
  | .conv _ _ => [.ok, .unflushedWriter, .unsupportedConversion, .badLength, .overlap, .addressRange]
  | .convQuery _ _ => [.ok, .unsupportedConversion, .badLength]
  | .brBind => [.ok, .addressRange]
  | .brGet _ => [.ok, .outOfRangeBitAccess, .unflushedWriter, .notBound]
  | .brGets _ => [.ok, .outOfRangeBitAccess, .unflushedWriter, .notBound]
  | .brGetb => [.ok, .outOfRangeBitAccess, .unflushedWriter, .notBound]
  | .brSeek => [.ok, .outOfRangeBitAccess, .notBound]
  | .brUnbind => [.ok, .notBound]
  | .bwBind => [.ok, .addressRange]
  | .bwPut _ => [.ok, .outOfRangeBitAccess, .notBound, .illegalValue]
  | .bwPutb => [.ok, .outOfRangeBitAccess, .notBound]
  | .bwSeek => [.ok, .outOfRangeBitAccess, .notBound]
  | .bwFlush => [.ok, .notBound]
  | .bwClose => [.ok, .notBound]

/-- The commands of the FrameSynchronizer (R85). -/
def isFsCommand : Instr → Bool
  | .fsBind _ => true
  | .fsUnbind => true
  | .fsReset => true
  | .fsLoad => true
  | .fsFlush => true
  | _ => false

/-- The commands that clear the frame counter (R34). -/
def clearsCounter : Instr → Bool
  | .fsBind _ => true
  | .fsUnbind => true
  | .fsReset => true
  | _ => false

/-- The BitReader's commands (R85). -/
def isBrCommand : Instr → Bool
  | .brBind => true
  | .brGet _ => true
  | .brGets _ => true
  | .brGetb => true
  | .brSeek => true
  | .brUnbind => true
  | _ => false

/-- The BitWriter's commands that write no MEM byte (R141). -/
def isPutCommand : Instr → Bool
  | .bwPut _ => true
  | .bwPutb => true
  | _ => false

/-- The BitWriter's commands that commit (R74). -/
def isCommitCommand : Instr → Bool
  | .bwBind => true
  | .bwSeek => true
  | .bwFlush => true
  | .bwClose => true
  | _ => false

/-- The command the next step runs: the word the host writes to `CMD` next, where it decodes to one (R21). -/
def State.nextCommand (s : State) : Option Instr :=
  match s.bus with
  | .regWrite off w :: _ =>
    if off = 0 then
      match decode w with
      | .command i => some i
      | .rejected _ => none
    else none
  | _ => none

/-- Candidate 3 at `r` agrees with candidates 1 and 2 (R200): it is buffered, valid and compares with both their headers. -/
def ThirdAgrees (D : ParserDescriptor) (f : FsUnit) (h1 h2 : HeaderInfo) (r : Nat) : Prop :=
  r + f.h.toNat ≤ f.fill ∧ ∃ h3, validAt D f r = some h3 ∧ D.compare h1 h3 = true ∧ D.compare h2 h3 = true

/-- Candidate 3 at `r` fails (R200): what is buffered shows that it is not valid or does not compare with both headers. -/
def ThirdFails (D : ParserDescriptor) (f : FsUnit) (h1 h2 : HeaderInfo) (r : Nat) : Prop :=
  r + f.h.toNat ≤ f.fill ∧ ∀ h3, validAt D f r = some h3 → ¬(D.compare h1 h3 = true ∧ D.compare h2 h3 = true)

/-- `x` is reached in the list `l`: every offset before it meets `P`. -/
def ReachedIn (l : List Nat) (P : Nat → Prop) (x : Nat) : Prop := ∃ pre post, l = pre ++ x :: post ∧ ∀ y ∈ pre, P y

/-- Candidate 2 at `q` confirms a candidate 1 at `p` with header `h1` (R200): it is buffered, valid and compares with `h1`, and
some candidate 3 agrees, all those tried before it in the order of `Win3` (R198) having failed. -/
def Confirms (D : ParserDescriptor) (f : FsUnit) (p : Nat) (h1 : HeaderInfo) (q : Nat) : Prop :=
  q + f.h.toNat ≤ f.fill ∧ ∃ h2, validAt D f q = some h2 ∧ D.compare h1 h2 = true ∧
    ∃ r, ReachedIn (win3 f p q h2) (ThirdFails D f h1 h2) r ∧ ThirdAgrees D f h1 h2 r

/-- Candidate 2 at `q` waits for input (R200, R203): its own probe is not buffered, or it is valid and compares with `h1` and
the first candidate 3, in the order of `Win3`, that has not failed is not buffered. -/
def Awaits (D : ParserDescriptor) (f : FsUnit) (p : Nat) (h1 : HeaderInfo) (q : Nat) : Prop :=
  f.fill < q + f.h.toNat ∨ ∃ h2, validAt D f q = some h2 ∧ D.compare h1 h2 = true ∧
    ∃ r, ReachedIn (win3 f p q h2) (ThirdFails D f h1 h2) r ∧ f.fill < r + f.h.toNat

/-- Candidate 2 at `q` is ruled out for a candidate 1 with header `h1` (R200): what is buffered shows that it is not valid, does
not compare with `h1`, or has no candidate 3 in its window. -/
def RulesOut (D : ParserDescriptor) (f : FsUnit) (h1 : HeaderInfo) (q : Nat) : Prop :=
  q + f.h.toNat ≤ f.fill ∧
    ∀ h2, validAt D f q = some h2 → D.compare h1 h2 = true → ∀ r ∈ win f q h2, ThirdFails D f h1 h2 r

/-- Candidate 1 at `p` has failed (R207): its probe is buffered and not valid, or its search finds nothing. -/
def CandidateFails (D : ParserDescriptor) (f : FsUnit) (p : Nat) : Prop :=
  p + f.h.toNat ≤ f.fill ∧ ∀ h1, validAt D f p = some h1 → search23 D f p h1 = .fail

/-- The header behind a free-format frame stands at `j` (R210): it is buffered, valid and compares with the frame's own. -/
def NextHeaderAt (D : ParserDescriptor) (f : FsUnit) (h : HeaderInfo) (j : Nat) : Prop :=
  j + f.h.toNat ≤ f.fill ∧ ∃ h', validAt D f j = some h' ∧ D.compare h h' = true

/-- No header behind a free-format frame stands at `j` (R210), and the bytes that show it are buffered. -/
def NoHeaderAt (D : ParserDescriptor) (f : FsUnit) (h : HeaderInfo) (j : Nat) : Prop :=
  j + f.h.toNat ≤ f.fill ∧ ∀ h', validAt D f j = some h' → D.compare h h' = false

/-- `x` is tried before `j` (R210): `last_len` before every other offset, and otherwise the smaller one first. -/
def TriedBefore (f : FsUnit) (x j : Nat) : Prop := x ≠ j ∧ (x = f.lastLen.toNat ∨ (j ≠ f.lastLen.toNat ∧ x < j))

/-- The 16-bit word `j` of a byte list, high byte first (R161). -/
def wordBe (bs : List Byte) (j : Nat) : Nat := (bs.getD (2 * j) 0).toNat * 256 + (bs.getD (2 * j + 1) 0).toNat

/-- The 16-bit word `j` of a byte list, low byte first (R161). -/
def wordLe (bs : List Byte) (j : Nat) : Nat := (bs.getD (2 * j + 1) 0).toNat * 256 + (bs.getD (2 * j) 0).toNat

/-- The unit with `bs` buffered behind what its arena holds. -/
def FsUnit.more (f : FsUnit) (bs : List Byte) : FsUnit := { f with arena := f.arena ++ bs }

/-- The puts of a list of fields, each a width and a value the host writes to `ARG0` first; nothing if one does not end with
`OK`. -/
def putAll : List (Nat × Word) → State → Option State
  | [], s => some s
  | (n, v) :: rest, s =>
    match exec (.bwPut n) { s with arg0 := v } with
    | .next t => if t.status = .ok then putAll rest t else none
    | _ => none

/-- What `RES0` holds after each of a list of gets, made by `get` from a width; nothing if one does not end with `OK`. -/
def getAll (get : Nat → Instr) : List Nat → State → Option (List Word)
  | [], _ => some []
  | n :: rest, s =>
    match exec (get n) s with
    | .next t => if t.status = .ok then (getAll get rest t).map (t.res0 :: ·) else none
    | _ => none

/-- The host writes `ARG0` to `ARG2`. -/
def withArgs (a b c : Word) (s : State) : State := { s with arg0 := a, arg1 := b, arg2 := c }

/-- A step from `s` goes on: it neither faults nor is refused. -/
def State.Steps (s : State) : Prop := ∃ t, step s = .next t

end Sys2Proof.Machine
end

