-- ==== Sys2Proof/Certificates/Slice0/Obligations.lean ====
section
/-!
DEFINITION. The statements for the provers. Each docstring names the rules of spec/ it rests on; OBLIGATIONS.json lists them.
-/

open Sys2Proof Sys2Proof.Machine

/-! ### Encoding -/

/-- R80, R81, R84, R85: the word of every well-formed command decodes to it, every immediate at every value. -/
def Obligations.EncodedCommandDecodes : Prop :=
  ∀ i : Instr, i.wf = true → decode (encode i) = .command i

/-- R80, R81, R87: a word that decodes carries no bit but the command's own. -/
def Obligations.DecodedWordIsTheEncoding : Prop :=
  ∀ (w : Word) (i : Instr), decode w = .command i → i.wf = true ∧ encode i = w

/-- R87: the decoder takes a word exactly where it fits a match/mask row of the opcode map, and no word fits two rows. -/
def Obligations.WordIsValidIffOneRowFits : Prop :=
  ∀ w : Word,
    ((∃ i, decode w = .command i) ↔ ∃ r ∈ opcodeRows, r.fits w = true) ∧
      ∀ r ∈ opcodeRows, ∀ r' ∈ opcodeRows, r.fits w = true → r'.fits w = true → r = r'

/-- R80, R85, L2-E of 95_test_vectors.md: words written out from the encoding table decode to the commands they stand for. -/
def Obligations.WrittenOutWordsDecode : Prop :=
  decode 0x00000501#32 = .command (.fsBind 5) ∧ decode 0x00000004#32 = .command .fsLoad ∧
    decode 0x00180010#32 = .command (.conv 0 3) ∧ decode 0x00030010#32 = .command (.conv 3 0) ∧
      decode 0x00001021#32 = .command (.brGet 16) ∧ decode 0x00000331#32 = .command (.bwPut 3) ∧
        decode 0x00000104#32 = .rejected (.unusedFieldNotZero 4) ∧ decode 0x00000006#32 = .rejected (.unknownOpcode 6)

/-! ### The step -/

/-- R8, R21: (the bus of host actions is the model's own, log entry 1) when the host writes a word to `CMD` that decodes to a
command, the step takes the write off the bus and runs that command. -/
def Obligations.StepRunsTheDecodedCommand : Prop :=
  ∀ (s : State) (w : Word) (i : Instr) (rest : List HostAction),
    s.bus = .regWrite 0 w :: rest → decode w = .command i → step s = exec i { s with bus := rest }

/-- R8, R80: (the bus of host actions is the model's own, log entry 1) a well-formed command placed as the next fetch is the
one the step runs. -/
def Obligations.PlacedCommandIsTheOneThatRuns : Prop :=
  ∀ (s : State) (i : Instr), i.wf = true → step (s.withFetchWord 32 (encode i).toNat) = exec i s

/-- R81, R86: (the bus of host actions is the model's own, log entry 1) a word written to `CMD` that fits no row raises
`ILLEGAL_COMMAND` and changes nothing but `STATUS`. -/
def Obligations.UnfittingWordIsIllegal : Prop :=
  ∀ (s : State) (w : Word) (rest : List HostAction),
    s.bus = .regWrite 0 w :: rest → (∀ r ∈ opcodeRows, r.fits w = false) →
      step s = .next { s with bus := rest, status := .illegalCommand }

/-- R242: a command that ends with a code other than `OK` or `NEED_INPUT` writes `STATUS` and nothing else. -/
def Obligations.FailingCommandWritesStatusOnly : Prop :=
  ∀ (i : Instr) (s t : State), exec i s = .next t → t.status.isFailure = true → t = { s with status := t.status }

/-- R240: every command ends with one of the codes the table lists for it. -/
def Obligations.CommandEndsWithItsOwnCodes : Prop :=
  ∀ (i : Instr) (s t : State), exec i s = .next t → t.status ∈ codesOf i

/-- R240, R243: a command of a unit with no binding raises `NOT_BOUND`, before anything else is looked at, and writes
`STATUS` only. -/
def Obligations.UnboundUnitRaisesNotBound : Prop :=
  ∀ (s : State) (n : Nat),
    (s.fs.bound = false → ∀ i ∈ [Instr.fsUnbind, .fsLoad, .fsFlush], exec i s = .next { s with status := .notBound }) ∧
      (s.br.cur.bound = false → ∀ i ∈ [Instr.brGet n, .brGets n, .brGetb, .brSeek, .brUnbind],
        exec i s = .next { s with status := .notBound }) ∧
        (s.bw.cur.bound = false → ∀ i ∈ [Instr.bwPut n, .bwPutb, .bwSeek, .bwFlush, .bwClose],
          exec i s = .next { s with status := .notBound })

/-! ### Invariants -/

/-- R44, R260: the state after reset is a good one. -/
def Obligations.ResetStateIsGood : Prop := State.reset.Inv

/-- R27, R30, R31, R32, R36, R38, R40, R41: every step from a good state that goes on leaves a good state. -/
def Obligations.EveryStepKeepsGoodStates : Prop :=
  ∀ s t : State, s.Inv → step s = .next t → t.Inv

/-- R253, R143: from a good state the block always goes on: no command, host action or reset stops it. -/
def Obligations.GoodStateAlwaysGoesOn : Prop :=
  ∀ s : State, s.Inv → s.Steps ∧ ∀ i : Instr, ∃ t, exec i s = .next t

/-- R25, R104: a bind on any platform latches the sizes of a descriptor that can be bound, and the sizes of a bound FS stay
those of the descriptor its index names. -/
def Obligations.BoundSizesStayTheParsers : Prop :=
  (∀ (P : Platform) (pidx : Nat) (s t : State),
    fsBindOn P pidx s = .next t → t.status = .ok → t.fs.bound = true ∧ t.fs.Latched P) ∧
    ∀ s t : State, s.fs.Latched Config.platform → step s = .next t → t.fs.Latched Config.platform

/-! ### Reset and the host -/

/-- R260, R261, R262: the reset event puts every field of the block at its reset value and leaves every MEM byte that was not
pending as it was. That the reset event comes from `bus` is the model's form (log entry 1), and that the host's side (`bus`,
`hostData`) stays is its choice (log entry 6). -/
def Obligations.ResetEventRestoresResetValues : Prop :=
  ∀ (s : State) (rest : List HostAction),
    s.Inv → s.bus = .reset :: rest →
      ∃ t, step s = .next t ∧
        t = { State.reset with mem := t.mem, bus := rest, hostData := s.hostData, freeCount := t.freeCount } ∧
          ∀ a, s.bw.isPending a = false → memByte t.mem a = memByte s.mem a

/-- R44, R82, L2-I of 95_test_vectors.md: after reset every register holds 0, every field of the FS, the BitReader and the
BitWriter the reset value of its rule, and a host read of any offset of REG returns 0. The model's choices: MEM lists nothing
(log entry 3), its own fields are empty or 0 (log entry 11), and the read comes from `bus` (log entry 1). -/
def Obligations.RegistersReadZeroAfterReset : Prop :=
  (∀ r : Reg, regValue State.reset r = 0) ∧
    (∀ (off v : Word) (rest : List HostAction), off.toNat % 4 = 0 →
      step { State.reset with bus := .regRead off :: rest, hostData := v } =
        .next { State.reset with bus := rest, hostData := 0 }) ∧
      FsUnit.reset =
        { bound := false, parser := 0, h := 0, fmin := 0, fmax := 0, cap := 0, sync := false, scanPos := 0, lastLen := 0
          consumed := 0, arena := [], debris := ⟨0, 0⟩, frame := ⟨0, 0⟩, result := .noOutput, count := 0, gen := 0
          hi :=
            { format := 0, chmask := 0, srate := 0, relation := 0, frameSize := 0, scanSize := 0, nsamples := 0
              spdifType := 0, bsType := 0 }
          hiValid := false, inPtr := 0, inEnd := 0 } ∧
        State.reset =
          { status := .ok, arg0 := 0, arg1 := 0, arg2 := 0, res0 := 0, res1 := 0, fs := FsUnit.reset
            br :=
              { cur := { bound := false, buf := 0, start := 0, pos := 0, stop := 0 }, wvalid := false, widx := 0, word := 0 }
            bw := { cur := { bound := false, buf := 0, start := 0, pos := 0, stop := 0 }, pending := [] }
            mem := [], bus := [], hostData := 0, freeCount := 0 }

/-- R22, R61, R83, R252, R263 (I9): a host write reaches `ARG0` to `ARG2`, `FS_IN_PTR` and `FS_IN_END`, and is ignored at every other offset but
`CMD`'s. A write that is not aligned or of another width (R61, I9) changes nothing, and a step with no action of the host is
idle and holds the whole state (R22, R252, R263). The model's choices: the host's access comes from `bus` (log entry 1), and
the platform ignores the writes R61 leaves to it (log entry 8). -/
def Obligations.HostWritesReachFiveRegisters : Prop :=
  (∀ (s : State) (off v : Word) (rest : List HostAction),
    s.bus = .regWrite off v :: rest → off.toNat % 4 = 0 → off ≠ 0 →
      step s =
        .next
          (if off = 0x008 then { s with bus := rest, arg0 := v }
          else if off = 0x00C then { s with bus := rest, arg1 := v }
          else if off = 0x010 then { s with bus := rest, arg2 := v }
          else if off = 0x048 then { s with bus := rest, fs := { s.fs with inPtr := v } }
          else if off = 0x04C then { s with bus := rest, fs := { s.fs with inEnd := v } }
          else { s with bus := rest })) ∧
    (∀ (s : State) (off v : Word) (rest : List HostAction),
      s.bus = .regWrite off v :: rest → off.toNat % 4 ≠ 0 → step s = .next { s with bus := rest }) ∧
      (∀ (s : State) (off : Word) (width v : Nat) (rest : List HostAction),
        s.bus = .regWriteOther off width v :: rest → step s = .next { s with bus := rest }) ∧
        ∀ s : State, s.bus = [] → step s = .next s

/-- R22, R30, R33, R36, R41, R61, R82, R83, R240 (I9): what a host read of REG returns at every offset: the code of the last outcome in
`STATUS`, the bits of `FS_STATE`, `BR_STATE` and `BW_STATE` at their places, the code of `FS_RESULT`, the fill level, `FS_HI_*`
as 0 while no header is confirmed, every other register's own value, and 0 for `CMD` and where none is listed. The read
changes nothing of the block. A read that is not aligned or of another width (R61, I9) returns any value and changes nothing of
the block either. The model's choices: the host's access comes from `bus` and its answer goes to `hostData` (log entries 1 and
11), and the any value is a free one that advances `freeCount` (log entry 8). -/
def Obligations.HostReadsTheListedRegister : Prop :=
  (∀ (s : State) (off : Word) (rest : List HostAction),
    let bit := BitVec.ofBool
    let confirmed := fun (v : Word) => if s.fs.hiValid = true then v else 0
    let code : Word :=
      if s.status = .ok then 0 else if s.status = .needInput then 1 else if s.status = .outOfRangeBitAccess then 2
      else if s.status = .unflushedWriter then 3 else if s.status = .unsupportedConversion then 4
      else if s.status = .badLength then 5 else if s.status = .overlap then 6 else if s.status = .notBound then 7
      else if s.status = .illegalCommand then 8 else if s.status = .illegalValue then 9
      else if s.status = .badParserParams then 10 else 11
    s.bus = .regRead off :: rest → off.toNat % 4 = 0 →
      step s =
        .next
          { s with
            bus := rest
            hostData :=
              if off = 0x004 then code
              else if off = 0x008 then s.arg0
              else if off = 0x00C then s.arg1
              else if off = 0x010 then s.arg2
              else if off = 0x014 then s.res0
              else if off = 0x018 then s.res1
              else if off = 0x040 then 0#16 ++ s.fs.parser ++ 0#5 ++ bit s.fs.hiValid ++ bit s.fs.sync ++ bit s.fs.bound
              else if off = 0x044 then (if s.fs.result = .noOutput then 0 else if s.fs.result = .frame then 1 else 2)
              else if off = 0x048 then s.fs.inPtr
              else if off = 0x04C then s.fs.inEnd
              else if off = 0x050 then s.fs.debris.off
              else if off = 0x054 then s.fs.debris.len
              else if off = 0x058 then s.fs.frame.off
              else if off = 0x05C then s.fs.frame.len
              else if off = 0x060 then s.fs.count
              else if off = 0x064 then s.fs.gen
              else if off = 0x068 then BitVec.ofNat 32 s.fs.arena.length
              else if off = 0x06C then s.fs.cap
              else if off = 0x070 then s.fs.scanPos
              else if off = 0x074 then s.fs.lastLen
              else if off = 0x078 then s.fs.consumed
              else if off = 0x080 then confirmed s.fs.hi.format
              else if off = 0x084 then confirmed s.fs.hi.chmask
              else if off = 0x088 then confirmed s.fs.hi.srate
              else if off = 0x08C then confirmed s.fs.hi.relation
              else if off = 0x090 then confirmed s.fs.hi.frameSize
              else if off = 0x094 then confirmed s.fs.hi.scanSize
              else if off = 0x098 then confirmed s.fs.hi.nsamples
              else if off = 0x09C then confirmed s.fs.hi.spdifType
              else if off = 0x0A0 then confirmed s.fs.hi.bsType
              else if off = 0x0B0 then s.fs.h
              else if off = 0x0B4 then s.fs.fmin
              else if off = 0x0B8 then s.fs.fmax
              else if off = 0x0C0 then 0#31 ++ bit s.br.cur.bound
              else if off = 0x0C4 then s.br.cur.buf
              else if off = 0x0C8 then s.br.cur.start
              else if off = 0x0CC then s.br.cur.pos
              else if off = 0x0D0 then s.br.cur.stop
              else if off = 0x0E0 then 0#30 ++ bit (decide (s.bw.pending ≠ [])) ++ bit s.bw.cur.bound
              else if off = 0x0E4 then s.bw.cur.buf
              else if off = 0x0E8 then s.bw.cur.start
              else if off = 0x0EC then s.bw.cur.pos
              else if off = 0x0F0 then s.bw.cur.stop
              else 0 }) ∧
    ∀ (s : State) (off : Word) (width : Nat) (rest : List HostAction),
      (s.bus = .regRead off :: rest ∧ off.toNat % 4 ≠ 0) ∨ s.bus = .regReadOther off width :: rest →
        ∃ t, step s = .next t ∧ t = { s with bus := rest, hostData := t.hostData, freeCount := s.freeCount + 1 }

/-- R62: a host read of the arena returns the byte below the fill level, 0 from the capacity up, any value between, and
changes nothing of the block; host writes to the arena are ignored. The model's choices: the access comes from `bus` (log
entry 1), the value between is a free one that advances `freeCount` (log entry 4), and `hostData` takes a byte zero-extended
(log entry 13). -/
def Obligations.ArenaWindowShowsTheBufferedBytes : Prop :=
  (∀ (s : State) (i : Word) (rest : List HostAction),
    s.bus = .arenaRead i :: rest →
      (∀ b, s.fs.arena[i.toNat]? = some b → step s = .next { s with bus := rest, hostData := b.setWidth 32 }) ∧
        (s.fs.fill ≤ i.toNat → s.fs.cap.toNat ≤ i.toNat → step s = .next { s with bus := rest, hostData := 0 }) ∧
          (s.fs.fill ≤ i.toNat → i.toNat < s.fs.cap.toNat →
            ∃ t, step s = .next t ∧ t = { s with bus := rest, hostData := t.hostData, freeCount := s.freeCount + 1 })) ∧
    ∀ (s : State) (i : Word) (b : Byte) (rest : List HostAction),
      s.bus = .arenaWrite i b :: rest → step s = .next { s with bus := rest }

/-- R67, R271 (I3, I4): a host read of a MEM byte returns it and a host write changes that byte only; while the byte is
pending, a read returns any byte, and after a write and the commit that covers it the pending positions hold the put bits and
no byte of MEM has changed but the pending ones. The model's choices: `bus` and the byte accesses (log entries 1 and 13), the
free values (log entries 4 and 5). -/
def Obligations.PutBitsSurviveAHostWrite : Prop :=
  ∀ (s : State) (a : Word) (b : Byte) (rest : List HostAction),
    (s.bus = .memRead a :: rest → s.bw.isPending a.toNat = false →
      step s = .next { s with bus := rest, hostData := (memByte s.mem a.toNat).setWidth 32 }) ∧
      (s.bus = .memRead a :: rest → s.bw.isPending a.toNat = true →
        ∃ t, step s = .next t ∧ t = { s with bus := rest, hostData := t.hostData, freeCount := s.freeCount + 1 } ∧
          t.hostData.toNat < 256) ∧
        (s.bus = .memWrite a b :: rest → s.bw.isPending a.toNat = false →
          ∃ t, step s = .next t ∧ t = { s with bus := rest, mem := t.mem } ∧ memByte t.mem a.toNat = b ∧
            ∀ x, x ≠ a.toNat → memByte t.mem x = memByte s.mem x) ∧
          (s.Inv → s.bus = .memWrite a b :: rest → s.bw.isPending a.toNat = true →
            ∃ t u, step s = .next t ∧ t = { s with bus := rest, mem := t.mem, freeCount := s.freeCount + 1 } ∧
              exec .bwFlush t = .next u ∧ u.status = .ok ∧
                (∀ k v, (k, v) ∈ s.bw.pending → streamBit u.mem s.bw.cur.buf.toNat k = v) ∧
                  ∀ x, s.bw.isPending x = false → memByte u.mem x = memByte s.mem x)

/-! ### The FrameSynchronizer's commands -/

/-- R190, R104: FS_BIND binds a descriptor whose index and sizes are in range, with an empty stream and counter, and raises
`BAD_PARSER_PARAMS` otherwise. -/
def Obligations.FsBindBindsOrRefuses : Prop :=
  ∀ (pidx : Nat) (s : State),
    let D := Config.platform.parsers pidx
    exec (.fsBind pidx) s =
      .next
        (if pidx < Config.platform.np ∧ 1 ≤ D.headerSize ∧ 1 ≤ D.maxFrameSize ∧ D.minFrameSize ≤ D.maxFrameSize ∧
            3 * D.maxFrameSize + D.headerSize ≤ Config.platform.arenaMax ∧ 3 * D.maxFrameSize + D.headerSize < 2 ^ 32 then
          { s with
            status := .ok
            fs :=
              { FsUnit.reset with
                bound := true, parser := BitVec.ofNat 8 pidx, h := toWord D.headerSize, fmin := toWord D.minFrameSize
                fmax := toWord D.maxFrameSize, cap := toWord (3 * D.maxFrameSize + D.headerSize), gen := s.fs.gen + 1
                inPtr := s.fs.inPtr, inEnd := s.fs.inEnd } }
        else { s with status := .badParserParams })

/-- R191: FS_UNBIND releases the parser and the arena of a bound FS, and raises `NOT_BOUND` otherwise. -/
def Obligations.FsUnbindReleasesTheParser : Prop :=
  ∀ s : State,
    exec .fsUnbind s =
      .next
        (if s.fs.bound = true then
          { s with
            status := .ok
            fs := { FsUnit.reset with gen := s.fs.gen + 1, inPtr := s.fs.inPtr, inEnd := s.fs.inEnd } }
        else { s with status := .notBound })

/-- R192, R195: FS_RESET empties the stream and the counter, bound or not, and keeps the binding and the input cursor. -/
def Obligations.FsResetKeepsTheBinding : Prop :=
  ∀ s : State,
    exec .fsReset s =
      .next
        { s with
          status := .ok
          fs :=
            { FsUnit.reset with
              bound := s.fs.bound, parser := s.fs.parser, h := s.fs.h, fmin := s.fs.fmin, fmax := s.fs.fmax
              cap := s.fs.cap, gen := s.fs.gen + 1, inPtr := s.fs.inPtr, inEnd := s.fs.inEnd } }

/-- R194, R205: FS_FLUSH drops the last output and hands out everything left as one debris, keeping the counter; it raises
`NOT_BOUND` with no parser bound. -/
def Obligations.FsFlushEmitsWhatIsLeft : Prop :=
  ∀ s : State,
    let left := s.fs.arena.drop s.fs.consumed.toNat
    exec .fsFlush s =
      .next
        (if s.fs.bound = true then
          { s with
            status := .ok
            fs :=
              { s.fs with
                arena := left
                debris := if left = [] then ⟨0, 0⟩ else ⟨0, toWord left.length⟩
                frame := ⟨0, 0⟩
                result := if left = [] then .noOutput else .debris
                consumed := if left = [] then 0 else toWord left.length
                sync := false, scanPos := 0, lastLen := 0, hiValid := false, hi := ⟨0, 0, 0, 0, 0, 0, 0, 0, 0⟩
                gen := s.fs.gen + 1 } }
        else { s with status := .notBound })

/-- R193, R203, R205, R206: FS_LOAD, once its checks pass, drops the last output, takes as many input bytes as fit and makes
one step of the bound parser's search on what is then buffered; it ends with `OK` and an output or with `NEED_INPUT` and
none, and changes nothing outside the FS. -/
def Obligations.FsLoadTakesInputAndEnds : Prop :=
  ∀ s : State, s.fs.bound = true → s.fs.inPtr.toNat ≤ s.fs.inEnd.toNat →
    (∀ a, s.fs.inPtr.toNat ≤ a → a < s.fs.inEnd.toNat → s.bw.isPending a = false) →
      let kept := s.fs.arena.drop s.fs.consumed.toNat
      let k := min (s.fs.cap.toNat - kept.length) (s.fs.inEnd.toNat - s.fs.inPtr.toNat)
      let toppedUp :=
        { s.fs with
          arena := kept ++ (List.range k).map fun i => memByte s.mem (s.fs.inPtr.toNat + i)
          inPtr := s.fs.inPtr + toWord k, consumed := 0, debris := ⟨0, 0⟩, frame := ⟨0, 0⟩ }
      ∃ t, exec .fsLoad s = .next t ∧ t = { s with fs := t.fs, status := t.status } ∧
        t.fs.arena = toppedUp.arena ∧ t.fs.inPtr = toppedUp.inPtr ∧ t.fs.inEnd = s.fs.inEnd ∧
          ((t.status = .ok ∧ t.fs.result ≠ .noOutput ∧
              ∃ g, fsStep (Config.platform.parsers s.fs.parser.toNat) toppedUp = .done g ∧
                t.fs = { g with gen := s.fs.gen + 1 }) ∨
            (t.status = .needInput ∧ t.fs.debris = ⟨0, 0⟩ ∧ t.fs.frame = ⟨0, 0⟩ ∧ t.fs.consumed = 0 ∧
              t.fs.count = s.fs.count ∧ t.fs.hi = s.fs.hi ∧ t.fs.hiValid = s.fs.hiValid ∧
                ∃ g, fsStep (Config.platform.parsers s.fs.parser.toNat) toppedUp = .need g ∧
                  t.fs = { g with result := .noOutput, gen := s.fs.gen + 1 }))

/-- R204: FS_LOAD makes its checks in order and, where one fails, changes `STATUS` only; no probe's mismatch ever ends it. -/
def Obligations.FsLoadChecksInOrder : Prop :=
  ∀ s : State,
    (s.fs.bound = false → exec .fsLoad s = .next { s with status := .notBound }) ∧
      (s.fs.bound = true → s.fs.inEnd.toNat < s.fs.inPtr.toNat →
        exec .fsLoad s = .next { s with status := .addressRange }) ∧
        (s.fs.bound = true → s.fs.inPtr.toNat ≤ s.fs.inEnd.toNat →
          (∃ a, s.fs.inPtr.toNat ≤ a ∧ a < s.fs.inEnd.toNat ∧ s.bw.isPending a = true) →
            exec .fsLoad s = .next { s with status := .unflushedWriter }) ∧
          (s.fs.bound = true → s.fs.inPtr.toNat ≤ s.fs.inEnd.toNat →
            (∀ a, s.fs.inPtr.toNat ≤ a → a < s.fs.inEnd.toNat → s.bw.isPending a = false) →
              ∃ t, exec .fsLoad s = .next t ∧ (t.status = .ok ∨ t.status = .needInput))

/-- R34, R62, R81, R83, R252, R260: `FS_COUNT` is 0 at reset, goes up by 1 at every FS_LOAD that returns `FRAME`, is cleared
by FS_RESET and by a bind or unbind that succeeds, and is left alone by every other command. Over a whole step: no host
access (R62, R83), no rejected command word (R81) and no idle step (R252) changes it; the reset event clears it (R260). The
model's choices: the step takes the host's action from `bus` (log entry 1), and a REG write of another width or alignment is
ignored (log entry 8). -/
def Obligations.FrameCounterCountsFrames : Prop :=
  State.reset.fs.count = 0 ∧ (∀ (s : State) (off v : Word), (writeReg s off v).fs.count = s.fs.count) ∧
    (∀ (i : Instr) (s t : State), exec i s = .next t →
      t.fs.count =
        (if i = .fsLoad ∧ t.status = .ok ∧ t.fs.result = .frame then s.fs.count + 1
        else if clearsCounter i = true ∧ t.status = .ok then 0
        else s.fs.count)) ∧
      ∀ s t : State, step s = .next t →
        t.fs.count =
          (if s.bus.head? = some .reset then 0
          else if s.nextCommand = some .fsLoad ∧ t.status = .ok ∧ t.fs.result = .frame then s.fs.count + 1
          else if s.nextCommand.any clearsCounter = true ∧ t.status = .ok then 0
          else s.fs.count)

/-- R35, R37, R62, R81, R83, R242, R252, R260: `FS_GEN` is 0 at reset, goes up by 1 at every FS command that ends with `OK` or
`NEED_INPUT`, and at nothing else; a command that leaves it alone leaves the FS alone (R242). Over a whole step: no host
access (R62, R83), no rejected command word (R81) and no idle step (R252) changes it, and a step that leaves it alone changes
nothing of the FS but the input cursor the host may write (R37, R83); the reset event clears it (R260). The model's choices:
the step takes the host's action from `bus` (log entry 1), and a REG write of another width or alignment is ignored (log
entry 8). -/
def Obligations.GenerationCountsFsMutations : Prop :=
  State.reset.fs.gen = 0 ∧ (∀ (s : State) (off v : Word), (writeReg s off v).fs.gen = s.fs.gen) ∧
    (∀ (i : Instr) (s t : State), exec i s = .next t →
      t.fs.gen = (if isFsCommand i = true ∧ (t.status = .ok ∨ t.status = .needInput) then s.fs.gen + 1 else s.fs.gen) ∧
        (t.fs.gen = s.fs.gen → t.fs = s.fs)) ∧
      ∀ s t : State, step s = .next t →
        (s.bus.head? = some .reset → t.fs.gen = 0) ∧
          (s.bus.head? ≠ some .reset →
            t.fs.gen =
                (if s.nextCommand.any isFsCommand = true ∧ (t.status = .ok ∨ t.status = .needInput) then s.fs.gen + 1
                else s.fs.gen) ∧
              (t.fs.gen = s.fs.gen → t.fs = { s.fs with inPtr := t.fs.inPtr, inEnd := t.fs.inEnd }))

/-! ### The search -/

/-- R30, R101, R105, R197, R198, R253: what a search probes and where. A buffered probe is valid with header `h` where the
descriptor parses the `H` bytes from it to `h` and the declared size is 0 or lies in `[Fmin, Fmax]`. A window holds, in rising
order, every offset from the declared size to the scan size capped at `Fmax` or the declared size if that is more; for free
format, from `Fmin`, or 1, to the scan size capped at `Fmax`, or `Fmax` where there is none. Candidates 3 are tried in that
order, behind a free-format candidate 2 the 1-2 interval first. Behind a valid header there are at most `Fmax` of each. -/
def Obligations.WindowsHoldAtMostFmaxCandidates : Prop :=
  ∀ (D : ParserDescriptor) (f : FsUnit) (i p q : Nat) (h : HeaderInfo),
    let fs := h.frameSize.toNat
    let ss := h.scanSize.toNat
    f.fill = f.arena.length ∧
      (i + f.h.toNat ≤ f.fill →
        (validAt D f i = some h ↔
          D.parse ((f.arena.drop i).take f.h.toNat) = some h ∧ (fs = 0 ∨ (f.fmin.toNat ≤ fs ∧ fs ≤ f.fmax.toNat)))) ∧
        (∀ x, x ∈ win f i h ↔
          if fs ≠ 0 then i + fs ≤ x ∧ x ≤ i + max (min ss f.fmax.toNat) fs
          else i + max f.fmin.toNat 1 ≤ x ∧ x ≤ i + (if ss ≠ 0 then min ss f.fmax.toNat else f.fmax.toNat)) ∧
          (win f i h).Pairwise (· < ·) ∧
            win3 f p q h =
              (if fs = 0 ∧ q + (q - p) ∈ win f q h then
                (q + (q - p)) :: (win f q h).filter fun x => decide (x ≠ q + (q - p))
              else win f q h) ∧
              (validAt D f i = some h → (win f q h).length ≤ f.fmax.toNat ∧ (win3 f p q h).length ≤ f.fmax.toNat)

/-- R199: the order in which candidates 3 are tried changes no outcome that is reached: where the search with the primary
guess first does not wait for input, it ends as the search in rising order does; and it waits for nothing once every
candidate 3 is buffered. -/
def Obligations.PrimaryGuessChangesNoOutcome : Prop :=
  ∀ (D : ParserDescriptor) (f : FsUnit) (p q : Nat) (h1 h2 : HeaderInfo),
    (search3 D f h1 h2 (win3 f p q h2) ≠ .need →
      search3 D f h1 h2 (win3 f p q h2) = search3 D f h1 h2 (win f q h2)) ∧
      ((∀ r ∈ win f q h2, r + f.h.toNat ≤ f.fill) → search3 D f h1 h2 (win3 f p q h2) ≠ .need)

/-- R200, R207, R211: an unsynced step confirms a frame only at the first candidate 1 that has a candidate 2 and a candidate
3 in their windows, all valid and comparing pairwise, all buffered, and emits exactly that frame. -/
def Obligations.ConfirmedSyncHasThreeMutualHeaders : Prop :=
  ∀ (D : ParserDescriptor) (f g : FsUnit), f.sync = false → fsStep D f = .done g → g.result = .frame →
    ∃ p q r h1 h2 h3 len,
      f.scanPos.toNat ≤ p ∧ p < f.fmax.toNat ∧ q ∈ win f p h1 ∧ r ∈ win f q h2 ∧ r + f.h.toNat ≤ f.fill ∧
        q + f.h.toNat ≤ f.fill ∧ validAt D f p = some h1 ∧ validAt D f q = some h2 ∧ validAt D f r = some h3 ∧
          D.compare h1 h2 = true ∧ D.compare h1 h3 = true ∧ D.compare h2 h3 = true ∧
            len = (if h1.frameSize ≠ 0 then h1.frameSize.toNat else q - p) ∧
              g =
                { f with
                  debris := if 0 < p then ⟨0, toWord p⟩ else ⟨0, 0⟩
                  frame := ⟨toWord p, toWord len⟩
                  hi := h1, hiValid := true, sync := true, lastLen := toWord len, count := f.count + 1
                  consumed := toWord (p + len), scanPos := 0, result := .frame } ∧
                ∀ x, f.scanPos.toNat ≤ x → x < p → ∀ hx, validAt D f x = some hx → search23 D f x hx = .fail

/-- R198, R200, R201, R203, R207: the debris in front of a confirmed frame is at most `Fmax - 1` bytes. Exactly the first `Fmax` bytes come out
on their own, and the scan resumes behind them, where every candidate 1 from the scan's start up to `Fmax - 1` has failed,
and only there. The first candidate 1 that has not failed decides otherwise: its frame is confirmed where its search finds a
candidate 2, and the step ends in `need` at that offset where its probe or its search needs bytes. A search finds nothing
exactly where every candidate 2 of its window is ruled out. Otherwise the first one that is not ruled out decides: the search
finds it where some candidate 3 agrees and all those tried before it have failed, whatever is buffered of the later ones, and
needs input where its own probe, or that of the first candidate 3 in the order of `Win3` that has not failed, is not buffered.
-/
def Obligations.DebrisNeverExceedsOneFrame : Prop :=
  ∀ (D : ParserDescriptor) (f : FsUnit), f.SizesGood →
    let start := if f.sync then 0 else f.scanPos.toNat
    (∀ g, fsStep D f = .done g →
      (g.result = .frame → g.debris.len.toNat ≤ f.fmax.toNat - 1) ∧
        (g.result ≠ .frame →
          g.debris = ⟨0, f.fmax⟩ ∧ g.frame = ⟨0, 0⟩ ∧ g.result = .debris ∧ g.consumed = f.fmax ∧ g.scanPos = 0 ∧
            f.fmax.toNat ≤ f.fill ∧ ∀ x, start ≤ x → x < f.fmax.toNat → CandidateFails D f x)) ∧
      (f.sync = false → (∀ x, start ≤ x → x < f.fmax.toNat → CandidateFails D f x) →
        fsStep D f =
          .done { f with debris := ⟨0, f.fmax⟩, frame := ⟨0, 0⟩, result := .debris, consumed := f.fmax, scanPos := 0 }) ∧
        (∀ p, f.sync = false → start ≤ p → p < f.fmax.toNat → (∀ x, start ≤ x → x < p → CandidateFails D f x) →
          (f.fill < p + f.h.toNat → fsStep D f = .need { f with scanPos := toWord p }) ∧
            ∀ h1, p + f.h.toNat ≤ f.fill → validAt D f p = some h1 →
              (search23 D f p h1 = .need → fsStep D f = .need { f with scanPos := toWord p }) ∧
                ∀ q, search23 D f p h1 = .found q →
                  let len := if h1.frameSize ≠ 0 then h1.frameSize.toNat else q - p
                  fsStep D f =
                    .done
                      { f with
                        debris := if 0 < p then ⟨0, toWord p⟩ else ⟨0, 0⟩
                        frame := ⟨toWord p, toWord len⟩
                        hi := h1, hiValid := true, sync := true, lastLen := toWord len, count := f.count + 1
                        consumed := toWord (p + len), scanPos := 0, result := .frame }) ∧
          ∀ p h1,
            let reached := fun (q : Nat) => q ∈ win f p h1 ∧ ∀ x ∈ win f p h1, x < q → RulesOut D f h1 x
            (search23 D f p h1 = .fail ↔ ∀ q ∈ win f p h1, RulesOut D f h1 q) ∧
              (∀ q, search23 D f p h1 = .found q ↔ reached q ∧ Confirms D f p h1 q) ∧
                (search23 D f p h1 = .need ↔ ∃ q, reached q ∧ Awaits D f p h1 q)

/-- R208, R209, R212: a synced frame of declared size is emitted as soon as its bytes are buffered. -/
def Obligations.KnownSizeFrameNeedsNoLookahead : Prop :=
  ∀ (D : ParserDescriptor) (f : FsUnit) (h : HeaderInfo),
    f.sync = true → f.h.toNat ≤ f.fill → validAt D f 0 = some h → D.compare f.hi h = true → h.frameSize ≠ 0 →
      fsStep D f =
        if h.frameSize.toNat ≤ f.fill then
          .done
            { f with
              debris := ⟨0, 0⟩, frame := ⟨0, h.frameSize⟩, hi := h, hiValid := true, lastLen := h.frameSize
              count := f.count + 1, consumed := h.frameSize, result := .frame }
        else .need f

/-- R210, R212: a synced free-format frame ends at the first offset of its window where a header validates and compares,
`last_len` tried before all others and the rest in rising order; the step needs input where an offset that is reached is not
buffered, and desyncs where the whole window holds no such header (R208). -/
def Obligations.FreeFormatFrameTriesLastLengthFirst : Prop :=
  ∀ (D : ParserDescriptor) (f : FsUnit) (h : HeaderInfo),
    f.sync = true → f.h.toNat ≤ f.fill → validAt D f 0 = some h → D.compare f.hi h = true → h.frameSize = 0 →
      (∀ j ∈ win f 0 h, (∀ x ∈ win f 0 h, TriedBefore f x j → NoHeaderAt D f h x) →
        (NextHeaderAt D f h j →
          fsStep D f =
            .done
              { f with
                debris := ⟨0, 0⟩, frame := ⟨0, toWord j⟩, hi := h, hiValid := true, lastLen := toWord j
                count := f.count + 1, consumed := toWord j, result := .frame }) ∧
          (f.fill < j + f.h.toNat → fsStep D f = .need f)) ∧
        ((∀ j ∈ win f 0 h, NoHeaderAt D f h j) → fsStep D f = fsStep D { f with sync := false, scanPos := 0 })

/-- R208: a synced step needs input while the header at offset 0 is not whole; where it is, and is not valid or does not
compare with the confirmed one, the FS desyncs and scans from offset 0 in the same command, keeping the confirmed header. -/
def Obligations.DesyncRescansInTheSameCommand : Prop :=
  ∀ (D : ParserDescriptor) (f : FsUnit), f.sync = true →
    (f.fill < f.h.toNat → fsStep D f = .need f) ∧
      (f.h.toNat ≤ f.fill → (∀ h, validAt D f 0 = some h → D.compare f.hi h = false) →
        fsStep D f = fsStep D { f with sync := false, scanPos := 0 })

/-- R213: with the arena full every step ends in an output, so an FS_LOAD ends in `NEED_INPUT` only with its input used up.
-/
def Obligations.FullArenaNeverNeedsInput : Prop :=
  (∀ (D : ParserDescriptor) (f : FsUnit), f.SizesGood → f.fill = f.cap.toNat → ∃ g, fsStep D f = .done g) ∧
    ∀ s t : State, s.Inv → exec .fsLoad s = .next t → t.status = .needInput → t.fs.inPtr = t.fs.inEnd

/-- R214, R203: an output the FS has decided on does not depend on bytes that come later. -/
def Obligations.LaterBytesChangeNoDecision : Prop :=
  ∀ (D : ParserDescriptor) (f g : FsUnit) (bs : List Byte),
    fsStep D f = .done g → fsStep D (f.more bs) = .done (g.more bs)

/-- R214: an input given in two parts, the first ending in `NEED_INPUT`, gives what it gives in one: the same output, views,
header and counters, but for the one more command `FS_GEN` counts. -/
def Obligations.SplitInputGivesTheSameOutput : Prop :=
  ∀ (s t u v : State) (mid : Word),
    s.Inv → s.fs.inPtr.toNat ≤ mid.toNat → mid.toNat ≤ s.fs.inEnd.toNat →
      exec .fsLoad { s with fs := { s.fs with inEnd := mid } } = .next t → t.status = .needInput →
        exec .fsLoad { t with fs := { t.fs with inEnd := s.fs.inEnd } } = .next u → exec .fsLoad s = .next v →
          u.status.isFailure = false → v.status.isFailure = false →
            u = { v with fs := { v.fs with gen := v.fs.gen + 1 } }

/-- R107: a composite descriptor's sizes are the union of its members', the first member that parses wins, and a compare asks
the first member that handles the format. -/
def Obligations.CompositeTakesTheFirstMatch : Prop :=
  ∀ (M : ParserDescriptor) (Ms : List ParserDescriptor),
    let C := compositeDescriptor M Ms
    ((∀ D ∈ M :: Ms, D.headerSize ≤ C.headerSize ∧ C.minFrameSize ≤ D.minFrameSize ∧ D.maxFrameSize ≤ C.maxFrameSize) ∧
      (∃ D ∈ M :: Ms, D.headerSize = C.headerSize) ∧ (∃ D ∈ M :: Ms, D.minFrameSize = C.minFrameSize) ∧
        ∃ D ∈ M :: Ms, D.maxFrameSize = C.maxFrameSize) ∧
      (∀ bs h, C.parse bs = some h ↔
        ∃ pre D post, M :: Ms = pre ++ D :: post ∧ D.parse (bs.take D.headerSize) = some h ∧
          ∀ E ∈ pre, E.parse (bs.take E.headerSize) = none) ∧
        (∀ a b, C.compare a b = true ↔
          a.format = b.format ∧ ∃ pre D post, M :: Ms = pre ++ D :: post ∧ D.canParse a.format = true ∧
            D.compare a b = true ∧ ∀ E ∈ pre, E.canParse a.format = false) ∧
          ∀ x, C.canParse x = true ↔ ∃ D ∈ M :: Ms, D.canParse x = true

/-! ### The BitReader -/

/-- R120, R121, R66: BR_BIND binds a region that ends below 2^32 bits and inside MEM, and raises `ADDRESS_RANGE` otherwise,
leaving the old binding. That `br_widx` and `br_word` keep their values is the model's choice (log entry 16). -/
def Obligations.BrBindChecksTheRegion : Prop :=
  ∀ s : State,
    exec .brBind s =
      .next
        (if s.arg1.toNat + s.arg2.toNat ≤ 2 ^ 32 - 1 ∧ s.arg0.toNat + (s.arg1.toNat + s.arg2.toNat + 7) / 8 ≤ 2 ^ 32 then
          { s with
            status := .ok
            br :=
              { s.br with
                wvalid := false
                cur := { bound := true, buf := s.arg0, start := s.arg1, pos := s.arg1, stop := s.arg1 + s.arg2 } } }
        else { s with status := .addressRange })

/-- R123, R125, R126, R127, R128, R272, R12: a get of a field inside the region, no byte that it must load pending (R124),
returns the field's bits: unsigned for BR_GET, as a two's-complement number for BR_GETS, and BR_GETB returns its one bit. The
bits come from the cached word as far as the get begins in that word, whatever MEM holds now, and from MEM in every word it
reads fresh; so they are the stream's bits where the cache is up to date. The position moves past the field, the word of the
last bit is left cached as the get met it, and nothing else changes. -/
def Obligations.GetsReturnTheStreamField : Prop :=
  ∀ (s : State) (n : Nat),
    s.br.Good → s.br.cur.bound = true → (∀ a, s.Loads n a → s.bw.isPending a = false) → n ≤ 32 →
      s.br.cur.pos.toNat + n ≤ s.br.cur.stop.toNat →
        let v := s.readerField n
        let last := s.br.cur.widxOf (s.br.cur.pos.toNat + n - 1)
        let moved := fun (t : State) =>
          t = { s with status := .ok, res0 := t.res0, br := t.br } ∧
            t.br.cur = { s.br.cur with pos := s.br.cur.pos + toWord n } ∧
              (n = 0 → t.br = s.br) ∧
                (1 ≤ n → t.br.wvalid = true ∧ t.br.widx.toNat = last ∧
                  ∀ k, s.br.cur.start.toNat ≤ k → k < s.br.cur.stop.toNat → s.br.cur.widxOf k = last →
                    t.br.word.getLsbD (s.br.cur.wbitOf k) = s.readerBit k) ∧
                  (s.CacheFresh → t.CacheFresh)
        (s.CacheFresh → v = streamField s.mem s.br.cur.buf.toNat s.br.cur.pos.toNat n) ∧
          (∃ t, exec (.brGet n) s = .next t ∧ t.res0.toNat = v ∧ moved t) ∧
            (∃ t, exec (.brGets n) s = .next t ∧ t.res0.toInt = signedValue n v ∧ moved t) ∧
              (n = 1 → ∃ t, exec .brGetb s = .next t ∧ t.res0.toNat = v ∧ moved t)

/-- R126, R129 (I1): a get or a seek outside the region, or a get of more than 32 bits, raises `OUT_OF_RANGE_BIT_ACCESS`. -/
def Obligations.ReaderRefusesBitsOutsideTheRegion : Prop :=
  ∀ (s : State) (n : Nat), s.br.cur.bound = true →
    (32 < n ∨ s.br.cur.stop.toNat < s.br.cur.pos.toNat + n →
      exec (.brGet n) s = .next { s with status := .outOfRangeBitAccess } ∧
        exec (.brGets n) s = .next { s with status := .outOfRangeBitAccess }) ∧
      (s.br.cur.stop.toNat < s.br.cur.pos.toNat + 1 → exec .brGetb s = .next { s with status := .outOfRangeBitAccess }) ∧
        (s.arg0.toNat < s.br.cur.start.toNat ∨ s.br.cur.stop.toNat < s.arg0.toNat →
          exec .brSeek s = .next { s with status := .outOfRangeBitAccess })

/-- R41, R64, R75, R122, R124: a get that must load a word in which a byte of the region is pending, wherever in the word it
stands and whatever part of the field is cached, raises `UNFLUSHED_WRITER` and changes nothing else. The words and the region's
bytes are those of R122 and R64, and a byte is pending where a pending stream bit stands in it (R41). -/
def Obligations.GetOfAPendingByteIsRefused : Prop :=
  (∀ (s : State) (n a : Nat),
    s.br.cur.bound = true → n ≤ 32 → s.br.cur.pos.toNat + n ≤ s.br.cur.stop.toNat → s.Loads n a →
      s.bw.isPending a = true →
        exec (.brGet n) s = .next { s with status := .unflushedWriter } ∧
          exec (.brGets n) s = .next { s with status := .unflushedWriter } ∧
            (n = 1 → exec .brGetb s = .next { s with status := .unflushedWriter })) ∧
    (∀ (c : Cursor) (k : Nat),
      c.base = c.buf.toNat - c.buf.toNat % 4 ∧ c.widxOf k = (k + 8 * (c.buf.toNat % 4)) / 32 ∧
        c.wbitOf k = 31 - (k + 8 * (c.buf.toNat % 4)) % 32 ∧ c.lo = c.buf.toNat + c.start.toNat / 8 ∧
          c.hi = c.buf.toNat + (c.stop.toNat + 7) / 8) ∧
      ∀ (w : BwUnit) (a : Nat),
        w.isPending a = true ↔ ∃ k v, (k, v) ∈ w.pending ∧ a = w.cur.buf.toNat + k / 8

/-- R272, R123: a get whose bits all lie in the cached word returns them as that word holds them, whatever MEM holds now:
unsigned for BR_GET, as a two's-complement number for BR_GETS, the one bit for BR_GETB; only the position moves. -/
def Obligations.CachedWordHidesLaterWrites : Prop :=
  ∀ (s : State) (m : Memory) (n : Nat),
    s.br.Good → s.br.cur.bound = true → 1 ≤ n → n ≤ 32 → s.br.cur.pos.toNat + n ≤ s.br.cur.stop.toNat →
      s.br.wvalid = true → s.br.cur.widxOf s.br.cur.pos.toNat = s.br.widx.toNat →
        s.br.cur.widxOf (s.br.cur.pos.toNat + n - 1) = s.br.widx.toNat →
          let v := wordField s.br.word s.br.cur s.br.cur.pos.toNat n
          let stale := fun (i : Instr) (value : Word → Prop) =>
            ∃ t, exec i s = .next t ∧ exec i { s with mem := m } = .next { t with mem := m } ∧ value t.res0 ∧
              t = { s with
                    status := .ok, res0 := t.res0
                    br := { s.br with cur := { s.br.cur with pos := s.br.cur.pos + toWord n } } }
          stale (.brGet n) (fun w => w.toNat = v) ∧ stale (.brGets n) (fun w => w.toInt = signedValue n v) ∧
            (n = 1 → stale .brGetb (fun w => w.toNat = v))

/-- R129, R130: BR_SEEK goes to a stream bit of `[start, end]` and drops the cache, and refuses any other; BR_UNBIND clears
the binding and drops the cache; both raise `NOT_BOUND` while the reader is not bound. That `br_widx` and `br_word` keep
their values is the model's choice (log entry 16). -/
def Obligations.BrSeekAndUnbindDropTheCache : Prop :=
  ∀ s : State,
    exec .brSeek s =
        .next
          (if s.br.cur.bound = false then { s with status := .notBound }
          else if s.arg0.toNat < s.br.cur.start.toNat ∨ s.br.cur.stop.toNat < s.arg0.toNat then
            { s with status := .outOfRangeBitAccess }
          else { s with status := .ok, br := { s.br with wvalid := false, cur := { s.br.cur with pos := s.arg0 } } }) ∧
      exec .brUnbind s =
        .next
          (if s.br.cur.bound = false then { s with status := .notBound }
          else
            { s with
              status := .ok
              br := { s.br with wvalid := false, cur := { bound := false, buf := 0, start := 0, pos := 0, stop := 0 } } })

/-! ### The BitWriter -/

/-- R144, R145, R141: a put inside the region records exactly its bits, most significant first, over what was pending, moves
the position, and writes no byte of MEM; BW_PUTB puts 1 for any non-zero `ARG0`. -/
def Obligations.PutsRecordTheirBits : Prop :=
  ∀ (s : State) (n : Nat), s.bw.cur.bound = true → s.bw.cur.pos.toNat + n ≤ s.bw.cur.stop.toNat → n ≤ 32 →
    let recorded := fun (v : Nat) (t : State) =>
      t = { s with status := .ok, bw := t.bw } ∧ t.bw.cur = { s.bw.cur with pos := s.bw.cur.pos + toWord n } ∧
        ∀ k, mapGet t.bw.pending k =
          if s.bw.cur.pos.toNat ≤ k ∧ k < s.bw.cur.pos.toNat + n then some (v.testBit (s.bw.cur.pos.toNat + n - 1 - k))
          else mapGet s.bw.pending k
    (n = 32 ∨ s.arg0.toNat < 2 ^ n → ∃ t, exec (.bwPut n) s = .next t ∧ recorded s.arg0.toNat t) ∧
      (n = 1 → ∃ t, exec .bwPutb s = .next t ∧ recorded (if s.arg0 = 0 then 0 else 1) t)

/-- R142, R144, R145: a put past the region or of more than 32 bits raises `OUT_OF_RANGE_BIT_ACCESS`, whatever its value; a
put inside the region of a value wider than its field raises `ILLEGAL_VALUE`; neither changes anything else. -/
def Obligations.PutOfTooWideAValueIsRefused : Prop :=
  ∀ (s : State) (n : Nat), s.bw.cur.bound = true →
    (32 < n ∨ s.bw.cur.stop.toNat < s.bw.cur.pos.toNat + n →
      exec (.bwPut n) s = .next { s with status := .outOfRangeBitAccess }) ∧
      (s.bw.cur.stop.toNat < s.bw.cur.pos.toNat + 1 → exec .bwPutb s = .next { s with status := .outOfRangeBitAccess }) ∧
        (s.bw.cur.pos.toNat + n ≤ s.bw.cur.stop.toNat → n < 32 → 2 ^ n ≤ s.arg0.toNat →
          exec (.bwPut n) s = .next { s with status := .illegalValue })

/-- R143, R147: BW_FLUSH writes every pending bit into MEM, keeps every bit the writer did not put, leaves nothing pending
and changes nothing else. -/
def Obligations.FlushCommitsExactlyThePendingBits : Prop :=
  ∀ s : State, s.bw.Good → s.bw.cur.bound = true →
    ∃ t, exec .bwFlush s = .next t ∧ t = { s with status := .ok, mem := t.mem, bw := { s.bw with pending := [] } } ∧
      (∀ k, streamBit t.mem s.bw.cur.buf.toNat k =
        (mapGet s.bw.pending k).getD (streamBit s.mem s.bw.cur.buf.toNat k)) ∧
        ∀ a, s.bw.isPending a = false → memByte t.mem a = memByte s.mem a

/-- R140, R146, R148: BW_SEEK, BW_CLOSE and a BW_BIND that succeeds commit exactly as BW_FLUSH does and then move, release or
rebind the writer; a BW_BIND of a region out of range, or a seek outside the region, commits nothing. -/
def Obligations.SeekCloseAndRebindCommitFirst : Prop :=
  ∀ s : State, s.bw.Good → s.bw.cur.bound = true →
    ∃ u, exec .bwFlush s = .next u ∧
      exec .bwClose s =
        .next { u with bw := { cur := { bound := false, buf := 0, start := 0, pos := 0, stop := 0 }, pending := [] } } ∧
        exec .bwSeek s =
          .next
            (if s.bw.cur.start.toNat ≤ s.arg0.toNat ∧ s.arg0.toNat ≤ s.bw.cur.stop.toNat then
              { u with bw := { cur := { s.bw.cur with pos := s.arg0 }, pending := [] } }
            else { s with status := .outOfRangeBitAccess }) ∧
          exec .bwBind s =
            .next
              (if s.arg1.toNat + s.arg2.toNat ≤ 2 ^ 32 - 1 ∧
                  s.arg0.toNat + (s.arg1.toNat + s.arg2.toNat + 7) / 8 ≤ 2 ^ 32 then
                { u with
                  bw :=
                    { cur := { bound := true, buf := s.arg0, start := s.arg1, pos := s.arg1, stop := s.arg1 + s.arg2 }
                      pending := [] } }
              else { s with status := .addressRange })

/-- R140, R121: BW_BIND on a writer that is not bound binds a region that ends below 2^32 bits and inside MEM and writes no
byte of MEM; it raises `ADDRESS_RANGE` for any other region and stays unbound. -/
def Obligations.FirstBwBindWritesNoMemory : Prop :=
  ∀ s : State, s.bw.cur.bound = false →
    exec .bwBind s =
      .next
        (if s.arg1.toNat + s.arg2.toNat ≤ 2 ^ 32 - 1 ∧ s.arg0.toNat + (s.arg1.toNat + s.arg2.toNat + 7) / 8 ≤ 2 ^ 32 then
          { s with
            status := .ok
            bw :=
              { s.bw with
                cur := { bound := true, buf := s.arg0, start := s.arg1, pos := s.arg1, stop := s.arg1 + s.arg2 } } }
        else { s with status := .addressRange })

/-- R149: fields put one after another and flushed are read back, unsigned and signed, by a reader bound at the same region
and positioned where the puts began. -/
def Obligations.PutThenGetReturnsTheFields : Prop :=
  ∀ (s : State) (fields : List (Nat × Word)),
    s.Inv → s.bw.cur.bound = true → (∀ nv ∈ fields, 1 ≤ nv.1 ∧ nv.1 ≤ 32 ∧ nv.2.toNat < 2 ^ nv.1) →
      s.bw.cur.pos.toNat + (fields.map Prod.fst).sum ≤ s.bw.cur.stop.toNat →
        ∃ s1 s2 s3 s4, putAll fields s = some s1 ∧ exec .bwFlush s1 = .next s2 ∧
          exec .brBind (withArgs s.bw.cur.buf s.bw.cur.start (s.bw.cur.stop - s.bw.cur.start) s2) = .next s3 ∧
            exec .brSeek { s3 with arg0 := s.bw.cur.pos } = .next s4 ∧
              getAll .brGet (fields.map Prod.fst) s4 = some (fields.map Prod.snd) ∧
                getAll .brGets (fields.map Prod.fst) s4 =
                  some (fields.map fun nv => BitVec.ofInt 32 (signedValue nv.1 nv.2.toNat))

/-! ### The converter -/

/-- R160, R166, R167: the 19 supported pairs of codes and the conversion each of them makes; no other pair is supported; and
the contractive ones are those from a 14-bit code to another code. -/
def Obligations.NineteenPairsAreSupported : Prop :=
  (∀ f t : Nat, contractive f t = true ↔ (f = 3 ∨ f = 4) ∧ t ≠ f) ∧
  ∀ (f t : Nat) (c : Conversion), conversionOfCodes f t = some c ↔
    (f, t, c) ∈
      [(0, 0, .copy), (0, 1, .copy), (0, 2, .swap), (0, 3, .expandBe), (0, 4, .expandLe), (1, 0, .copy), (1, 1, .copy),
        (1, 2, .swap), (2, 0, .swap), (2, 1, .swap), (2, 2, .copy), (2, 3, .swapExpandBe), (2, 4, .swapExpandLe),
        (3, 0, .contractBe), (3, 2, .contractBeSwap), (3, 3, .copy), (4, 0, .contractLe), (4, 2, .contractLeSwap),
        ((4, 4, .copy) : Nat × Nat × Conversion)]

/-- R162, R163, R164, R165, R166, R167: every conversion gives as many bytes as its length column says, an even input taken
where it contracts; and the length column of each conversion is the table's. -/
def Obligations.OutputLengthIsTheTables : Prop :=
  (∀ (pad : Pad14) (f t : Nat) (c : Conversion) (bs : List Byte),
    conversionOfCodes f t = some c → ¬(contractive f t = true ∧ bs.length % 2 = 1) →
      (c.apply pad bs).length = c.outLen bs.length) ∧
    ∀ n : Nat,
      let l := 7 * (n / 8) + 14 * (n % 8 / 2) / 8
      Conversion.copy.outLen n = n ∧ Conversion.swap.outLen n = n + n % 2 ∧
        Conversion.expandBe.outLen n = 8 * ((n + 6) / 7) ∧ Conversion.expandLe.outLen n = 8 * ((n + 6) / 7) ∧
          Conversion.contractBe.outLen n = l ∧ Conversion.contractLe.outLen n = l ∧
            Conversion.swapExpandBe.outLen n = 8 * ((n + n % 2 + 6) / 7) ∧
              Conversion.swapExpandLe.outLen n = 8 * ((n + n % 2 + 6) / 7) ∧
                Conversion.contractBeSwap.outLen n = l + l % 2 ∧ Conversion.contractLeSwap.outLen n = l + l % 2

/-- R161 to R165: word `j` of a 14-bit expansion, in its byte order, carries stream bits `14j` to `14j+13` of the zero-padded
source in its bits 13 to 0, and its two top bits are 0 or copies of bit 13, as `PAD14` says; a contraction of any words gives
their bits 13 to 0 as a stream, as many whole bytes as they fill; Swap16 exchanges the bytes of each word, an odd length
padded with a zero byte; and every conversion of the table is made of these (R166). -/
def Obligations.ExpandedWordsCarryTheStream : Prop :=
  (∀ (pad : Pad14) (bs : List Byte) (j i : Nat), j < 4 * ((bs.length + 6) / 7) → i < 14 →
    let carries := fun (word : Nat) =>
      word.testBit (13 - i) = (bs.getD ((14 * j + i) / 8) 0).getLsbD (7 - (14 * j + i) % 8) ∧
        word / 2 ^ 14 = if pad = .sign ∧ word.testBit 13 = true then 3 else 0
    carries (wordBe (expand14be pad bs) j) ∧ carries (wordLe (expand14le pad bs) j)) ∧
    (∀ bs : List Byte, bs.length % 2 = 0 →
      (contract14be bs).length = 7 * bs.length / 8 ∧ (contract14le bs).length = 7 * bs.length / 8 ∧
        ∀ k, k < 8 * (7 * bs.length / 8) →
          ((contract14be bs).getD (k / 8) 0).getLsbD (7 - k % 8) = (wordBe bs (k / 14)).testBit (13 - k % 14) ∧
            ((contract14le bs).getD (k / 8) 0).getLsbD (7 - k % 8) = (wordLe bs (k / 14)).testBit (13 - k % 14)) ∧
      (∀ bs : List Byte,
        (swap16 bs).length = bs.length + bs.length % 2 ∧
          ∀ i, i < bs.length + bs.length % 2 →
            (swap16 bs).getD i 0 = bs.getD (if i % 2 = 0 then i + 1 else i - 1) 0) ∧
        ∀ (pad : Pad14) (bs : List Byte),
          Conversion.copy.apply pad bs = bs ∧ Conversion.swap.apply pad bs = swap16 bs ∧
            Conversion.expandBe.apply pad bs = expand14be pad bs ∧ Conversion.contractBe.apply pad bs = contract14be bs ∧
              Conversion.expandLe.apply pad bs = expand14le pad bs ∧ Conversion.contractLe.apply pad bs = contract14le bs ∧
                Conversion.swapExpandBe.apply pad bs = expand14be pad (swap16 bs) ∧
                  Conversion.swapExpandLe.apply pad bs = expand14le pad (swap16 bs) ∧
                    Conversion.contractBeSwap.apply pad bs = swap16 (contract14be bs) ∧
                      Conversion.contractLeSwap.apply pad bs = swap16 (contract14le bs)

/-- R172: among BYTE, W16BE and W16LE a conversion there and back gives the bytes again, with one zero byte more where an odd
length goes through Swap16. -/
def Obligations.LosslessPairsRoundTrip : Prop :=
  ∀ (pad : Pad14) (a b : Packing) (c c' : Conversion) (bs : List Byte),
    a ∈ [Packing.byte, .w16be, .w16le] → b ∈ [Packing.byte, .w16be, .w16le] → conversionOf a b = some c →
      conversionOf b a = some c' →
        c'.apply pad (c.apply pad bs) = if c = .swap ∧ bs.length % 2 = 1 then bs ++ [0] else bs

/-- R173: a 14-bit expansion and the contraction back give the bytes again, zero bytes up to a multiple of 7 behind them, in
both byte orders and for both paddings. The tail bytes follow the rules as log entry 14 says. -/
def Obligations.FourteenBitRoundTrip : Prop :=
  ∀ (pad : Pad14) (bs : List Byte),
    contract14be (expand14be pad bs) = bs ++ List.replicate (7 * ((bs.length + 6) / 7) - bs.length) 0 ∧
      contract14le (expand14le pad bs) = bs ++ List.replicate (7 * ((bs.length + 6) / 7) - bs.length) 0

/-- R169, R170: a supported CONV whose checks pass writes the conversion of the whole source at the destination, in place
too, reports its length, and changes no other byte and nothing else. A length of 2^32 fits no register: what `RES0` holds
then is the model's free value (log entry 7). -/
def Obligations.ConvWritesTheConvertedSource : Prop :=
  ∀ (s : State) (f t : Nat) (c : Conversion),
    let src := s.arg0.toNat
    let n := s.arg1.toNat
    let dst := s.arg2.toNat
    let bytes := fun (m : Memory) (a k : Nat) => (List.range k).map fun i => memByte m (a + i)
    let out := c.apply Config.platform.pad14 (bytes s.mem src n)
    conversionOfCodes f t = some c → ¬(contractive f t = true ∧ n % 2 = 1) → src + n ≤ 2 ^ 32 →
      dst + c.outLen n ≤ 2 ^ 32 →
        (dst = src ∨ ∀ a, src ≤ a → a < src + n → ¬(dst ≤ a ∧ a < dst + c.outLen n)) →
        (∀ a, (src ≤ a ∧ a < src + n) ∨ (dst ≤ a ∧ a < dst + c.outLen n) → s.bw.isPending a = false) →
          ∃ u, exec (.conv f t) s = .next u ∧
            u = { s with status := .ok, res0 := u.res0, mem := u.mem, freeCount := u.freeCount } ∧
              bytes u.mem dst (c.outLen n) = out ∧
                (∀ a, a < dst ∨ dst + c.outLen n ≤ a → memByte u.mem a = memByte s.mem a) ∧
                  (c.outLen n < 2 ^ 32 → u.res0.toNat = c.outLen n ∧ u.freeCount = s.freeCount)

/-- R170, R243: CONV reports the first of its checks that fails and changes `STATUS` only. -/
def Obligations.ConvChecksInOrder : Prop :=
  ∀ (s : State) (f t : Nat),
    let src := s.arg0.toNat
    let n := s.arg1.toNat
    let dst := s.arg2.toNat
    (conversionOfCodes f t = none → exec (.conv f t) s = .next { s with status := .unsupportedConversion }) ∧
      ∀ c, conversionOfCodes f t = some c →
        (contractive f t = true ∧ n % 2 = 1 → exec (.conv f t) s = .next { s with status := .badLength }) ∧
          (¬(contractive f t = true ∧ n % 2 = 1) →
            (2 ^ 32 < src + n ∨ 2 ^ 32 < dst + c.outLen n → exec (.conv f t) s = .next { s with status := .addressRange }) ∧
              (src + n ≤ 2 ^ 32 → dst + c.outLen n ≤ 2 ^ 32 →
                (dst ≠ src → (∃ a, src ≤ a ∧ a < src + n ∧ dst ≤ a ∧ a < dst + c.outLen n) →
                  exec (.conv f t) s = .next { s with status := .overlap }) ∧
                  (dst = src ∨ (∀ a, src ≤ a → a < src + n → ¬(dst ≤ a ∧ a < dst + c.outLen n)) →
                    (∃ a, s.bw.isPending a = true ∧
                      ((src ≤ a ∧ a < src + n) ∨ (dst ≤ a ∧ a < dst + c.outLen n))) →
                      exec (.conv f t) s = .next { s with status := .unflushedWriter })))

/-- R171: CONV_QUERY reports that a pair is supported and the length it gives, and refuses as CONV does. -/
def Obligations.ConvQueryReportsTheLength : Prop :=
  ∀ (s : State) (f t : Nat),
    (conversionOfCodes f t = none → exec (.convQuery f t) s = .next { s with status := .unsupportedConversion }) ∧
      ∀ c, conversionOfCodes f t = some c →
        exec (.convQuery f t) s =
          .next
            (if contractive f t = true ∧ s.arg1.toNat % 2 = 1 then { s with status := .badLength }
            else { s with status := .ok, res0 := 1, res1 := toWord (c.outLen s.arg1.toNat) })

/-! ### Frames -/

/-- R20, R37, R60, R74, R90: what each family of commands leaves alone. No command writes an argument register, `FS_IN_END`
or the host's side (`bus` and `hostData` are the model's own, log entries 1 and 11); only FS_LOAD writes `FS_IN_PTR` among
the FS commands; the reader's commands write no byte of MEM and no other unit; puts write the BitWriter only; the commands
that commit change pending bytes only; the FS reads MEM only. -/
def Obligations.CommandsStayInTheirUnit : Prop :=
  ∀ (i : Instr) (s t : State), exec i s = .next t →
    (t.arg0 = s.arg0 ∧ t.arg1 = s.arg1 ∧ t.arg2 = s.arg2 ∧ t.fs.inEnd = s.fs.inEnd ∧ t.bus = s.bus ∧
      t.hostData = s.hostData) ∧
      (isBrCommand i = true → t = { s with status := t.status, res0 := t.res0, br := t.br }) ∧
        (isPutCommand i = true → t = { s with status := t.status, bw := t.bw }) ∧
          (isCommitCommand i = true →
            t = { s with status := t.status, bw := t.bw, mem := t.mem } ∧
              ∀ a, s.bw.isPending a = false → memByte t.mem a = memByte s.mem a) ∧
            (isFsCommand i = true →
              t = { s with status := t.status, fs := t.fs } ∧ (i ≠ .fsLoad → t.fs.inPtr = s.fs.inPtr)) ∧
              ∀ f u, i = .convQuery f u → t = { s with status := t.status, res0 := t.res0, res1 := t.res1 }
end

