-- ==== Sys2Proof/Laws/Maps.lean ====
section
/-!
SUPPORT. The finite maps of Sys2Proof/Machine/Ops.lean: what a set changes, and that it keeps the canonical form.
-/
namespace Sys2Proof.Machine

variable {β : Type}

@[simp] theorem mapGet_nil (a : Nat) : mapGet ([] : List (Nat × β)) a = none := rfl

theorem keysAbove_iff {a : Nat} {m : List (Nat × β)} : keysAbove a m = true ↔ ∀ c ∈ m, a < c.1 := by
  simp [keysAbove]

theorem keysAbove_mono {a b : Nat} {m : List (Nat × β)} (h : a ≤ b) (hm : keysAbove b m = true) : keysAbove a m = true := by
  rw [keysAbove_iff] at *
  exact fun c hc => Nat.lt_of_le_of_lt h (hm c hc)

/-- A key below every key of the map is not in it. -/
theorem mapGet_none_of_keysAbove {a : Nat} {m : List (Nat × β)} (h : keysAbove a m = true) : mapGet m a = none := by
  induction m with
  | nil => rfl
  | cons c rest ih =>
    obtain ⟨k, w⟩ := c
    rw [keysAbove_iff] at h
    have hk : a < k := h (k, w) (by simp)
    have : k ≠ a := by omega
    simp only [mapGet, this, if_false]
    exact ih (keysAbove_iff.2 fun c hc => h c (by simp [hc]))

/-- Reading a map after a set: the value set at its key, what was there elsewhere. -/
theorem mapGet_mapSet (m : List (Nat × β)) (a : Nat) (v : β) (b : Nat) :
    mapGet (mapSet m a v) b = if a = b then some v else mapGet m b := by
  induction m with
  | nil => simp [mapSet, mapGet]
  | cons c rest ih =>
    obtain ⟨k, w⟩ := c
    by_cases h1 : a < k
    · simp [mapSet, h1, mapGet]
    · by_cases h2 : a = k
      · subst h2
        by_cases hb : a = b <;> simp [mapSet, mapGet, hb]
      · simp only [mapSet, h1, h2, if_false, mapGet, ih]
        by_cases hb : a = b
        · subst hb
          simp [Ne.symm h2]
        · simp [hb]

@[simp] theorem mapGet_mapSet_same (m : List (Nat × β)) (a : Nat) (v : β) : mapGet (mapSet m a v) a = some v := by
  simp [mapGet_mapSet]

theorem mapGet_mapSet_ne (m : List (Nat × β)) {a b : Nat} (v : β) (h : a ≠ b) : mapGet (mapSet m a v) b = mapGet m b := by
  simp [mapGet_mapSet, h]

/-- The entries of a map after a set are the entry set and entries the map had. -/
theorem mem_mapSet {m : List (Nat × β)} {a : Nat} {v : β} {c : Nat × β} (h : c ∈ mapSet m a v) : c = (a, v) ∨ c ∈ m := by
  induction m with
  | nil => simpa [mapSet] using h
  | cons d rest ih =>
    obtain ⟨k, w⟩ := d
    simp only [mapSet] at h
    split at h
    · simpa using h
    · split at h
      · rcases List.mem_cons.1 h with h | h
        · exact .inl h
        · exact .inr (by simp [h])
      · rcases List.mem_cons.1 h with h | h
        · exact .inr (by simp [h])
        · rcases ih h with h | h
          · exact .inl h
          · exact .inr (by simp [h])

theorem keysAbove_mapSet {m : List (Nat × β)} {a b : Nat} {v : β} (hb : b < a) (hm : keysAbove b m = true) :
    keysAbove b (mapSet m a v) = true := by
  rw [keysAbove_iff] at *
  intro c hc
  rcases mem_mapSet hc with h | h
  · simpa [h] using hb
  · exact hm c h

/-- A set keeps the canonical form. -/
theorem rising_mapSet {m : List (Nat × β)} (a : Nat) (v : β) (hm : rising m = true) : rising (mapSet m a v) = true := by
  induction m with
  | nil => simp [mapSet, rising, keysAbove]
  | cons d rest ih =>
    obtain ⟨k, w⟩ := d
    simp only [rising, Bool.and_eq_true] at hm
    simp only [mapSet]
    split
    · rename_i h
      simp only [rising, Bool.and_eq_true]
      refine ⟨?_, hm⟩
      rw [keysAbove_iff]
      intro c hc
      rcases List.mem_cons.1 hc with hc | hc
      · simpa [hc] using h
      · exact Nat.lt_trans h (keysAbove_iff.1 hm.1 c hc)
    · split
      · rename_i h
        subst h
        simpa only [rising, Bool.and_eq_true] using hm
      · simp only [rising, Bool.and_eq_true]
        exact ⟨keysAbove_mapSet (by omega) hm.1, ih hm.2⟩

/-- The values of a map in canonical form are read back at their keys. -/
theorem mapGet_of_mem {m : List (Nat × β)} (hm : rising m = true) {a : Nat} {v : β} (h : (a, v) ∈ m) :
    mapGet m a = some v := by
  induction m with
  | nil => simp at h
  | cons d rest ih =>
    obtain ⟨k, w⟩ := d
    simp only [rising, Bool.and_eq_true] at hm
    rcases List.mem_cons.1 h with h | h
    · cases h
      simp [mapGet]
    · have hk : k < a := keysAbove_iff.1 hm.1 _ h
      have : k ≠ a := by omega
      simp only [mapGet, this, if_false]
      exact ih hm.2 h

/-- A value read from a map is one of its entries. -/
theorem mem_of_mapGet {m : List (Nat × β)} {a : Nat} {v : β} (h : mapGet m a = some v) : (a, v) ∈ m := by
  induction m with
  | nil => simp at h
  | cons d rest ih =>
    obtain ⟨k, w⟩ := d
    simp only [mapGet] at h
    split at h
    · rename_i hk
      cases h
      simp [hk]
    · exact List.mem_cons_of_mem _ (ih h)

/-- Two maps in canonical form that read alike are equal: equal contents are equal data. -/
theorem map_ext {m n : List (Nat × β)} (hm : rising m = true) (hn : rising n = true) (h : ∀ a, mapGet m a = mapGet n a) :
    m = n := by
  induction m generalizing n with
  | nil =>
    cases n with
    | nil => rfl
    | cons d rest =>
      obtain ⟨k, w⟩ := d
      have := h k
      simp [mapGet] at this
  | cons c rest ih =>
    obtain ⟨k, w⟩ := c
    simp only [rising, Bool.and_eq_true] at hm
    cases n with
    | nil =>
      have := h k
      simp [mapGet] at this
    | cons d rest' =>
      obtain ⟨k', w'⟩ := d
      simp only [rising, Bool.and_eq_true] at hn
      have hk : k = k' := by
        rcases Nat.lt_trichotomy k k' with hlt | heq | hgt
        · have h1 := h k
          have h2 : mapGet rest' k = none :=
            mapGet_none_of_keysAbove (keysAbove_mono (Nat.le_of_lt hlt) hn.1)
          have : k' ≠ k := by omega
          simp [mapGet, this, h2] at h1
        · exact heq
        · have h1 := h k'
          have h2 : mapGet rest k' = none :=
            mapGet_none_of_keysAbove (keysAbove_mono (Nat.le_of_lt hgt) hm.1)
          have : k ≠ k' := by omega
          simp [mapGet, this, h2] at h1
      subst hk
      have hw : w = w' := by simpa [mapGet] using h k
      subst hw
      have : rest = rest' := by
        refine ih hm.2 hn.2 fun a => ?_
        by_cases ha : k = a
        · subst ha
          rw [mapGet_none_of_keysAbove hm.1, mapGet_none_of_keysAbove hn.1]
        · simpa [mapGet, ha] using h a
      rw [this]

end Sys2Proof.Machine
end

