-- ==== Sys2Proof/Laws/Memory.lean ====
section
/-!
SUPPORT. MEM: reading after writing, what a write leaves alone, and that every operation keeps `Memory.wf`
(spec/00_scope.md R13, spec/20_memory.md R60, R67).
-/
namespace Sys2Proof.Machine

theorem memByte_memSet (m : Memory) (a : Nat) (b : Byte) (x : Nat) :
    memByte (memSet m a b) x = if a = x then b else memByte m x := by
  simp only [memByte, memSet, mapGet_mapSet]
  split <;> rfl

@[simp] theorem memByte_memSet_same (m : Memory) (a : Nat) (b : Byte) : memByte (memSet m a b) a = b := by
  simp [memByte_memSet]

theorem memByte_memSet_ne (m : Memory) {a x : Nat} (b : Byte) (h : a ≠ x) : memByte (memSet m a b) x = memByte m x := by
  simp [memByte_memSet, h]

/-- `Memory.wf` as its two parts. -/
theorem wf_iff {m : Memory} : Memory.wf m = true ↔ rising m = true ∧ ∀ c ∈ m, c.1 < memSize := by
  simp [Memory.wf]

/-- A byte written inside MEM keeps the canonical form. -/
theorem wf_memSet {m : Memory} (h : Memory.wf m = true) {a : Nat} (ha : a < memSize) (b : Byte) :
    Memory.wf (memSet m a b) = true := by
  rw [wf_iff] at *
  refine ⟨rising_mapSet a b h.1, fun c hc => ?_⟩
  rcases mem_mapSet hc with hc | hc
  · simpa [hc] using ha
  · exact h.2 c hc

/-- Reading one byte after a range has been written. -/
theorem memByte_memWrite (m : Memory) (a : Nat) (bs : List Byte) (x : Nat) :
    memByte (memWrite m a bs) x = if a ≤ x ∧ x < a + bs.length then bs.getD (x - a) 0 else memByte m x := by
  induction bs generalizing m a with
  | nil =>
    have : ¬(a ≤ x ∧ x < a + 0) := by omega
    simp only [memWrite, List.length_nil, this, if_false]
  | cons b bs ih =>
    simp only [memWrite, ih, List.length_cons, memByte_memSet]
    rcases Nat.lt_trichotomy a x with h | h | h
    · by_cases hx : x < a + 1 + bs.length
      · have h1 : a + 1 ≤ x ∧ x < a + 1 + bs.length := ⟨h, hx⟩
        have h2 : a ≤ x ∧ x < a + (bs.length + 1) := by omega
        have h3 : x - a = (x - (a + 1)) + 1 := by omega
        rw [if_pos h1, if_pos h2, h3, List.getD_cons_succ]
      · have h1 : ¬(a + 1 ≤ x ∧ x < a + 1 + bs.length) := by omega
        have h2 : ¬(a ≤ x ∧ x < a + (bs.length + 1)) := by omega
        have h3 : ¬(a = x) := by omega
        rw [if_neg h1, if_neg h2, if_neg h3]
    · subst h
      have h1 : ¬(a + 1 ≤ a ∧ a < a + 1 + bs.length) := by omega
      have h2 : a ≤ a ∧ a < a + (bs.length + 1) := by omega
      rw [if_neg h1, if_pos h2, if_pos rfl, Nat.sub_self, List.getD_cons_zero]
    · have h1 : ¬(a + 1 ≤ x ∧ x < a + 1 + bs.length) := by omega
      have h2 : ¬(a ≤ x ∧ x < a + (bs.length + 1)) := by omega
      have h3 : ¬(a = x) := by omega
      rw [if_neg h1, if_neg h2, if_neg h3]

/-- A byte outside a written range keeps its value. -/
theorem memByte_memWrite_outside (m : Memory) {a x : Nat} (bs : List Byte) (h : x < a ∨ a + bs.length ≤ x) :
    memByte (memWrite m a bs) x = memByte m x := by
  rw [memByte_memWrite, if_neg (by omega)]

/-- A range written inside MEM keeps the canonical form. -/
theorem wf_memWrite {m : Memory} (h : Memory.wf m = true) {a : Nat} (bs : List Byte) (ha : a + bs.length ≤ memSize) :
    Memory.wf (memWrite m a bs) = true := by
  induction bs generalizing m a with
  | nil => exact h
  | cons b bs ih =>
    simp only [List.length_cons] at ha
    exact ih (wf_memSet h (by omega) b) (by omega)

@[simp] theorem memRead_length (m : Memory) (a n : Nat) : (memRead m a n).length = n := by simp [memRead]

theorem memRead_getD (m : Memory) (a n i : Nat) (h : i < n) : (memRead m a n).getD i 0 = memByte m (a + i) := by
  simp [memRead, List.getD, h]

/-- Two memories that agree on a range read the same bytes from it. -/
theorem memRead_congr {m m' : Memory} {a n : Nat} (h : ∀ i, i < n → memByte m (a + i) = memByte m' (a + i)) :
    memRead m a n = memRead m' a n := by
  simp only [memRead]
  exact List.map_congr_left fun i hi => h i (by simpa using hi)

/-- A range read back after it was written. -/
theorem memRead_memWrite_same (m : Memory) (a : Nat) (bs : List Byte) : memRead (memWrite m a bs) a bs.length = bs := by
  apply List.ext_getElem
  · simp
  · intro i h1 h2
    simp only [memRead, List.getElem_map, List.getElem_range]
    rw [memByte_memWrite, if_pos (by omega), Nat.add_sub_cancel_left]
    simp [List.getD, h2]

/-- A range read in two parts. -/
theorem memRead_add (m : Memory) (a i j : Nat) : memRead m a (i + j) = memRead m a i ++ memRead m (a + i) j := by
  simp only [memRead, List.range_add, List.map_append, List.map_map]
  congr 1
  exact List.map_congr_left fun k _ => by simp [Nat.add_assoc]

end Sys2Proof.Machine
end

