-- ==== Sys2Proof/Laws/State.lean ====
section
/-!
SUPPORT. One lemma for each field of each named update, so that no proof unfolds a record update.
-/
namespace Sys2Proof.Machine

/-! ### Updates of the whole state -/

@[simp] theorem commit_status (s : State) : (commit s).status = s.status := rfl
@[simp] theorem commit_arg0 (s : State) : (commit s).arg0 = s.arg0 := rfl
@[simp] theorem commit_arg1 (s : State) : (commit s).arg1 = s.arg1 := rfl
@[simp] theorem commit_arg2 (s : State) : (commit s).arg2 = s.arg2 := rfl
@[simp] theorem commit_res0 (s : State) : (commit s).res0 = s.res0 := rfl
@[simp] theorem commit_res1 (s : State) : (commit s).res1 = s.res1 := rfl
@[simp] theorem commit_fs (s : State) : (commit s).fs = s.fs := rfl
@[simp] theorem commit_br (s : State) : (commit s).br = s.br := rfl
@[simp] theorem commit_bw (s : State) : (commit s).bw = { s.bw with pending := [] } := rfl
@[simp] theorem commit_mem (s : State) : (commit s).mem = commitMem s.mem s.bw.cur.buf.toNat s.bw.pending := rfl
@[simp] theorem commit_bus (s : State) : (commit s).bus = s.bus := rfl
@[simp] theorem commit_hostData (s : State) : (commit s).hostData = s.hostData := rfl
@[simp] theorem commit_freeCount (s : State) : (commit s).freeCount = s.freeCount := rfl

@[simp] theorem drewFree_status (s : State) : (drewFree s).status = s.status := rfl
@[simp] theorem drewFree_arg0 (s : State) : (drewFree s).arg0 = s.arg0 := rfl
@[simp] theorem drewFree_arg1 (s : State) : (drewFree s).arg1 = s.arg1 := rfl
@[simp] theorem drewFree_arg2 (s : State) : (drewFree s).arg2 = s.arg2 := rfl
@[simp] theorem drewFree_res0 (s : State) : (drewFree s).res0 = s.res0 := rfl
@[simp] theorem drewFree_res1 (s : State) : (drewFree s).res1 = s.res1 := rfl
@[simp] theorem drewFree_fs (s : State) : (drewFree s).fs = s.fs := rfl
@[simp] theorem drewFree_br (s : State) : (drewFree s).br = s.br := rfl
@[simp] theorem drewFree_bw (s : State) : (drewFree s).bw = s.bw := rfl
@[simp] theorem drewFree_mem (s : State) : (drewFree s).mem = s.mem := rfl
@[simp] theorem drewFree_bus (s : State) : (drewFree s).bus = s.bus := rfl
@[simp] theorem drewFree_hostData (s : State) : (drewFree s).hostData = s.hostData := rfl
@[simp] theorem drewFree_freeCount (s : State) : (drewFree s).freeCount = s.freeCount + 1 := rfl

@[simp] theorem answered_status (v : Word) (s : State) : (answered v s).status = s.status := rfl
@[simp] theorem answered_arg0 (v : Word) (s : State) : (answered v s).arg0 = s.arg0 := rfl
@[simp] theorem answered_arg1 (v : Word) (s : State) : (answered v s).arg1 = s.arg1 := rfl
@[simp] theorem answered_arg2 (v : Word) (s : State) : (answered v s).arg2 = s.arg2 := rfl
@[simp] theorem answered_res0 (v : Word) (s : State) : (answered v s).res0 = s.res0 := rfl
@[simp] theorem answered_res1 (v : Word) (s : State) : (answered v s).res1 = s.res1 := rfl
@[simp] theorem answered_fs (v : Word) (s : State) : (answered v s).fs = s.fs := rfl
@[simp] theorem answered_br (v : Word) (s : State) : (answered v s).br = s.br := rfl
@[simp] theorem answered_bw (v : Word) (s : State) : (answered v s).bw = s.bw := rfl
@[simp] theorem answered_mem (v : Word) (s : State) : (answered v s).mem = s.mem := rfl
@[simp] theorem answered_bus (v : Word) (s : State) : (answered v s).bus = s.bus := rfl
@[simp] theorem answered_hostData (v : Word) (s : State) : (answered v s).hostData = v := rfl
@[simp] theorem answered_freeCount (v : Word) (s : State) : (answered v s).freeCount = s.freeCount := rfl

@[simp] theorem takenFromBus_status (rest : List HostAction) (s : State) : (takenFromBus rest s).status = s.status := rfl
@[simp] theorem takenFromBus_arg0 (rest : List HostAction) (s : State) : (takenFromBus rest s).arg0 = s.arg0 := rfl
@[simp] theorem takenFromBus_arg1 (rest : List HostAction) (s : State) : (takenFromBus rest s).arg1 = s.arg1 := rfl
@[simp] theorem takenFromBus_arg2 (rest : List HostAction) (s : State) : (takenFromBus rest s).arg2 = s.arg2 := rfl
@[simp] theorem takenFromBus_res0 (rest : List HostAction) (s : State) : (takenFromBus rest s).res0 = s.res0 := rfl
@[simp] theorem takenFromBus_res1 (rest : List HostAction) (s : State) : (takenFromBus rest s).res1 = s.res1 := rfl
@[simp] theorem takenFromBus_fs (rest : List HostAction) (s : State) : (takenFromBus rest s).fs = s.fs := rfl
@[simp] theorem takenFromBus_br (rest : List HostAction) (s : State) : (takenFromBus rest s).br = s.br := rfl
@[simp] theorem takenFromBus_bw (rest : List HostAction) (s : State) : (takenFromBus rest s).bw = s.bw := rfl
@[simp] theorem takenFromBus_mem (rest : List HostAction) (s : State) : (takenFromBus rest s).mem = s.mem := rfl
@[simp] theorem takenFromBus_bus (rest : List HostAction) (s : State) : (takenFromBus rest s).bus = rest := rfl
@[simp] theorem takenFromBus_hostData (rest : List HostAction) (s : State) : (takenFromBus rest s).hostData =
    s.hostData := rfl
@[simp] theorem takenFromBus_freeCount (rest : List HostAction) (s : State) : (takenFromBus rest s).freeCount =
    s.freeCount := rfl

@[simp] theorem withCommandWord_status (w : Word) (s : State) : (withCommandWord w s).status = s.status := rfl
@[simp] theorem withCommandWord_arg0 (w : Word) (s : State) : (withCommandWord w s).arg0 = s.arg0 := rfl
@[simp] theorem withCommandWord_arg1 (w : Word) (s : State) : (withCommandWord w s).arg1 = s.arg1 := rfl
@[simp] theorem withCommandWord_arg2 (w : Word) (s : State) : (withCommandWord w s).arg2 = s.arg2 := rfl
@[simp] theorem withCommandWord_res0 (w : Word) (s : State) : (withCommandWord w s).res0 = s.res0 := rfl
@[simp] theorem withCommandWord_res1 (w : Word) (s : State) : (withCommandWord w s).res1 = s.res1 := rfl
@[simp] theorem withCommandWord_fs (w : Word) (s : State) : (withCommandWord w s).fs = s.fs := rfl
@[simp] theorem withCommandWord_br (w : Word) (s : State) : (withCommandWord w s).br = s.br := rfl
@[simp] theorem withCommandWord_bw (w : Word) (s : State) : (withCommandWord w s).bw = s.bw := rfl
@[simp] theorem withCommandWord_mem (w : Word) (s : State) : (withCommandWord w s).mem = s.mem := rfl
@[simp] theorem withCommandWord_bus (w : Word) (s : State) : (withCommandWord w s).bus = .regWrite 0 w :: s.bus := rfl
@[simp] theorem withCommandWord_hostData (w : Word) (s : State) : (withCommandWord w s).hostData = s.hostData := rfl
@[simp] theorem withCommandWord_freeCount (w : Word) (s : State) : (withCommandWord w s).freeCount = s.freeCount := rfl

@[simp] theorem rebindWriter_status (e : Nat) (s : State) : (rebindWriter e s).status = s.status := rfl
@[simp] theorem rebindWriter_arg0 (e : Nat) (s : State) : (rebindWriter e s).arg0 = s.arg0 := rfl
@[simp] theorem rebindWriter_arg1 (e : Nat) (s : State) : (rebindWriter e s).arg1 = s.arg1 := rfl
@[simp] theorem rebindWriter_arg2 (e : Nat) (s : State) : (rebindWriter e s).arg2 = s.arg2 := rfl
@[simp] theorem rebindWriter_res0 (e : Nat) (s : State) : (rebindWriter e s).res0 = s.res0 := rfl
@[simp] theorem rebindWriter_res1 (e : Nat) (s : State) : (rebindWriter e s).res1 = s.res1 := rfl
@[simp] theorem rebindWriter_fs (e : Nat) (s : State) : (rebindWriter e s).fs = s.fs := rfl
@[simp] theorem rebindWriter_br (e : Nat) (s : State) : (rebindWriter e s).br = s.br := rfl
@[simp] theorem rebindWriter_bw (e : Nat) (s : State) : (rebindWriter e s).bw =
    { s.bw with cur := Cursor.bindTo s.arg0 s.arg1 e } := rfl
@[simp] theorem rebindWriter_mem (e : Nat) (s : State) : (rebindWriter e s).mem = s.mem := rfl
@[simp] theorem rebindWriter_bus (e : Nat) (s : State) : (rebindWriter e s).bus = s.bus := rfl
@[simp] theorem rebindWriter_hostData (e : Nat) (s : State) : (rebindWriter e s).hostData = s.hostData := rfl
@[simp] theorem rebindWriter_freeCount (e : Nat) (s : State) : (rebindWriter e s).freeCount = s.freeCount := rfl

@[simp] theorem seekWriter_status (s : State) : (seekWriter s).status = s.status := rfl
@[simp] theorem seekWriter_arg0 (s : State) : (seekWriter s).arg0 = s.arg0 := rfl
@[simp] theorem seekWriter_arg1 (s : State) : (seekWriter s).arg1 = s.arg1 := rfl
@[simp] theorem seekWriter_arg2 (s : State) : (seekWriter s).arg2 = s.arg2 := rfl
@[simp] theorem seekWriter_res0 (s : State) : (seekWriter s).res0 = s.res0 := rfl
@[simp] theorem seekWriter_res1 (s : State) : (seekWriter s).res1 = s.res1 := rfl
@[simp] theorem seekWriter_fs (s : State) : (seekWriter s).fs = s.fs := rfl
@[simp] theorem seekWriter_br (s : State) : (seekWriter s).br = s.br := rfl
@[simp] theorem seekWriter_bw (s : State) : (seekWriter s).bw = { s.bw with cur := { s.bw.cur with pos := s.arg0 } } := rfl
@[simp] theorem seekWriter_mem (s : State) : (seekWriter s).mem = s.mem := rfl
@[simp] theorem seekWriter_bus (s : State) : (seekWriter s).bus = s.bus := rfl
@[simp] theorem seekWriter_hostData (s : State) : (seekWriter s).hostData = s.hostData := rfl
@[simp] theorem seekWriter_freeCount (s : State) : (seekWriter s).freeCount = s.freeCount := rfl

@[simp] theorem releaseWriter_status (s : State) : (releaseWriter s).status = s.status := rfl
@[simp] theorem releaseWriter_arg0 (s : State) : (releaseWriter s).arg0 = s.arg0 := rfl
@[simp] theorem releaseWriter_arg1 (s : State) : (releaseWriter s).arg1 = s.arg1 := rfl
@[simp] theorem releaseWriter_arg2 (s : State) : (releaseWriter s).arg2 = s.arg2 := rfl
@[simp] theorem releaseWriter_res0 (s : State) : (releaseWriter s).res0 = s.res0 := rfl
@[simp] theorem releaseWriter_res1 (s : State) : (releaseWriter s).res1 = s.res1 := rfl
@[simp] theorem releaseWriter_fs (s : State) : (releaseWriter s).fs = s.fs := rfl
@[simp] theorem releaseWriter_br (s : State) : (releaseWriter s).br = s.br := rfl
@[simp] theorem releaseWriter_bw (s : State) : (releaseWriter s).bw = { s.bw with cur := Cursor.unbound } := rfl
@[simp] theorem releaseWriter_mem (s : State) : (releaseWriter s).mem = s.mem := rfl
@[simp] theorem releaseWriter_bus (s : State) : (releaseWriter s).bus = s.bus := rfl
@[simp] theorem releaseWriter_hostData (s : State) : (releaseWriter s).hostData = s.hostData := rfl
@[simp] theorem releaseWriter_freeCount (s : State) : (releaseWriter s).freeCount = s.freeCount := rfl

/-! ### Updates of the FrameSynchronizer -/

@[simp] theorem dropOutput_bound (f : FsUnit) : (dropOutput f).bound = f.bound := rfl
@[simp] theorem dropOutput_parser (f : FsUnit) : (dropOutput f).parser = f.parser := rfl
@[simp] theorem dropOutput_h (f : FsUnit) : (dropOutput f).h = f.h := rfl
@[simp] theorem dropOutput_fmin (f : FsUnit) : (dropOutput f).fmin = f.fmin := rfl
@[simp] theorem dropOutput_fmax (f : FsUnit) : (dropOutput f).fmax = f.fmax := rfl
@[simp] theorem dropOutput_cap (f : FsUnit) : (dropOutput f).cap = f.cap := rfl
@[simp] theorem dropOutput_sync (f : FsUnit) : (dropOutput f).sync = f.sync := rfl
@[simp] theorem dropOutput_scanPos (f : FsUnit) : (dropOutput f).scanPos = f.scanPos := rfl
@[simp] theorem dropOutput_lastLen (f : FsUnit) : (dropOutput f).lastLen = f.lastLen := rfl
@[simp] theorem dropOutput_consumed (f : FsUnit) : (dropOutput f).consumed = 0 := rfl
@[simp] theorem dropOutput_arena (f : FsUnit) : (dropOutput f).arena = f.arena.drop f.consumed.toNat := rfl
@[simp] theorem dropOutput_debris (f : FsUnit) : (dropOutput f).debris = View.empty := rfl
@[simp] theorem dropOutput_frame (f : FsUnit) : (dropOutput f).frame = View.empty := rfl
@[simp] theorem dropOutput_result (f : FsUnit) : (dropOutput f).result = f.result := rfl
@[simp] theorem dropOutput_count (f : FsUnit) : (dropOutput f).count = f.count := rfl
@[simp] theorem dropOutput_gen (f : FsUnit) : (dropOutput f).gen = f.gen := rfl
@[simp] theorem dropOutput_hi (f : FsUnit) : (dropOutput f).hi = f.hi := rfl
@[simp] theorem dropOutput_hiValid (f : FsUnit) : (dropOutput f).hiValid = f.hiValid := rfl
@[simp] theorem dropOutput_inPtr (f : FsUnit) : (dropOutput f).inPtr = f.inPtr := rfl
@[simp] theorem dropOutput_inEnd (f : FsUnit) : (dropOutput f).inEnd = f.inEnd := rfl

@[simp] theorem topUp_bound (m : Memory) (f : FsUnit) : (topUp m f).bound = f.bound := rfl
@[simp] theorem topUp_parser (m : Memory) (f : FsUnit) : (topUp m f).parser = f.parser := rfl
@[simp] theorem topUp_h (m : Memory) (f : FsUnit) : (topUp m f).h = f.h := rfl
@[simp] theorem topUp_fmin (m : Memory) (f : FsUnit) : (topUp m f).fmin = f.fmin := rfl
@[simp] theorem topUp_fmax (m : Memory) (f : FsUnit) : (topUp m f).fmax = f.fmax := rfl
@[simp] theorem topUp_cap (m : Memory) (f : FsUnit) : (topUp m f).cap = f.cap := rfl
@[simp] theorem topUp_sync (m : Memory) (f : FsUnit) : (topUp m f).sync = f.sync := rfl
@[simp] theorem topUp_scanPos (m : Memory) (f : FsUnit) : (topUp m f).scanPos = f.scanPos := rfl
@[simp] theorem topUp_lastLen (m : Memory) (f : FsUnit) : (topUp m f).lastLen = f.lastLen := rfl
@[simp] theorem topUp_consumed (m : Memory) (f : FsUnit) : (topUp m f).consumed = f.consumed := rfl
@[simp] theorem topUp_arena (m : Memory) (f : FsUnit) : (topUp m f).arena =
    f.arena ++ memRead m f.inPtr.toNat (topUpCount f) := rfl
@[simp] theorem topUp_debris (m : Memory) (f : FsUnit) : (topUp m f).debris = f.debris := rfl
@[simp] theorem topUp_frame (m : Memory) (f : FsUnit) : (topUp m f).frame = f.frame := rfl
@[simp] theorem topUp_result (m : Memory) (f : FsUnit) : (topUp m f).result = f.result := rfl
@[simp] theorem topUp_count (m : Memory) (f : FsUnit) : (topUp m f).count = f.count := rfl
@[simp] theorem topUp_gen (m : Memory) (f : FsUnit) : (topUp m f).gen = f.gen := rfl
@[simp] theorem topUp_hi (m : Memory) (f : FsUnit) : (topUp m f).hi = f.hi := rfl
@[simp] theorem topUp_hiValid (m : Memory) (f : FsUnit) : (topUp m f).hiValid = f.hiValid := rfl
@[simp] theorem topUp_inPtr (m : Memory) (f : FsUnit) : (topUp m f).inPtr = toWord (f.inPtr.toNat + topUpCount f) := rfl
@[simp] theorem topUp_inEnd (m : Memory) (f : FsUnit) : (topUp m f).inEnd = f.inEnd := rfl

@[simp] theorem bumpGen_bound (f : FsUnit) : (bumpGen f).bound = f.bound := rfl
@[simp] theorem bumpGen_parser (f : FsUnit) : (bumpGen f).parser = f.parser := rfl
@[simp] theorem bumpGen_h (f : FsUnit) : (bumpGen f).h = f.h := rfl
@[simp] theorem bumpGen_fmin (f : FsUnit) : (bumpGen f).fmin = f.fmin := rfl
@[simp] theorem bumpGen_fmax (f : FsUnit) : (bumpGen f).fmax = f.fmax := rfl
@[simp] theorem bumpGen_cap (f : FsUnit) : (bumpGen f).cap = f.cap := rfl
@[simp] theorem bumpGen_sync (f : FsUnit) : (bumpGen f).sync = f.sync := rfl
@[simp] theorem bumpGen_scanPos (f : FsUnit) : (bumpGen f).scanPos = f.scanPos := rfl
@[simp] theorem bumpGen_lastLen (f : FsUnit) : (bumpGen f).lastLen = f.lastLen := rfl
@[simp] theorem bumpGen_consumed (f : FsUnit) : (bumpGen f).consumed = f.consumed := rfl
@[simp] theorem bumpGen_arena (f : FsUnit) : (bumpGen f).arena = f.arena := rfl
@[simp] theorem bumpGen_debris (f : FsUnit) : (bumpGen f).debris = f.debris := rfl
@[simp] theorem bumpGen_frame (f : FsUnit) : (bumpGen f).frame = f.frame := rfl
@[simp] theorem bumpGen_result (f : FsUnit) : (bumpGen f).result = f.result := rfl
@[simp] theorem bumpGen_count (f : FsUnit) : (bumpGen f).count = f.count := rfl
@[simp] theorem bumpGen_gen (f : FsUnit) : (bumpGen f).gen = f.gen + 1 := rfl
@[simp] theorem bumpGen_hi (f : FsUnit) : (bumpGen f).hi = f.hi := rfl
@[simp] theorem bumpGen_hiValid (f : FsUnit) : (bumpGen f).hiValid = f.hiValid := rfl
@[simp] theorem bumpGen_inPtr (f : FsUnit) : (bumpGen f).inPtr = f.inPtr := rfl
@[simp] theorem bumpGen_inEnd (f : FsUnit) : (bumpGen f).inEnd = f.inEnd := rfl

@[simp] theorem streamClear_bound (f : FsUnit) : (streamClear f).bound = f.bound := rfl
@[simp] theorem streamClear_parser (f : FsUnit) : (streamClear f).parser = f.parser := rfl
@[simp] theorem streamClear_h (f : FsUnit) : (streamClear f).h = f.h := rfl
@[simp] theorem streamClear_fmin (f : FsUnit) : (streamClear f).fmin = f.fmin := rfl
@[simp] theorem streamClear_fmax (f : FsUnit) : (streamClear f).fmax = f.fmax := rfl
@[simp] theorem streamClear_cap (f : FsUnit) : (streamClear f).cap = f.cap := rfl
@[simp] theorem streamClear_sync (f : FsUnit) : (streamClear f).sync = false := rfl
@[simp] theorem streamClear_scanPos (f : FsUnit) : (streamClear f).scanPos = 0 := rfl
@[simp] theorem streamClear_lastLen (f : FsUnit) : (streamClear f).lastLen = 0 := rfl
@[simp] theorem streamClear_consumed (f : FsUnit) : (streamClear f).consumed = 0 := rfl
@[simp] theorem streamClear_arena (f : FsUnit) : (streamClear f).arena = [] := rfl
@[simp] theorem streamClear_debris (f : FsUnit) : (streamClear f).debris = View.empty := rfl
@[simp] theorem streamClear_frame (f : FsUnit) : (streamClear f).frame = View.empty := rfl
@[simp] theorem streamClear_result (f : FsUnit) : (streamClear f).result = .noOutput := rfl
@[simp] theorem streamClear_count (f : FsUnit) : (streamClear f).count = f.count := rfl
@[simp] theorem streamClear_gen (f : FsUnit) : (streamClear f).gen = f.gen := rfl
@[simp] theorem streamClear_hi (f : FsUnit) : (streamClear f).hi = noHeader := rfl
@[simp] theorem streamClear_hiValid (f : FsUnit) : (streamClear f).hiValid = false := rfl
@[simp] theorem streamClear_inPtr (f : FsUnit) : (streamClear f).inPtr = f.inPtr := rfl
@[simp] theorem streamClear_inEnd (f : FsUnit) : (streamClear f).inEnd = f.inEnd := rfl

@[simp] theorem boundUnit_bound (i : Nat) (D : ParserDescriptor) (f : FsUnit) : (boundUnit i D f).bound = true := rfl
@[simp] theorem boundUnit_parser (i : Nat) (D : ParserDescriptor) (f : FsUnit) : (boundUnit i D f).parser =
    BitVec.ofNat 8 i := rfl
@[simp] theorem boundUnit_h (i : Nat) (D : ParserDescriptor) (f : FsUnit) : (boundUnit i D f).h = toWord D.headerSize := rfl
@[simp] theorem boundUnit_fmin (i : Nat) (D : ParserDescriptor) (f : FsUnit) : (boundUnit i D f).fmin =
    toWord D.minFrameSize := rfl
@[simp] theorem boundUnit_fmax (i : Nat) (D : ParserDescriptor) (f : FsUnit) : (boundUnit i D f).fmax =
    toWord D.maxFrameSize := rfl
@[simp] theorem boundUnit_cap (i : Nat) (D : ParserDescriptor) (f : FsUnit) : (boundUnit i D f).cap =
    toWord (capacityOf D) := rfl
@[simp] theorem boundUnit_sync (i : Nat) (D : ParserDescriptor) (f : FsUnit) : (boundUnit i D f).sync = false := rfl
@[simp] theorem boundUnit_scanPos (i : Nat) (D : ParserDescriptor) (f : FsUnit) : (boundUnit i D f).scanPos = 0 := rfl
@[simp] theorem boundUnit_lastLen (i : Nat) (D : ParserDescriptor) (f : FsUnit) : (boundUnit i D f).lastLen = 0 := rfl
@[simp] theorem boundUnit_consumed (i : Nat) (D : ParserDescriptor) (f : FsUnit) : (boundUnit i D f).consumed = 0 := rfl
@[simp] theorem boundUnit_arena (i : Nat) (D : ParserDescriptor) (f : FsUnit) : (boundUnit i D f).arena = [] := rfl
@[simp] theorem boundUnit_debris (i : Nat) (D : ParserDescriptor) (f : FsUnit) : (boundUnit i D f).debris = View.empty := rfl
@[simp] theorem boundUnit_frame (i : Nat) (D : ParserDescriptor) (f : FsUnit) : (boundUnit i D f).frame = View.empty := rfl
@[simp] theorem boundUnit_result (i : Nat) (D : ParserDescriptor) (f : FsUnit) : (boundUnit i D f).result = .noOutput := rfl
@[simp] theorem boundUnit_count (i : Nat) (D : ParserDescriptor) (f : FsUnit) : (boundUnit i D f).count = 0 := rfl
@[simp] theorem boundUnit_gen (i : Nat) (D : ParserDescriptor) (f : FsUnit) : (boundUnit i D f).gen = f.gen := rfl
@[simp] theorem boundUnit_hi (i : Nat) (D : ParserDescriptor) (f : FsUnit) : (boundUnit i D f).hi = noHeader := rfl
@[simp] theorem boundUnit_hiValid (i : Nat) (D : ParserDescriptor) (f : FsUnit) : (boundUnit i D f).hiValid = false := rfl
@[simp] theorem boundUnit_inPtr (i : Nat) (D : ParserDescriptor) (f : FsUnit) : (boundUnit i D f).inPtr = f.inPtr := rfl
@[simp] theorem boundUnit_inEnd (i : Nat) (D : ParserDescriptor) (f : FsUnit) : (boundUnit i D f).inEnd = f.inEnd := rfl

@[simp] theorem unboundUnit_bound (f : FsUnit) : (unboundUnit f).bound = false := rfl
@[simp] theorem unboundUnit_parser (f : FsUnit) : (unboundUnit f).parser = 0 := rfl
@[simp] theorem unboundUnit_h (f : FsUnit) : (unboundUnit f).h = 0 := rfl
@[simp] theorem unboundUnit_fmin (f : FsUnit) : (unboundUnit f).fmin = 0 := rfl
@[simp] theorem unboundUnit_fmax (f : FsUnit) : (unboundUnit f).fmax = 0 := rfl
@[simp] theorem unboundUnit_cap (f : FsUnit) : (unboundUnit f).cap = 0 := rfl
@[simp] theorem unboundUnit_sync (f : FsUnit) : (unboundUnit f).sync = false := rfl
@[simp] theorem unboundUnit_scanPos (f : FsUnit) : (unboundUnit f).scanPos = 0 := rfl
@[simp] theorem unboundUnit_lastLen (f : FsUnit) : (unboundUnit f).lastLen = 0 := rfl
@[simp] theorem unboundUnit_consumed (f : FsUnit) : (unboundUnit f).consumed = 0 := rfl
@[simp] theorem unboundUnit_arena (f : FsUnit) : (unboundUnit f).arena = [] := rfl
@[simp] theorem unboundUnit_debris (f : FsUnit) : (unboundUnit f).debris = View.empty := rfl
@[simp] theorem unboundUnit_frame (f : FsUnit) : (unboundUnit f).frame = View.empty := rfl
@[simp] theorem unboundUnit_result (f : FsUnit) : (unboundUnit f).result = .noOutput := rfl
@[simp] theorem unboundUnit_count (f : FsUnit) : (unboundUnit f).count = 0 := rfl
@[simp] theorem unboundUnit_gen (f : FsUnit) : (unboundUnit f).gen = f.gen := rfl
@[simp] theorem unboundUnit_hi (f : FsUnit) : (unboundUnit f).hi = noHeader := rfl
@[simp] theorem unboundUnit_hiValid (f : FsUnit) : (unboundUnit f).hiValid = false := rfl
@[simp] theorem unboundUnit_inPtr (f : FsUnit) : (unboundUnit f).inPtr = f.inPtr := rfl
@[simp] theorem unboundUnit_inEnd (f : FsUnit) : (unboundUnit f).inEnd = f.inEnd := rfl

@[simp] theorem confirmFrame_bound (p : Nat) (h1 : HeaderInfo) (q : Nat) (f : FsUnit) : (confirmFrame p h1 q f).bound =
    f.bound := rfl
@[simp] theorem confirmFrame_parser (p : Nat) (h1 : HeaderInfo) (q : Nat) (f : FsUnit) : (confirmFrame p h1 q f).parser =
    f.parser := rfl
@[simp] theorem confirmFrame_h (p : Nat) (h1 : HeaderInfo) (q : Nat) (f : FsUnit) : (confirmFrame p h1 q f).h = f.h := rfl
@[simp] theorem confirmFrame_fmin (p : Nat) (h1 : HeaderInfo) (q : Nat) (f : FsUnit) : (confirmFrame p h1 q f).fmin =
    f.fmin := rfl
@[simp] theorem confirmFrame_fmax (p : Nat) (h1 : HeaderInfo) (q : Nat) (f : FsUnit) : (confirmFrame p h1 q f).fmax =
    f.fmax := rfl
@[simp] theorem confirmFrame_cap (p : Nat) (h1 : HeaderInfo) (q : Nat) (f : FsUnit) : (confirmFrame p h1 q f).cap =
    f.cap := rfl
@[simp] theorem confirmFrame_sync (p : Nat) (h1 : HeaderInfo) (q : Nat) (f : FsUnit) : (confirmFrame p h1 q f).sync =
    true := rfl
@[simp] theorem confirmFrame_scanPos (p : Nat) (h1 : HeaderInfo) (q : Nat) (f : FsUnit) : (confirmFrame p h1 q f).scanPos =
    0 := rfl
@[simp] theorem confirmFrame_lastLen (p : Nat) (h1 : HeaderInfo) (q : Nat) (f : FsUnit) : (confirmFrame p h1 q f).lastLen =
    toWord (if h1.frameSize ≠ 0 then h1.frameSize.toNat else q - p) := rfl
@[simp] theorem confirmFrame_consumed (p : Nat) (h1 : HeaderInfo) (q : Nat) (f : FsUnit) : (confirmFrame p h1 q f).consumed =
    toWord (p + (if h1.frameSize ≠ 0 then h1.frameSize.toNat else q - p)) := rfl
@[simp] theorem confirmFrame_arena (p : Nat) (h1 : HeaderInfo) (q : Nat) (f : FsUnit) : (confirmFrame p h1 q f).arena =
    f.arena := rfl
@[simp] theorem confirmFrame_debris (p : Nat) (h1 : HeaderInfo) (q : Nat) (f : FsUnit) : (confirmFrame p h1 q f).debris =
    (if 0 < p then viewAt 0 p else View.empty) := rfl
@[simp] theorem confirmFrame_frame (p : Nat) (h1 : HeaderInfo) (q : Nat) (f : FsUnit) : (confirmFrame p h1 q f).frame =
    viewAt p (if h1.frameSize ≠ 0 then h1.frameSize.toNat else q - p) := rfl
@[simp] theorem confirmFrame_result (p : Nat) (h1 : HeaderInfo) (q : Nat) (f : FsUnit) : (confirmFrame p h1 q f).result =
    .frame := rfl
@[simp] theorem confirmFrame_count (p : Nat) (h1 : HeaderInfo) (q : Nat) (f : FsUnit) : (confirmFrame p h1 q f).count =
    f.count + 1 := rfl
@[simp] theorem confirmFrame_gen (p : Nat) (h1 : HeaderInfo) (q : Nat) (f : FsUnit) : (confirmFrame p h1 q f).gen =
    f.gen := rfl
@[simp] theorem confirmFrame_hi (p : Nat) (h1 : HeaderInfo) (q : Nat) (f : FsUnit) : (confirmFrame p h1 q f).hi = h1 := rfl
@[simp] theorem confirmFrame_hiValid (p : Nat) (h1 : HeaderInfo) (q : Nat) (f : FsUnit) : (confirmFrame p h1 q f).hiValid =
    true := rfl
@[simp] theorem confirmFrame_inPtr (p : Nat) (h1 : HeaderInfo) (q : Nat) (f : FsUnit) : (confirmFrame p h1 q f).inPtr =
    f.inPtr := rfl
@[simp] theorem confirmFrame_inEnd (p : Nat) (h1 : HeaderInfo) (q : Nat) (f : FsUnit) : (confirmFrame p h1 q f).inEnd =
    f.inEnd := rfl

@[simp] theorem emitSynced_bound (len : Nat) (h : HeaderInfo) (f : FsUnit) : (emitSynced len h f).bound = f.bound := rfl
@[simp] theorem emitSynced_parser (len : Nat) (h : HeaderInfo) (f : FsUnit) : (emitSynced len h f).parser = f.parser := rfl
@[simp] theorem emitSynced_h (len : Nat) (h : HeaderInfo) (f : FsUnit) : (emitSynced len h f).h = f.h := rfl
@[simp] theorem emitSynced_fmin (len : Nat) (h : HeaderInfo) (f : FsUnit) : (emitSynced len h f).fmin = f.fmin := rfl
@[simp] theorem emitSynced_fmax (len : Nat) (h : HeaderInfo) (f : FsUnit) : (emitSynced len h f).fmax = f.fmax := rfl
@[simp] theorem emitSynced_cap (len : Nat) (h : HeaderInfo) (f : FsUnit) : (emitSynced len h f).cap = f.cap := rfl
@[simp] theorem emitSynced_sync (len : Nat) (h : HeaderInfo) (f : FsUnit) : (emitSynced len h f).sync = f.sync := rfl
@[simp] theorem emitSynced_scanPos (len : Nat) (h : HeaderInfo) (f : FsUnit) : (emitSynced len h f).scanPos = f.scanPos := rfl
@[simp] theorem emitSynced_lastLen (len : Nat) (h : HeaderInfo) (f : FsUnit) : (emitSynced len h f).lastLen =
    toWord len := rfl
@[simp] theorem emitSynced_consumed (len : Nat) (h : HeaderInfo) (f : FsUnit) : (emitSynced len h f).consumed =
    toWord len := rfl
@[simp] theorem emitSynced_arena (len : Nat) (h : HeaderInfo) (f : FsUnit) : (emitSynced len h f).arena = f.arena := rfl
@[simp] theorem emitSynced_debris (len : Nat) (h : HeaderInfo) (f : FsUnit) : (emitSynced len h f).debris = View.empty := rfl
@[simp] theorem emitSynced_frame (len : Nat) (h : HeaderInfo) (f : FsUnit) : (emitSynced len h f).frame = viewAt 0 len := rfl
@[simp] theorem emitSynced_result (len : Nat) (h : HeaderInfo) (f : FsUnit) : (emitSynced len h f).result = .frame := rfl
@[simp] theorem emitSynced_count (len : Nat) (h : HeaderInfo) (f : FsUnit) : (emitSynced len h f).count = f.count + 1 := rfl
@[simp] theorem emitSynced_gen (len : Nat) (h : HeaderInfo) (f : FsUnit) : (emitSynced len h f).gen = f.gen := rfl
@[simp] theorem emitSynced_hi (len : Nat) (h : HeaderInfo) (f : FsUnit) : (emitSynced len h f).hi = h := rfl
@[simp] theorem emitSynced_hiValid (len : Nat) (h : HeaderInfo) (f : FsUnit) : (emitSynced len h f).hiValid = true := rfl
@[simp] theorem emitSynced_inPtr (len : Nat) (h : HeaderInfo) (f : FsUnit) : (emitSynced len h f).inPtr = f.inPtr := rfl
@[simp] theorem emitSynced_inEnd (len : Nat) (h : HeaderInfo) (f : FsUnit) : (emitSynced len h f).inEnd = f.inEnd := rfl

@[simp] theorem emitDebris_bound (f : FsUnit) : (emitDebris f).bound = f.bound := rfl
@[simp] theorem emitDebris_parser (f : FsUnit) : (emitDebris f).parser = f.parser := rfl
@[simp] theorem emitDebris_h (f : FsUnit) : (emitDebris f).h = f.h := rfl
@[simp] theorem emitDebris_fmin (f : FsUnit) : (emitDebris f).fmin = f.fmin := rfl
@[simp] theorem emitDebris_fmax (f : FsUnit) : (emitDebris f).fmax = f.fmax := rfl
@[simp] theorem emitDebris_cap (f : FsUnit) : (emitDebris f).cap = f.cap := rfl
@[simp] theorem emitDebris_sync (f : FsUnit) : (emitDebris f).sync = f.sync := rfl
@[simp] theorem emitDebris_scanPos (f : FsUnit) : (emitDebris f).scanPos = 0 := rfl
@[simp] theorem emitDebris_lastLen (f : FsUnit) : (emitDebris f).lastLen = f.lastLen := rfl
@[simp] theorem emitDebris_consumed (f : FsUnit) : (emitDebris f).consumed = f.fmax := rfl
@[simp] theorem emitDebris_arena (f : FsUnit) : (emitDebris f).arena = f.arena := rfl
@[simp] theorem emitDebris_debris (f : FsUnit) : (emitDebris f).debris = viewAt 0 f.fmax.toNat := rfl
@[simp] theorem emitDebris_frame (f : FsUnit) : (emitDebris f).frame = View.empty := rfl
@[simp] theorem emitDebris_result (f : FsUnit) : (emitDebris f).result = .debris := rfl
@[simp] theorem emitDebris_count (f : FsUnit) : (emitDebris f).count = f.count := rfl
@[simp] theorem emitDebris_gen (f : FsUnit) : (emitDebris f).gen = f.gen := rfl
@[simp] theorem emitDebris_hi (f : FsUnit) : (emitDebris f).hi = f.hi := rfl
@[simp] theorem emitDebris_hiValid (f : FsUnit) : (emitDebris f).hiValid = f.hiValid := rfl
@[simp] theorem emitDebris_inPtr (f : FsUnit) : (emitDebris f).inPtr = f.inPtr := rfl
@[simp] theorem emitDebris_inEnd (f : FsUnit) : (emitDebris f).inEnd = f.inEnd := rfl

/-! ### Updates of the cursors -/

@[simp] theorem loadWord_cur (m : Memory) (r : BrUnit) (w : Nat) : (loadWord m r w).cur = r.cur := rfl
@[simp] theorem loadWord_wvalid (m : Memory) (r : BrUnit) (w : Nat) : (loadWord m r w).wvalid = true := rfl
@[simp] theorem loadWord_widx (m : Memory) (r : BrUnit) (w : Nat) : (loadWord m r w).widx = toWord w := rfl
@[simp] theorem loadWord_word (m : Memory) (r : BrUnit) (w : Nat) : (loadWord m r w).word = wordAt m r.cur w := rfl

@[simp] theorem boundReader_cur (b s : Word) (e : Nat) (r : BrUnit) : (boundReader b s e r).cur = Cursor.bindTo b s e := rfl
@[simp] theorem boundReader_wvalid (b s : Word) (e : Nat) (r : BrUnit) : (boundReader b s e r).wvalid = false := rfl
@[simp] theorem boundReader_widx (b s : Word) (e : Nat) (r : BrUnit) : (boundReader b s e r).widx = r.widx := rfl
@[simp] theorem boundReader_word (b s : Word) (e : Nat) (r : BrUnit) : (boundReader b s e r).word = r.word := rfl

@[simp] theorem soughtReader_cur (p : Word) (r : BrUnit) : (soughtReader p r).cur = { r.cur with pos := p } := rfl
@[simp] theorem soughtReader_wvalid (p : Word) (r : BrUnit) : (soughtReader p r).wvalid = false := rfl
@[simp] theorem soughtReader_widx (p : Word) (r : BrUnit) : (soughtReader p r).widx = r.widx := rfl
@[simp] theorem soughtReader_word (p : Word) (r : BrUnit) : (soughtReader p r).word = r.word := rfl

@[simp] theorem putField_cur (n v : Nat) (w : BwUnit) : (putField n v w).cur =
    { w.cur with pos := toWord (w.cur.pos.toNat + n) } := rfl
@[simp] theorem putField_pending (n v : Nat) (w : BwUnit) : (putField n v w).pending =
    putBits w.pending w.cur.pos.toNat n v := rfl

@[simp] theorem bindTo_bound (b s : Word) (e : Nat) : (Cursor.bindTo b s e).bound = true := rfl
@[simp] theorem bindTo_buf (b s : Word) (e : Nat) : (Cursor.bindTo b s e).buf = b := rfl
@[simp] theorem bindTo_start (b s : Word) (e : Nat) : (Cursor.bindTo b s e).start = s := rfl
@[simp] theorem bindTo_pos (b s : Word) (e : Nat) : (Cursor.bindTo b s e).pos = s := rfl
@[simp] theorem bindTo_stop (b s : Word) (e : Nat) : (Cursor.bindTo b s e).stop = toWord e := rfl

end Sys2Proof.Machine
end

