-- ==== Sys2Proof/Laws/Ops.lean ====
section
/-!
SUPPORT. What the shared operations of Sys2Proof/Machine/Ops.lean can do, said once: how a command ends, pending bytes, the commit.
-/
namespace Sys2Proof.Machine

/-! ### How a command ends -/

theorem raise_eq_next {e : Status} {s t : State} : raise e s = .next t ↔ t = { s with status := e } := by
  simp [raise, eq_comm]

theorem finish_eq_next {s t : State} : finish s = .next t ↔ t = { s with status := .ok } := by
  simp [finish, eq_comm]

/-- A command that commits first answers a next state only if every pending byte lies in MEM. -/
theorem commitThen_eq_next {k : State → State} {s t : State} :
    commitThen k s = .next t ↔ s.bw.outside = none ∧ t = { k (commit s) with status := .ok } := by
  unfold commitThen
  cases s.bw.outside with
  | some a => simp
  | none => simp [finish_eq_next]

/-- A command that commits first either ends with `OK` or meets a pending byte above MEM. -/
theorem commitThen_of_inside {k : State → State} {s : State} (h : s.bw.outside = none) :
    commitThen k s = .next { k (commit s) with status := .ok } := commitThen_eq_next.2 ⟨h, rfl⟩

/-! ### Pending bytes -/

theorem mem_pendingBytes {w : BwUnit} {a : Nat} :
    a ∈ w.pendingBytes ↔ ∃ kb ∈ w.pending, streamByte w.cur.buf.toNat kb.1 = a := by
  simp [BwUnit.pendingBytes]

theorem isPending_iff {w : BwUnit} {a : Nat} :
    w.isPending a = true ↔ ∃ kb ∈ w.pending, streamByte w.cur.buf.toNat kb.1 = a := by
  simp [BwUnit.isPending, BwUnit.pendingBytes]

/-- A range holds a pending byte where one of its bytes is pending. -/
theorem pendingIn_iff {w : BwUnit} {lo hi : Nat} :
    w.pendingIn lo hi = true ↔ ∃ a, lo ≤ a ∧ a < hi ∧ w.isPending a = true := by
  simp only [BwUnit.pendingIn, List.any_eq_true, isPending_iff, mem_pendingBytes, Bool.and_eq_true, decide_eq_true_eq]
  constructor
  · rintro ⟨a, ⟨kb, hkb, rfl⟩, h1, h2⟩
    exact ⟨_, h1, h2, kb, hkb, rfl⟩
  · rintro ⟨a, h1, h2, kb, hkb, rfl⟩
    exact ⟨_, ⟨kb, hkb, rfl⟩, h1, h2⟩

theorem pendingIn_eq_false {w : BwUnit} {lo hi : Nat} :
    w.pendingIn lo hi = false ↔ ∀ a, lo ≤ a → a < hi → w.isPending a = false := by
  rw [← Bool.not_eq_true, pendingIn_iff]
  simp

/-- No pending byte lies above MEM. -/
theorem outside_eq_none {w : BwUnit} :
    w.outside = none ↔ ∀ kb ∈ w.pending, streamByte w.cur.buf.toNat kb.1 < memSize := by
  simp only [BwUnit.outside, List.find?_eq_none, mem_pendingBytes, decide_eq_true_eq]
  constructor
  · intro h kb hkb
    have := h _ ⟨kb, hkb, rfl⟩
    omega
  · rintro h a ⟨kb, hkb, rfl⟩
    have := h kb hkb
    omega

/-! ### The commit -/

@[simp] theorem commitMem_nil (m : Memory) (buf : Nat) : commitMem m buf [] = m := rfl

@[simp] theorem commitMem_cons (m : Memory) (buf : Nat) (kb : Nat × Bool) (p : List (Nat × Bool)) :
    commitMem m buf (kb :: p) = commitMem (commitBit buf m kb) buf p := rfl

/-- A commit leaves every byte that holds no pending bit as it was (R143). -/
theorem memByte_commitMem_outside {buf x : Nat} {p : List (Nat × Bool)} (m : Memory)
    (h : ∀ kb ∈ p, streamByte buf kb.1 ≠ x) : memByte (commitMem m buf p) x = memByte m x := by
  induction p generalizing m with
  | nil => rfl
  | cons kb p ih =>
    rw [commitMem_cons, ih _ fun c hc => h c (by simp [hc])]
    exact memByte_memSet_ne _ _ (h kb (by simp))

/-- A commit inside MEM keeps the canonical form. -/
theorem wf_commitMem {buf : Nat} {p : List (Nat × Bool)} {m : Memory} (hm : Memory.wf m = true)
    (h : ∀ kb ∈ p, streamByte buf kb.1 < memSize) : Memory.wf (commitMem m buf p) = true := by
  induction p generalizing m with
  | nil => exact hm
  | cons kb p ih =>
    exact ih (wf_memSet hm (h kb (by simp)) _) fun c hc => h c (by simp [hc])

/-- The bits of a byte after one of them has been set. -/
theorem getLsbD_setBit (x : Byte) (b : Bool) {i j : Nat} (hi : i < 8) (hj : j < 8) :
    (setBit x i b).getLsbD j = if i = j then b else x.getLsbD j := by
  have aux : ∀ i j : Fin 8, (1#8 <<< i.1).getLsbD j.1 = decide (i.1 = j.1) := by decide
  have h1 : (1#8 <<< i).getLsbD j = decide (i = j) := aux ⟨i, hi⟩ ⟨j, hj⟩
  unfold setBit
  cases b
  · rw [if_neg (by simp), BitVec.getLsbD_and, BitVec.getLsbD_not, h1]
    by_cases hij : i = j <;> simp [hij, hj]
  · rw [if_pos rfl, BitVec.getLsbD_or, h1]
    by_cases hij : i = j <;> simp [hij]

/-! ### Reset -/

/-- The bytes that lose their value at reset are the only ones that change (R261, R262). -/
theorem memByte_scrambleBytes_outside {x : Nat} {addrs : List Nat} (m : Memory) (c : Nat) (h : x ∉ addrs) :
    memByte (scrambleBytes addrs m c).1 x = memByte m x := by
  induction addrs generalizing m c with
  | nil => rfl
  | cons a rest ih =>
    simp only [List.mem_cons, not_or] at h
    rw [scrambleBytes, ih _ _ h.2]
    exact memByte_memSet_ne _ _ (Ne.symm h.1)

/-- Reset keeps the canonical form of MEM. -/
theorem wf_scrambleBytes {addrs : List Nat} {m : Memory} (hm : Memory.wf m = true) (c : Nat)
    (h : ∀ a ∈ addrs, a < memSize) : Memory.wf (scrambleBytes addrs m c).1 = true := by
  induction addrs generalizing m c with
  | nil => exact hm
  | cons a rest ih => exact ih (wf_memSet hm (h a (by simp)) _) _ fun b hb => h b (by simp [hb])

end Sys2Proof.Machine
end

