-- ==== Sys2Proof/Laws/Converter.lean ====
section
/-!
SUPPORT. The converter's commands: what CONV and CONV_QUERY can answer (spec/42_converter.md R170, R171).
-/
namespace Sys2Proof.Machine

/-- The byte count a conversion reports changes `RES0` and the count of free values only. -/
theorem countWritten_frame (m : Nat) (s : State) :
    countWritten m s = { s with res0 := (countWritten m s).res0, freeCount := (countWritten m s).freeCount } := by
  unfold countWritten
  split <;> rfl

@[simp] theorem countWritten_mem (m : Nat) (s : State) : (countWritten m s).mem = s.mem := by
  unfold countWritten
  split <;> rfl

theorem countWritten_res0 {m : Nat} (s : State) (h : m < 2 ^ 32) : (countWritten m s).res0 = toWord m := by
  rw [countWritten, if_pos h]

/-- The memory a conversion leaves (R170). -/
@[simp] theorem converted_mem (pad : Pad14) (c : Conversion) (s : State) :
    (converted pad c s).mem =
      memWrite s.mem s.arg2.toNat (c.apply pad (memRead s.mem s.arg0.toNat s.arg1.toNat)) := by
  simp [converted]

/-- Every answer of CONV: it is turned away, or it converts (R170). -/
theorem convOn_eq_next {pad : Pad14} {f t : Nat} {s u : State} (h : convOn pad f t s = .next u) :
    (∃ e, u = { s with status := e } ∧ e.isFailure = true) ∨
      ∃ c, conversionOfCodes f t = some c ∧ ¬(contractive f t = true ∧ s.arg1.toNat % 2 = 1) ∧
        s.arg0.toNat + s.arg1.toNat ≤ memSize ∧ s.arg2.toNat + c.outLen s.arg1.toNat ≤ memSize ∧
        u = { converted pad c s with status := .ok } := by
  unfold convOn at h
  split at h
  · exact .inl ⟨_, raise_eq_next.1 h, rfl⟩
  · rename_i c hc
    simp only at h
    split at h
    · exact .inl ⟨_, raise_eq_next.1 h, rfl⟩
    split at h
    · exact .inl ⟨_, raise_eq_next.1 h, rfl⟩
    split at h
    · exact .inl ⟨_, raise_eq_next.1 h, rfl⟩
    split at h
    · exact .inl ⟨_, raise_eq_next.1 h, rfl⟩
    · rename_i h1 h2 h3 h4
      exact .inr ⟨c, hc, h1, by omega, by omega, finish_eq_next.1 h⟩

/-- CONV always answers a next state. -/
theorem convOn_next (pad : Pad14) (f t : Nat) (s : State) : ∃ u, convOn pad f t s = .next u := by
  unfold convOn
  split
  · exact ⟨_, rfl⟩
  · simp only
    split
    · exact ⟨_, rfl⟩
    split
    · exact ⟨_, rfl⟩
    split
    · exact ⟨_, rfl⟩
    split <;> exact ⟨_, rfl⟩

/-- Every answer of CONV_QUERY: it is turned away, or it reports (R171). -/
theorem execConvQuery_eq_next {f t : Nat} {s u : State} (h : execConvQuery f t s = .next u) :
    (∃ e, u = { s with status := e } ∧ e.isFailure = true) ∨
      ∃ c, conversionOfCodes f t = some c ∧
        u = { s with res0 := 1, res1 := toWord (c.outLen s.arg1.toNat), status := .ok } := by
  unfold execConvQuery at h
  split at h
  · exact .inl ⟨_, raise_eq_next.1 h, rfl⟩
  · rename_i c hc
    split at h
    · exact .inl ⟨_, raise_eq_next.1 h, rfl⟩
    · exact .inr ⟨c, hc, finish_eq_next.1 h⟩

end Sys2Proof.Machine
end

