-- ==== Sys2Proof/Laws/Cursors.lean ====
section
/-!
SUPPORT. The bit cursors: what a get and a put can answer, and what the reader's loop and the writer's loop change
(spec/41_bit_cursors.md R123 to R128, R141 to R145).
-/
namespace Sys2Proof.Machine

/-! ### The reader -/

@[simp] theorem fetchWord_cur (m : Memory) (r : BrUnit) (k : Nat) : (fetchWord m r k).cur = r.cur := by
  unfold fetchWord
  split <;> rfl

/-- The loop of a get moves no cursor field. -/
@[simp] theorem readBits_cur (m : Memory) (n : Nat) (r : BrUnit) (k v : Nat) : (readBits m n r k v).2.cur = r.cur := by
  induction n generalizing r k v with
  | zero => rfl
  | succ n ih => simp [readBits, readBit, ih]

/-- The value of a get is below `2^n` past what it began with. -/
theorem readBits_lt (m : Memory) (n : Nat) (r : BrUnit) (k v : Nat) : (readBits m n r k v).1 < 2 ^ n * (v + 1) := by
  induction n generalizing r k v with
  | zero => simp [readBits]
  | succ n ih =>
    simp only [readBits, readBit]
    refine Nat.lt_of_lt_of_le (ih _ _ _) ?_
    have h : (((fetchWord m r k).word.getLsbD (r.cur.wbitOf k)).toNat) ≤ 1 := Bool.toNat_le _
    have h2 : 2 * v + ((fetchWord m r k).word.getLsbD (r.cur.wbitOf k)).toNat + 1 ≤ 2 * (v + 1) := by omega
    calc _ ≤ 2 ^ n * (2 * (v + 1)) := Nat.mul_le_mul_left _ h2
      _ = 2 ^ (n + 1) * (v + 1) := by ring

@[simp] theorem gotField_cur (n : Nat) (put : Nat → Word) (s : State) :
    (gotField n put s).br.cur = { s.br.cur with pos := toWord (s.br.cur.pos.toNat + n) } := by
  simp [gotField]

/-- A get changes `RES0` and the reader, and nothing else. -/
theorem gotField_frame (n : Nat) (put : Nat → Word) (s : State) :
    gotField n put s = { s with res0 := (gotField n put s).res0, br := (gotField n put s).br } := rfl

/-- Every answer of a get that goes on: it is turned away, it is of no bits, or it reads its field. -/
theorem getField_eq_next {n : Nat} {put : Nat → Word} {s t : State} (h : getField n put s = .next t) :
    (∃ e, t = { s with status := e } ∧ e.isFailure = true) ∨
      (s.br.cur.bound = true ∧ n = 0 ∧ t = { s with res0 := 0, status := .ok }) ∨
      (s.br.cur.bound = true ∧ s.br.cur.fieldFits n = true ∧ n ≠ 0 ∧ preCheckFails s n = false ∧ s.br.cur.hi ≤ memSize ∧
        t = { gotField n put s with status := .ok }) := by
  unfold getField at h
  split at h
  · exact .inl ⟨_, raise_eq_next.1 h, rfl⟩
  split at h
  · exact .inl ⟨_, raise_eq_next.1 h, rfl⟩
  split at h
  · rename_i h1 _ h3
    exact .inr (.inl ⟨by simpa using h1, h3, finish_eq_next.1 h⟩)
  split at h
  · exact .inl ⟨_, raise_eq_next.1 h, rfl⟩
  split at h
  · cases h
  · rename_i h1 h2 h3 h4 h5
    exact .inr (.inr ⟨by simpa using h1, by simpa using h2, h3, by simpa using h4, by omega, finish_eq_next.1 h⟩)

/-- A get that nothing stands in the way of. -/
theorem getField_of_ready {n : Nat} {put : Nat → Word} {s : State} (hb : s.br.cur.bound = true)
    (hf : s.br.cur.fieldFits n = true) (hn : n ≠ 0) (hp : preCheckFails s n = false) (hi : s.br.cur.hi ≤ memSize) :
    getField n put s = .next { gotField n put s with status := .ok } := by
  have : ¬memSize < s.br.cur.hi := by omega
  simp [getField, hb, hf, hn, hp, this, finish]

/-- The words of a field are the ones its bits stand in (R122). -/
theorem widxOf_covers {c : Cursor} {k n w : Nat} (hn : n ≠ 0) (h1 : c.widxOf k ≤ w) (h2 : w ≤ c.widxOf (k + n - 1)) :
    ∃ x, k ≤ x ∧ x < k + n ∧ c.widxOf x = w := by
  simp only [Cursor.widxOf] at *
  by_cases h : k + c.off ≤ 32 * w
  · exact ⟨32 * w - c.off, by omega, by omega, by omega⟩
  · exact ⟨k, by omega, by omega, by omega⟩

/-- The pre-check of a get fails exactly where a byte the get must load is pending (R124). -/
theorem preCheckFails_iff {s : State} {n : Nat} (hn : n ≠ 0) :
    preCheckFails s n = true ↔ ∃ a, s.Loads n a ∧ s.bw.isPending a = true := by
  simp only [preCheckFails, wordsToLoad, wordPending, BrUnit.holds, List.any_eq_true, List.mem_filter, List.mem_range'_1,
    List.mem_range, Bool.and_eq_true, decide_eq_true_eq, Bool.not_eq_true', Bool.and_eq_false_iff, beq_eq_false_iff_ne,
    State.Loads]
  constructor
  · rintro ⟨w, ⟨⟨h1, h2⟩, h3⟩, j, hj, ⟨h4, h5⟩, h6⟩
    obtain ⟨x, hx1, hx2, rfl⟩ := widxOf_covers (c := s.br.cur) hn h1 (by omega)
    refine ⟨_, ⟨x, hx1, hx2, ?_, ?_, ?_, h4, h5⟩, h6⟩
    · rintro ⟨hv, hw⟩
      rcases h3 with h3 | h3
      · simp [hv] at h3
      · exact h3 hw
    · omega
    · omega
  · rintro ⟨a, ⟨x, hx1, hx2, h3, h4, h5, h6, h7⟩, h8⟩
    have e : s.br.cur.base + 4 * s.br.cur.widxOf x + (a - (s.br.cur.base + 4 * s.br.cur.widxOf x)) = a := by omega
    refine ⟨s.br.cur.widxOf x, ⟨⟨?_, ?_⟩, ?_⟩, a - (s.br.cur.base + 4 * s.br.cur.widxOf x), by omega, ?_⟩
    · simp only [Cursor.widxOf]
      omega
    · simp only [Cursor.widxOf]
      omega
    · cases hv : s.br.wvalid
      · exact .inl rfl
      · exact .inr fun hw => h3 ⟨hv, hw⟩
    · rw [e]
      exact ⟨⟨h6, h7⟩, h8⟩

/-! ### The writer -/

theorem putBits_zero (p : List (Nat × Bool)) (k v : Nat) : putBits p k 0 v = p := rfl

/-- The pending map after the first `j` sets of a put. -/
theorem mapGet_foldl_mapSet (p : List (Nat × Bool)) (k j : Nat) (g : Nat → Bool) (x : Nat) :
    mapGet ((List.range j).foldl (fun p i => mapSet p (k + i) (g i)) p) x =
      if k ≤ x ∧ x < k + j then some (g (x - k)) else mapGet p x := by
  induction j with
  | zero => simp
  | succ j ih =>
    rw [List.range_succ, List.foldl_append]
    simp only [List.foldl_cons, List.foldl_nil, mapGet_mapSet, ih]
    by_cases h : k + j = x
    · subst h
      simp
    · by_cases h1 : k ≤ x ∧ x < k + j
      · have h2 : k ≤ x ∧ x < k + (j + 1) := by omega
        simp [h, h1, h2]
      · have h2 : ¬(k ≤ x ∧ x < k + (j + 1)) := by omega
        simp [h, h1, h2]

/-- A put keeps the canonical form of the pending map. -/
theorem rising_putBits {p : List (Nat × Bool)} (k n v : Nat) (h : rising p = true) : rising (putBits p k n v) = true := by
  unfold putBits
  generalize List.range n = l
  induction l generalizing p with
  | nil => exact h
  | cons i l ih => exact ih (rising_mapSet _ _ h)

/-- The entries of the pending map after a put lie where it put them or where they were. -/
theorem mem_putBits {p : List (Nat × Bool)} {k n v : Nat} {c : Nat × Bool} (h : c ∈ putBits p k n v) :
    c ∈ p ∨ (k ≤ c.1 ∧ c.1 < k + n) := by
  unfold putBits at h
  have : ∀ l : List Nat, (∀ i ∈ l, i < n) → ∀ p, c ∈ l.foldl (fun p i => mapSet p (k + i) (v.testBit (n - 1 - i))) p →
      c ∈ p ∨ (k ≤ c.1 ∧ c.1 < k + n) := by
    intro l
    induction l with
    | nil => exact fun _ p hc => .inl hc
    | cons i l ih =>
      intro hl p hc
      rcases ih (fun j hj => hl j (by simp [hj])) _ hc with hc | hc
      · rcases mem_mapSet hc with hc | hc
        · have := hl i (by simp)
          subst hc
          exact .inr ⟨by simp, by simpa using this⟩
        · exact .inl hc
      · exact .inr hc
  exact this _ (by simp) _ h

/-- Every answer of a put: it is turned away, or it puts its bits. -/
theorem putValue_eq_next {n v : Nat} {s t : State} (h : putValue n v s = .next t) :
    (∃ e, t = { s with status := e } ∧ e.isFailure = true) ∨
      (s.bw.cur.bound = true ∧ s.bw.cur.fieldFits n = true ∧ valueFits n v = true ∧
        t = { s with bw := putField n v s.bw, status := .ok }) := by
  unfold putValue at h
  split at h
  · exact .inl ⟨_, raise_eq_next.1 h, rfl⟩
  split at h
  · exact .inl ⟨_, raise_eq_next.1 h, rfl⟩
  split at h
  · exact .inl ⟨_, raise_eq_next.1 h, rfl⟩
  · rename_i h1 h2 h3
    exact .inr ⟨by simpa using h1, by simpa using h2, by simpa using h3, finish_eq_next.1 h⟩

/-- A put always answers a next state. -/
theorem putValue_next (n v : Nat) (s : State) : ∃ t, putValue n v s = .next t := by
  unfold putValue
  split
  · exact ⟨_, rfl⟩
  split
  · exact ⟨_, rfl⟩
  split <;> exact ⟨_, rfl⟩

/-! ### Regions -/

/-- What the region check of a bind accepts (R121). -/
theorem regionOk_eq_some {b s l e : Nat} :
    regionOk b s l = some e ↔ e = s + l ∧ s + l ≤ 2 ^ 32 - 1 ∧ regionHi b (s + l) ≤ memSize := by
  unfold regionOk
  split
  · simp
    omega
  · split
    · simp
      omega
    · simp
      omega

/-- A stream bit of a region lies in a byte of the region's byte range. -/
theorem streamByte_mem_region {buf start stop k : Nat} (h1 : start ≤ k) (h2 : k < stop) :
    regionLo buf start ≤ streamByte buf k ∧ streamByte buf k < regionHi buf stop := by
  simp only [regionLo, regionHi, streamByte, ceilDiv]
  omega

end Sys2Proof.Machine
end

