-- ==== Sys2Proof/Laws/FrameSync.lean ====
section
/-!
SUPPORT. The FrameSynchronizer: what each search and each step can answer, said once (spec/43_frame_sync.md R197 to R212).
-/
namespace Sys2Proof.Machine

variable {D : ParserDescriptor} {f g : FsUnit}

/-! ### Windows and probes -/

theorem buffered_iff {i : Nat} : buffered f i = true ↔ i + f.h.toNat ≤ f.fill := by simp [buffered]

theorem mem_win {i x : Nat} {h : HeaderInfo} : x ∈ win f i h ↔ i + winLo f h ≤ x ∧ x ≤ i + winHi f h := by
  simp only [win, List.mem_range'_1]
  omega

@[simp] theorem mem_tryFirst {x y : Nat} {l : List Nat} : y ∈ tryFirst x l ↔ y ∈ l := by
  unfold tryFirst
  split
  · rename_i h
    simp only [List.mem_cons, List.mem_filter, bne_iff_ne]
    by_cases hy : y = x
    · subst hy
      simp [h]
    · simp [hy]
  · rfl

/-- The order of `Win3` adds no candidate and drops none (R199). -/
theorem mem_win3 {p q x : Nat} {h : HeaderInfo} : x ∈ win3 f p q h ↔ x ∈ win f q h := by
  unfold win3
  split <;> simp

/-- A valid header declares no size, or one the arena can hold (R105). -/
theorem validAt_size {i : Nat} {h : HeaderInfo} (hv : validAt D f i = some h) :
    h.frameSize = 0 ∨ (f.fmin.toNat ≤ h.frameSize.toNat ∧ h.frameSize.toNat ≤ f.fmax.toNat) := by
  unfold validAt at hv
  split at hv
  · cases hv
  · split at hv
    · cases hv
    · rename_i h2
      cases hv
      simp only [sizeRejected, Bool.and_eq_true, bne_iff_ne, Bool.or_eq_true, decide_eq_true_eq, not_and, not_or,
        Nat.not_lt] at h2
      by_cases h0 : h.frameSize = 0
      · exact .inl h0
      · exact .inr ⟨(h2 h0).2, (h2 h0).1⟩

/-- The first offset of a window is at least 1 past the frame's start (R197). -/
theorem winLo_pos {h : HeaderInfo} : 1 ≤ winLo f h := by
  unfold winLo
  split
  · rename_i h0
    have : h.frameSize.toNat ≠ 0 := fun hc => h0 (BitVec.eq_of_toNat_eq (by simpa using hc))
    omega
  · omega

/-- The last offset of a valid header's window is at most `Fmax` past the frame's start (R197). -/
theorem winHi_le {h : HeaderInfo} (hs : h.frameSize = 0 ∨ h.frameSize.toNat ≤ f.fmax.toNat) : winHi f h ≤ f.fmax.toNat := by
  unfold winHi
  split
  · rename_i h0
    have : h.frameSize.toNat ≤ f.fmax.toNat := hs.resolve_left h0
    omega
  · split <;> omega

/-! ### Searches -/

/-- The loop over candidate 3 ends well only at a header that compares with both others (R200). -/
theorem search3_found {h1 h2 : HeaderInfo} {l : List Nat} (h : search3 D f h1 h2 l = .found ()) :
    ∃ r ∈ l, buffered f r = true ∧ ∃ h3, validAt D f r = some h3 ∧ D.compare h1 h3 = true ∧ D.compare h2 h3 = true := by
  induction l with
  | nil => simp [search3] at h
  | cons r rs ih =>
    unfold search3 at h
    split at h
    · cases h
    rename_i hb
    split at h
    · obtain ⟨x, hx, hrest⟩ := ih h
      exact ⟨x, by simp [hx], hrest⟩
    · rename_i h3 hv
      split at h
      · rename_i hc
        simp only [Bool.and_eq_true] at hc
        exact ⟨r, by simp, by simpa using hb, h3, hv, hc⟩
      · obtain ⟨x, hx, hrest⟩ := ih h
        exact ⟨x, by simp [hx], hrest⟩

/-- The loop over candidate 2 ends well only at a header that compares with candidate 1 and has a candidate 3 (R200). -/
theorem search2_found {p q : Nat} {h1 : HeaderInfo} {l : List Nat} (h : search2 D f p h1 l = .found q) :
    q ∈ l ∧ buffered f q = true ∧
      ∃ h2, validAt D f q = some h2 ∧ D.compare h1 h2 = true ∧ search3 D f h1 h2 (win3 f p q h2) = .found () := by
  induction l with
  | nil => simp [search2] at h
  | cons x xs ih =>
    unfold search2 at h
    split at h
    · cases h
    rename_i hb
    split at h
    · exact ⟨by simp [(ih h).1], (ih h).2⟩
    · rename_i h2 hv
      split at h
      · exact ⟨by simp [(ih h).1], (ih h).2⟩
      · rename_i hc
        split at h
        · cases h
        · rename_i hs
          cases h
          exact ⟨by simp, by simpa using hb, h2, hv, by simpa using hc, hs⟩
        · exact ⟨by simp [(ih h).1], (ih h).2⟩

/-- The loop for the next free-format header ends well only at one that compares (R210). -/
theorem searchNext_found {j : Nat} {h0 : HeaderInfo} {l : List Nat} (h : searchNext D f h0 l = .found j) :
    j ∈ l ∧ buffered f j = true ∧ ∃ h', validAt D f j = some h' ∧ D.compare h0 h' = true := by
  induction l with
  | nil => simp [searchNext] at h
  | cons x xs ih =>
    unfold searchNext at h
    split at h
    · cases h
    rename_i hb
    split at h
    · exact ⟨by simp [(ih h).1], (ih h).2⟩
    · rename_i h' hv
      split at h
      · rename_i hc
        cases h
        exact ⟨by simp, by simpa using hb, h', hv, hc⟩
      · exact ⟨by simp [(ih h).1], (ih h).2⟩

/-- A search that needs more input met a candidate whose probe is not buffered. -/
theorem search3_need {h1 h2 : HeaderInfo} {l : List Nat} (h : search3 D f h1 h2 l = .need) :
    ∃ r ∈ l, buffered f r = false := by
  induction l with
  | nil => simp [search3] at h
  | cons r rs ih =>
    unfold search3 at h
    split at h
    · rename_i hb
      exact ⟨r, by simp, by simpa using hb⟩
    · have : search3 D f h1 h2 rs = .need := by
        split at h
        · exact h
        · split at h
          · cases h
          · exact h
      obtain ⟨x, hx, hb⟩ := ih this
      exact ⟨x, by simp [hx], hb⟩

/-- A search that needs more input met a candidate 2 or a candidate 3 whose probe is not buffered. -/
theorem search2_need {p : Nat} {h1 : HeaderInfo} {l : List Nat} (h : search2 D f p h1 l = .need) :
    ∃ q ∈ l, buffered f q = false ∨
      ∃ h2, validAt D f q = some h2 ∧ ∃ r ∈ win f q h2, buffered f r = false := by
  induction l with
  | nil => simp [search2] at h
  | cons x xs ih =>
    have next : search2 D f p h1 xs = .need →
        ∃ q ∈ x :: xs, buffered f q = false ∨ ∃ h2, validAt D f q = some h2 ∧ ∃ r ∈ win f q h2, buffered f r = false := by
      intro hx
      obtain ⟨q, hq, hrest⟩ := ih hx
      exact ⟨q, by simp [hq], hrest⟩
    unfold search2 at h
    split at h
    · rename_i hb
      exact ⟨x, by simp, .inl (by simpa using hb)⟩
    split at h
    · exact next h
    · rename_i h2 hv
      split at h
      · exact next h
      · split at h
        · rename_i hs
          obtain ⟨r, hr, hb⟩ := search3_need hs
          exact ⟨x, by simp, .inr ⟨h2, hv, r, mem_win3.1 hr, hb⟩⟩
        · cases h
        · exact next h

/-- The search for the next header needs more input only where a probe is not buffered. -/
theorem searchNext_need {h0 : HeaderInfo} {l : List Nat} (h : searchNext D f h0 l = .need) :
    ∃ j ∈ l, buffered f j = false := by
  induction l with
  | nil => simp [searchNext] at h
  | cons r rs ih =>
    unfold searchNext at h
    split at h
    · rename_i hb
      exact ⟨r, by simp, by simpa using hb⟩
    · have : searchNext D f h0 rs = .need := by
        split at h
        · exact h
        · split at h
          · cases h
          · exact h
      obtain ⟨x, hx, hb⟩ := ih this
      exact ⟨x, by simp [hx], hb⟩

/-- The loop over candidate 3 finds nothing exactly where every offset is buffered and holds no header that compares with both
(R200). -/
theorem search3_eq_fail {h1 h2 : HeaderInfo} {l : List Nat} :
    search3 D f h1 h2 l = .fail ↔
      ∀ r ∈ l, buffered f r = true ∧
        ∀ h3, validAt D f r = some h3 → ¬(D.compare h1 h3 = true ∧ D.compare h2 h3 = true) := by
  induction l with
  | nil => simp [search3]
  | cons r rs ih =>
    rw [List.forall_mem_cons, ← ih, search3]
    cases hb : buffered f r
    · simp
    cases hv : validAt D f r with
    | none => simp
    | some h3 => cases hc : D.compare h1 h3 <;> cases hc' : D.compare h2 h3 <;> simp [hc, hc']

/-- The loop over candidate 2 finds nothing exactly where every offset is buffered and holds no header that compares with
candidate 1 and has a candidate 3 (R200). -/
theorem search2_eq_fail {p : Nat} {h1 : HeaderInfo} {l : List Nat} :
    search2 D f p h1 l = .fail ↔
      ∀ q ∈ l, buffered f q = true ∧ ∀ h2, validAt D f q = some h2 → D.compare h1 h2 = true →
        search3 D f h1 h2 (win3 f p q h2) = .fail := by
  induction l with
  | nil => simp [search2]
  | cons q qs ih =>
    rw [List.forall_mem_cons, ← ih, search2]
    cases hb : buffered f q
    · simp
    cases hv : validAt D f q with
    | none => simp
    | some h2 =>
      cases hc : D.compare h1 h2
      · simp [hc]
      · cases hs : search3 D f h1 h2 (win3 f p q h2) <;> simp [hc, hs]

/-- The loop for the next free-format header finds nothing exactly where every offset is buffered and holds no header that
compares (R210). -/
theorem searchNext_eq_fail {h0 : HeaderInfo} {l : List Nat} :
    searchNext D f h0 l = .fail ↔ ∀ j ∈ l, NoHeaderAt D f h0 j := by
  induction l with
  | nil => simp [searchNext]
  | cons j js ih =>
    rw [List.forall_mem_cons, ← ih, searchNext, NoHeaderAt]
    cases hb : buffered f j
    · simp [← buffered_iff, hb]
    cases hv : validAt D f j with
    | none => simp [← buffered_iff, hb]
    | some h' => cases hc : D.compare h0 h' <;> simp [← buffered_iff, hb, hc]

/-- The head of a list is reached, and what is reached behind it if it meets `P`. -/
theorem reachedIn_cons {P : Nat → Prop} {a x : Nat} {l : List Nat} :
    ReachedIn (a :: l) P x ↔ x = a ∨ (P a ∧ ReachedIn l P x) := by
  constructor
  · rintro ⟨pre, post, h, hp⟩
    cases pre with
    | nil => exact .inl (List.cons.inj h).1.symm
    | cons b pre =>
      simp only [List.cons_append, List.cons.injEq] at h
      obtain ⟨rfl, rfl⟩ := h
      exact .inr ⟨hp a (by simp), pre, post, rfl, fun y hy => hp y (by simp [hy])⟩
  · rintro (rfl | ⟨ha, pre, post, rfl, hp⟩)
    · exact ⟨[], l, rfl, by simp⟩
    · exact ⟨a :: pre, post, rfl, by simpa using ⟨ha, hp⟩⟩

@[simp] theorem not_reachedIn_nil {P : Nat → Prop} {x : Nat} : ¬ReachedIn [] P x := by
  rintro ⟨pre, post, h, -⟩
  cases pre <;> cases h

/-- In a rising list an offset is reached where every smaller one of the list meets `P`. -/
theorem reachedIn_of_rising {P : Nat → Prop} {x : Nat} {l : List Nat} (h : l.Pairwise (· < ·)) :
    ReachedIn l P x ↔ x ∈ l ∧ ∀ y ∈ l, y < x → P y := by
  induction l with
  | nil => simp
  | cons a l ih =>
    obtain ⟨ha, hl⟩ := List.pairwise_cons.1 h
    rw [reachedIn_cons, ih hl, List.mem_cons, List.forall_mem_cons]
    constructor
    · rintro (rfl | ⟨hp, hx, hall⟩)
      · exact ⟨.inl rfl, fun h => absurd h (by omega), fun y hy hlt => absurd hlt (by have := ha y hy; omega)⟩
      · exact ⟨.inr hx, fun _ => hp, hall⟩
    · rintro ⟨rfl | hx, hp, hall⟩
      · exact .inl rfl
      · exact .inr ⟨hp (ha x hx), hx, hall⟩

/-- Some offset that is reached meets `Q`: the head, or, where the head meets `P`, one behind it. -/
theorem exists_reachedIn_cons {P Q : Nat → Prop} {a : Nat} {l : List Nat} :
    (∃ x, ReachedIn (a :: l) P x ∧ Q x) ↔ Q a ∨ (P a ∧ ∃ x, ReachedIn l P x ∧ Q x) := by
  simp only [reachedIn_cons, or_and_right, exists_or, exists_eq_left, and_assoc, exists_and_left]

/-- The loop over candidate 3 finds one exactly where one that is reached agrees (R200). -/
theorem search3_eq_found {h1 h2 : HeaderInfo} {l : List Nat} :
    search3 D f h1 h2 l = .found () ↔ ∃ r, ReachedIn l (ThirdFails D f h1 h2) r ∧ ThirdAgrees D f h1 h2 r := by
  induction l with
  | nil => simp [search3]
  | cons r rs ih =>
    rw [exists_reachedIn_cons, ← ih, search3, ThirdAgrees, ThirdFails, ← buffered_iff]
    cases hb : buffered f r
    · simp
    cases hv : validAt D f r with
    | none => simp
    | some h3 => cases hc : D.compare h1 h3 <;> cases hc' : D.compare h2 h3 <;> simp [hc, hc']

/-- The loop over candidate 3 needs input exactly where one that is reached is not buffered (R200, R203). -/
theorem search3_eq_need {h1 h2 : HeaderInfo} {l : List Nat} :
    search3 D f h1 h2 l = .need ↔ ∃ r, ReachedIn l (ThirdFails D f h1 h2) r ∧ f.fill < r + f.h.toNat := by
  induction l with
  | nil => simp [search3]
  | cons r rs ih =>
    rw [exists_reachedIn_cons, ← ih, search3, ThirdFails, ← buffered_iff, ← Nat.not_le, ← buffered_iff]
    cases hb : buffered f r
    · simp
    cases hv : validAt D f r with
    | none => simp
    | some h3 => cases hc : D.compare h1 h3 <;> cases hc' : D.compare h2 h3 <;> simp [hc, hc']

/-- A candidate 2 is ruled out exactly where its probe is buffered and the loop over candidate 3, if it comes to it, fails. -/
theorem rulesOut_iff {p q : Nat} {h1 : HeaderInfo} :
    RulesOut D f h1 q ↔ buffered f q = true ∧ ∀ h2, validAt D f q = some h2 → D.compare h1 h2 = true →
      search3 D f h1 h2 (win3 f p q h2) = .fail := by
  simp only [RulesOut, search3_eq_fail, mem_win3, buffered_iff, ThirdFails]

/-- A candidate 2 confirms exactly where its probe is buffered and the loop over candidate 3 finds one. -/
theorem confirms_iff {p q : Nat} {h1 : HeaderInfo} :
    Confirms D f p h1 q ↔ buffered f q = true ∧ ∃ h2, validAt D f q = some h2 ∧ D.compare h1 h2 = true ∧
      search3 D f h1 h2 (win3 f p q h2) = .found () := by
  simp only [Confirms, search3_eq_found, buffered_iff]

/-- A candidate 2 waits for input exactly where its probe is not buffered or the loop over candidate 3 needs input. -/
theorem awaits_iff {p q : Nat} {h1 : HeaderInfo} :
    Awaits D f p h1 q ↔ buffered f q = false ∨ ∃ h2, validAt D f q = some h2 ∧ D.compare h1 h2 = true ∧
      search3 D f h1 h2 (win3 f p q h2) = .need := by
  simp only [Awaits, search3_eq_need, ← Bool.not_eq_true, buffered_iff, Nat.not_le]

/-- The loop over candidate 2 finds `q` exactly where `q` is reached and confirms (R200). -/
theorem search2_eq_found {p q : Nat} {h1 : HeaderInfo} {l : List Nat} :
    search2 D f p h1 l = .found q ↔ ReachedIn l (RulesOut D f h1) q ∧ Confirms D f p h1 q := by
  induction l with
  | nil => simp [search2]
  | cons x xs ih =>
    rw [reachedIn_cons, or_and_right, and_assoc, ← ih, search2, rulesOut_iff (p := p)]
    have hx : (q = x ∧ Confirms D f p h1 q) ↔ q = x ∧ Confirms D f p h1 x := by
      constructor <;> (rintro ⟨rfl, h⟩; exact ⟨rfl, h⟩)
    rw [hx, confirms_iff]
    cases hb : buffered f x
    · simp
    cases hv : validAt D f x with
    | none => simp
    | some h2 =>
      cases hc : D.compare h1 h2
      · simp [hc]
      · cases hs : search3 D f h1 h2 (win3 f p x h2) <;> simp [hc, hs, @eq_comm _ x q]

/-- The loop over candidate 2 needs input exactly where one that is reached waits for it (R200, R203). -/
theorem search2_eq_need {p : Nat} {h1 : HeaderInfo} {l : List Nat} :
    search2 D f p h1 l = .need ↔ ∃ q, ReachedIn l (RulesOut D f h1) q ∧ Awaits D f p h1 q := by
  induction l with
  | nil => simp [search2]
  | cons x xs ih =>
    rw [exists_reachedIn_cons, ← ih, search2, rulesOut_iff (p := p), awaits_iff]
    cases hb : buffered f x
    · simp
    cases hv : validAt D f x with
    | none => simp
    | some h2 =>
      cases hc : D.compare h1 h2
      · simp [hc]
      · cases hs : search3 D f h1 h2 (win3 f p x h2) <;> simp [hc, hs]

/-! ### The raw forward scan -/

/-- A candidate 1 has failed where its probe is buffered and its search, if it is valid, finds nothing (R207). -/
theorem candidateFails_iff {p : Nat} :
    CandidateFails D f p ↔ buffered f p = true ∧ ∀ h1, validAt D f p = some h1 → search23 D f p h1 = .fail := by
  rw [buffered_iff, CandidateFails]

/-- The scan passes over a candidate 1 that has failed. -/
theorem scanFrom_of_fails {left p : Nat} (h : CandidateFails D f p) :
    scanFrom D f (left + 1) p = scanFrom D f left (p + 1) := by
  obtain ⟨hb, hf⟩ := candidateFails_iff.1 h
  rw [scanFrom, hb]
  cases hv : validAt D f p with
  | none => simp
  | some h1 => simp [hf h1 hv]

/-- The scan passes over every candidate 1 that has failed. -/
theorem scanFrom_skip {left p : Nat} (n : Nat) (h : ∀ x, p ≤ x → x < p + n → CandidateFails D f x) :
    scanFrom D f (n + left) p = scanFrom D f left (p + n) := by
  induction n generalizing p with
  | zero => simp
  | succ n ih =>
    rw [show n + 1 + left = n + left + 1 by omega, scanFrom_of_fails (h p (by omega) (by omega)),
      ih fun x hx1 hx2 => h x (by omega) (by omega), show p + 1 + n = p + (n + 1) by omega]

/-- How the scan of R207 can end well: at the first candidate 1 that is confirmed, every one before it failed, or with every
candidate below `Fmax` failed. -/
theorem scanFrom_done {left p : Nat} (h : scanFrom D f left p = .done g) :
    (g = emitDebris f ∧ ∀ x, p ≤ x → x < p + left → CandidateFails D f x) ∨
      ∃ x h1 q, p ≤ x ∧ x < p + left ∧ buffered f x = true ∧ validAt D f x = some h1 ∧ search23 D f x h1 = .found q ∧
        g = confirmFrame x h1 q f ∧ ∀ y, p ≤ y → y < x → CandidateFails D f y := by
  induction left generalizing p with
  | zero =>
    simp only [scanFrom, FsOutcome.done.injEq] at h
    exact .inl ⟨h.symm, fun x h1 h2 => by omega⟩
  | succ left ih =>
    by_cases hf : CandidateFails D f p
    · rw [scanFrom_of_fails hf] at h
      have step : ∀ {b x : Nat}, (∀ y, p + 1 ≤ y → y < b → CandidateFails D f y) → p ≤ x → x < b → CandidateFails D f x :=
        fun {b x} hb h1 h2 => by
          by_cases hx : x = p
          · exact hx ▸ hf
          · exact hb x (by omega) h2
      rcases ih h with ⟨hg, hall⟩ | ⟨x, h1, q, hx1, hx2, hb, hv, hs, hg, hall⟩
      · exact .inl ⟨hg, fun x hx1 hx2 => step hall hx1 (by omega)⟩
      · exact .inr ⟨x, h1, q, by omega, by omega, hb, hv, hs, hg, fun y hy1 hy2 => step hall hy1 hy2⟩
    · rw [candidateFails_iff] at hf
      unfold scanFrom at h
      split at h
      · simp [needAt] at h
      rename_i hb
      have hb : buffered f p = true := by simpa using hb
      split at h
      · rename_i hv
        exact absurd ⟨hb, fun h1 he => by rw [hv] at he; cases he⟩ hf
      · rename_i h1 hv
        split at h
        · simp [needAt] at h
        · rename_i q hs
          cases h
          exact .inr ⟨p, h1, q, by omega, by omega, hb, hv, hs, rfl, fun y _ _ => by omega⟩
        · rename_i hs
          exact absurd ⟨hb, fun h' he => by rw [hv] at he; cases he; exact hs⟩ hf

/-- The scan of R207 ends in `need` only at a candidate 1 that lacks buffered bytes for itself or for its search. -/
theorem scanFrom_need {left p : Nat} (h : scanFrom D f left p = .need g) :
    ∃ x, p ≤ x ∧ x < p + left ∧ g = { f with scanPos := toWord x } ∧
      (buffered f x = false ∨ ∃ h1, validAt D f x = some h1 ∧ search23 D f x h1 = .need) := by
  induction left generalizing p with
  | zero => simp [scanFrom] at h
  | succ left ih =>
    have next : scanFrom D f left (p + 1) = .need g →
        ∃ x, p ≤ x ∧ x < p + (left + 1) ∧ g = { f with scanPos := toWord x } ∧
          (buffered f x = false ∨ ∃ h1, validAt D f x = some h1 ∧ search23 D f x h1 = .need) := fun hn => by
      obtain ⟨x, hx1, hx2, hrest⟩ := ih hn
      exact ⟨x, by omega, by omega, hrest⟩
    unfold scanFrom at h
    split at h
    · rename_i hb
      simp only [needAt, FsOutcome.need.injEq] at h
      exact ⟨p, by omega, by omega, h.symm, .inl (by simpa using hb)⟩
    split at h
    · exact next h
    · rename_i h1 hv
      split at h
      · rename_i hs
        simp only [needAt, FsOutcome.need.injEq] at h
        exact ⟨p, by omega, by omega, h.symm, .inr ⟨h1, hv, hs⟩⟩
      · cases h
      · exact next h

/-! ### One step of the FS -/

/-- Every output of the FS (R207 to R212): the debris of a failed scan, a confirmed first frame, or a frame of the fast path.
The scan runs on the unit as it stands, or desynchronized at offset 0. -/
theorem fsStep_done (h : fsStep D f = .done g) :
    (∃ u, (u = f ∧ f.sync = false ∨ u = { f with sync := false, scanPos := 0 } ∧ f.sync = true) ∧ unsyncedStep D u = .done g) ∨
      ∃ h0, f.sync = true ∧ buffered f 0 = true ∧ validAt D f 0 = some h0 ∧ D.compare f.hi h0 = true ∧
        ((h0.frameSize ≠ 0 ∧ h0.frameSize.toNat ≤ f.fill ∧ g = emitSynced h0.frameSize.toNat h0 f) ∨
          ∃ j, h0.frameSize = 0 ∧ fastFree D f h0 = .found j ∧ g = emitSynced j h0 f) := by
  unfold fsStep at h
  split at h
  · rename_i hsync
    have hd (hd : desync D f = .done g) :
        ∃ u, (u = f ∧ f.sync = false ∨ u = { f with sync := false, scanPos := 0 } ∧ f.sync = true) ∧
          unsyncedStep D u = .done g := ⟨_, .inr ⟨rfl, hsync⟩, hd⟩
    unfold syncedStep at h
    split at h
    · cases h
    rename_i hb
    split at h
    · exact .inl (hd h)
    · rename_i h0 hv
      split at h
      · rename_i hc
        unfold fastPath at h
        split at h
        · rename_i h00
          split at h
          · rename_i hle
            cases h
            exact .inr ⟨h0, hsync, by simpa using hb, hv, hc, .inl ⟨h00, hle, rfl⟩⟩
          · cases h
        · rename_i h00
          split at h
          · cases h
          · rename_i j hj
            cases h
            exact .inr ⟨h0, hsync, by simpa using hb, hv, hc, .inr ⟨j, by simpa using h00, hj, rfl⟩⟩
          · exact .inl (hd h)
      · exact .inl (hd h)
  · rename_i hsync
    exact .inl ⟨f, .inl ⟨rfl, by simpa using hsync⟩, h⟩

/-- Every way the FS ends in `need` (R203, R207 to R210). -/
theorem fsStep_need (h : fsStep D f = .need g) :
    (∃ u, (u = f ∧ f.sync = false ∨ u = { f with sync := false, scanPos := 0 } ∧ f.sync = true) ∧ unsyncedStep D u = .need g) ∨
      (f.sync = true ∧ g = f ∧
        (buffered f 0 = false ∨
          ∃ h0, validAt D f 0 = some h0 ∧
            ((h0.frameSize ≠ 0 ∧ f.fill < h0.frameSize.toNat) ∨ (h0.frameSize = 0 ∧ fastFree D f h0 = .need)))) := by
  unfold fsStep at h
  split at h
  · rename_i hsync
    have hd (hd : desync D f = .need g) :
        ∃ u, (u = f ∧ f.sync = false ∨ u = { f with sync := false, scanPos := 0 } ∧ f.sync = true) ∧
          unsyncedStep D u = .need g := ⟨_, .inr ⟨rfl, hsync⟩, hd⟩
    unfold syncedStep at h
    split at h
    · rename_i hb
      cases h
      exact .inr ⟨hsync, rfl, .inl (by simpa using hb)⟩
    split at h
    · exact .inl (hd h)
    · rename_i h0 hv
      split at h
      · unfold fastPath at h
        split at h
        · rename_i h00
          split at h
          · cases h
          · rename_i hle
            cases h
            exact .inr ⟨hsync, rfl, .inr ⟨h0, hv, .inl ⟨h00, by omega⟩⟩⟩
        · rename_i h00
          split at h
          · rename_i hj
            cases h
            exact .inr ⟨hsync, rfl, .inr ⟨h0, hv, .inr ⟨by simpa using h00, hj⟩⟩⟩
          · cases h
          · exact .inl (hd h)
      · exact .inl (hd h)
  · rename_i hsync
    exact .inl ⟨f, .inl ⟨rfl, by simpa using hsync⟩, h⟩

/-- Every answer of FS_LOAD: it is turned away, or it drops, tops up and takes a step (R193). -/
theorem fsLoadOn_eq_next {P : Platform} {s t : State} (h : fsLoadOn P s = .next t) :
    (∃ e, t = { s with status := e } ∧ e.isFailure = true) ∨
      (s.fs.bound = true ∧ s.fs.inPtr.toNat ≤ s.fs.inEnd.toNat ∧
        s.bw.pendingIn s.fs.inPtr.toNat s.fs.inEnd.toNat = false ∧
        t = afterFsStep (loadStep (P.parsers s.fs.parser.toNat) s.mem s.fs) s) := by
  unfold fsLoadOn at h
  split at h
  · exact .inl ⟨_, raise_eq_next.1 h, rfl⟩
  split at h
  · exact .inl ⟨_, raise_eq_next.1 h, rfl⟩
  split at h
  · exact .inl ⟨_, raise_eq_next.1 h, rfl⟩
  · rename_i h1 h2 h3
    simp only [Host.Outcome.next.injEq] at h
    exact .inr ⟨by simpa using h1, by omega, by simpa using h3, h.symm⟩

/-- Every answer of FS_BIND: it is turned away, or it binds (R190). -/
theorem fsBindOn_eq_next {P : Platform} {i : Nat} {s t : State} (h : fsBindOn P i s = .next t) :
    (∃ e, t = { s with status := e } ∧ e.isFailure = true) ∨
      (i < P.np ∧ bindable P (P.parsers i) = true ∧
        t = { s with fs := bumpGen (boundUnit i (P.parsers i) s.fs), status := .ok }) := by
  unfold fsBindOn at h
  split at h
  · exact .inl ⟨_, raise_eq_next.1 h, rfl⟩
  split at h
  · exact .inl ⟨_, raise_eq_next.1 h, rfl⟩
  · rename_i h1 h2
    exact .inr ⟨by omega, by simpa using h2, finish_eq_next.1 h⟩

/-- What the sizes of a descriptor that can be bound are (R104). -/
theorem bindable_iff {P : Platform} {D : ParserDescriptor} :
    bindable P D = true ↔
      1 ≤ D.headerSize ∧ 1 ≤ D.maxFrameSize ∧ D.minFrameSize ≤ D.maxFrameSize ∧ capacityOf D ≤ P.arenaMax ∧
        capacityOf D < 2 ^ 32 := by
  simp only [bindable, Bool.and_eq_true, decide_eq_true_eq, and_assoc]

end Sys2Proof.Machine
end

