-- ==== Sys2Proof/Laws/Host.lean ====
section
/-!
SUPPORT. The host port and the step: what one host action can answer (spec/30_encoding.md R82, R83; spec/20_memory.md R61,
R62).
-/
namespace Sys2Proof.Machine

/-- A step with a host action on the bus is that action, taken off the bus. -/
theorem step_of_bus {s : State} {a : HostAction} {rest : List HostAction} (h : s.bus = a :: rest) :
    step s = hostAct exec a (takenFromBus rest s) := by
  simp [step, busStep, h]

/-- A step with nothing on the bus is idle. -/
theorem step_idle {s : State} (h : s.bus = []) : step s = .next s := by simp [step, busStep, h]

/-- A host write to a register other than `CMD` changes the five writable registers only (R83). -/
theorem writeReg_cases (s : State) (off v : Word) :
    writeReg s off v = s ∨ writeReg s off v = { s with arg0 := v } ∨ writeReg s off v = { s with arg1 := v } ∨
      writeReg s off v = { s with arg2 := v } ∨ writeReg s off v = { s with fs := { s.fs with inPtr := v } } ∨
      writeReg s off v = { s with fs := { s.fs with inEnd := v } } := by
  unfold writeReg
  split <;> simp

/-- A host read of the arena changes the host's side only. -/
theorem readArena_cases (i : Word) (s : State) :
    ∃ v c, readArena i s = { s with hostData := v, freeCount := c } := by
  unfold readArena
  split
  · exact ⟨_, s.freeCount, rfl⟩
  split
  · exact ⟨_, s.freeCount + 1, rfl⟩
  · exact ⟨_, s.freeCount, rfl⟩

/-- A host read of MEM changes the host's side only. -/
theorem hostMemRead_cases (a : Word) (s : State) :
    ∃ v c, hostMemRead a s = { s with hostData := v, freeCount := c } := by
  unfold hostMemRead
  split
  · exact ⟨_, s.freeCount + 1, rfl⟩
  · exact ⟨_, s.freeCount, rfl⟩

/-- A host write of MEM changes one byte and the count of free values. -/
theorem hostMemWrite_cases (a : Word) (b : Byte) (s : State) :
    ∃ x c, hostMemWrite a b s = { s with mem := memSet s.mem a.toNat x, freeCount := c } := by
  unfold hostMemWrite
  split
  · exact ⟨_, s.freeCount + 1, rfl⟩
  · exact ⟨_, s.freeCount, rfl⟩

/-- A command word that is decoded runs its command; one that is rejected raises `ILLEGAL_COMMAND`. -/
theorem runCommand_cases (run : Instr → State → Result) (w : Word) (s : State) :
    (∃ i, decode w = .command i ∧ runCommand run w s = run i s) ∨
      (∃ r, decode w = .rejected r ∧ runCommand run w s = .next { s with status := .illegalCommand }) := by
  unfold runCommand
  cases h : decode w with
  | command i => exact .inl ⟨i, rfl, rfl⟩
  | rejected r => exact .inr ⟨r, rfl, rfl⟩

end Sys2Proof.Machine
end

