-- ==== Sys2Proof/Laws/PerInstr.lean ====
section
/-!
SUPPORT. One fact of every command as syntax: the word the encoder makes has the bits its row of the opcode map fixes
(spec/30_encoding.md R87).
-/
namespace Sys2Proof.Laws.EncodedWordMatchesRow

/-- The word of a well-formed command, under the mask of the fields it uses, is its opcode. -/
def Statement (i : Instr) : Prop := i.wf = true → encode i &&& maskOf i.used = toWord i.opcode

/-- An `IMM8` command: every value of the field leaves the masked bits alone. -/
theorem ofImm8 (o : Fin 256) (n : Nat) (h : n < 256) : toWord (o.1 + 256 * n) &&& maskOf .imm8 = toWord o.1 := by
  have ho := o.2
  have e1 : toWord (o.1 + 256 * n) = toWord n <<< 8 ||| toWord o.1 := by
    apply BitVec.eq_of_toNat_eq
    rw [BitVec.toNat_or, BitVec.toNat_shiftLeft]
    simp only [BitVec.toNat_ofNat]
    rw [Nat.mod_eq_of_lt (by omega), Nat.mod_eq_of_lt (by omega : n < 2 ^ 32), Nat.mod_eq_of_lt (by omega : o.1 < 2 ^ 32)]
    rw [Nat.shiftLeft_eq, Nat.mod_eq_of_lt (by omega), ← Nat.shiftLeft_eq, ← Nat.shiftLeft_add_eq_or_of_lt (by omega),
      Nat.shiftLeft_eq]
    omega
  rw [e1]
  apply BitVec.eq_of_getLsbD_eq
  intro i hi
  have hm : ∀ j : Fin 32, (maskOf .imm8).getLsbD j.1 = !(decide (8 ≤ j.1) && decide (j.1 < 16)) := by decide
  have hmi := hm ⟨i, hi⟩
  simp only at hmi
  rw [BitVec.getLsbD_and, BitVec.getLsbD_or, BitVec.getLsbD_shiftLeft, hmi]
  simp only [BitVec.getLsbD_ofNat, hi, decide_true, Bool.true_and]
  by_cases h8 : i < 8
  · simp [h8]
  · have h0 : o.1.testBit i = false := Nat.testBit_lt_two_pow (Nat.lt_of_lt_of_le ho
      (by simpa using Nat.pow_le_pow_right (n := 2) (by omega) (by omega : 8 ≤ i)))
    by_cases h16 : i < 16
    · have h8' : 8 ≤ i := by omega
      simp [h8', h16, h0]
    · have hn : n.testBit (i - 8) = false := Nat.testBit_lt_two_pow (Nat.lt_of_lt_of_le h
        (by simpa using Nat.pow_le_pow_right (n := 2) (by omega) (by omega : 8 ≤ i - 8)))
      simp [h0, hn]

/-- A `FROM`/`TO` command: every pair of codes leaves the masked bits alone. -/
theorem ofCodes (o : Nat) (ho : o = 0x10 ∨ o = 0x11) (f t : Nat) (hf : f < 8) (ht : t < 8) :
    toWord (o + (65536 * f + 524288 * t)) &&& maskOf .fromTo = toWord o := by
  have key : ∀ b : Bool, ∀ f t : Fin 8,
      toWord ((if b then 0x10 else 0x11) + (65536 * f.1 + 524288 * t.1)) &&& maskOf .fromTo =
        toWord (if b then 0x10 else 0x11) := by decide
  rcases ho with rfl | rfl
  · exact key true ⟨f, hf⟩ ⟨t, ht⟩
  · exact key false ⟨f, hf⟩ ⟨t, ht⟩

theorem fitsImm8_iff {n : Nat} : fitsImm8 n = true ↔ n < 256 := by simp [fitsImm8]

theorem fitsCodes_iff {f t : Nat} : (fitsCode f && fitsCode t) = true ↔ f < 8 ∧ t < 8 := by simp [fitsCode]

theorem fsBind (pidx : Nat) : Statement (.fsBind pidx) := fun h => ofImm8 ⟨0x01, by decide⟩ pidx (fitsImm8_iff.1 h)
theorem fsUnbind : Statement .fsUnbind := fun _ => by decide
theorem fsReset : Statement .fsReset := fun _ => by decide
theorem fsLoad : Statement .fsLoad := fun _ => by decide
theorem fsFlush : Statement .fsFlush := fun _ => by decide
theorem conv (f t : Nat) : Statement (.conv f t) := fun h =>
  ofCodes 0x10 (.inl rfl) f t (fitsCodes_iff.1 h).1 (fitsCodes_iff.1 h).2
theorem convQuery (f t : Nat) : Statement (.convQuery f t) := fun h =>
  ofCodes 0x11 (.inr rfl) f t (fitsCodes_iff.1 h).1 (fitsCodes_iff.1 h).2
theorem brBind : Statement .brBind := fun _ => by decide
theorem brGet (n : Nat) : Statement (.brGet n) := fun h => ofImm8 ⟨0x21, by decide⟩ n (fitsImm8_iff.1 h)
theorem brGets (n : Nat) : Statement (.brGets n) := fun h => ofImm8 ⟨0x22, by decide⟩ n (fitsImm8_iff.1 h)
theorem brGetb : Statement .brGetb := fun _ => by decide
theorem brSeek : Statement .brSeek := fun _ => by decide
theorem brUnbind : Statement .brUnbind := fun _ => by decide
theorem bwBind : Statement .bwBind := fun _ => by decide
theorem bwPut (n : Nat) : Statement (.bwPut n) := fun h => ofImm8 ⟨0x31, by decide⟩ n (fitsImm8_iff.1 h)
theorem bwPutb : Statement .bwPutb := fun _ => by decide
theorem bwSeek : Statement .bwSeek := fun _ => by decide
theorem bwFlush : Statement .bwFlush := fun _ => by decide
theorem bwClose : Statement .bwClose := fun _ => by decide

end Sys2Proof.Laws.EncodedWordMatchesRow
end

