-- ==== Sys2Proof/Tests/Slice0.lean ====
section
/-!
SUPPORT. Tests of the model on fixed values, each expected result taken from spec/95_test_vectors.md (the part is named) or
worked out by hand from a rule, and a witness for every obligation that has hypotheses.
-/
namespace Sys2Proof.Tests
open Sys2Proof Sys2Proof.Machine

set_option Elab.async false

/-! ### WellFormed: each check refuses an ill-formed term -/

theorem test_wf_imm8_fsBind : (Instr.fsBind 256).wf = false := by decide
theorem test_wf_imm8_brGet : (Instr.brGet 256).wf = false := by decide
theorem test_wf_imm8_brGets : (Instr.brGets 256).wf = false := by decide
theorem test_wf_imm8_bwPut : (Instr.bwPut 256).wf = false := by decide
theorem test_wf_from_conv : (Instr.conv 8 0).wf = false := by decide
theorem test_wf_to_conv : (Instr.conv 0 8).wf = false := by decide
theorem test_wf_from_convQuery : (Instr.convQuery 8 0).wf = false := by decide
theorem test_wf_to_convQuery : (Instr.convQuery 0 8).wf = false := by decide
theorem test_wf_largest_operands :
    (Instr.fsBind 255).wf = true ∧ (Instr.brGet 255).wf = true ∧ (Instr.conv 7 7).wf = true := by decide

/-! ### Decoding: words written out field by field, RSVD TO FROM IMM8 OPC (R80, R85) -/

theorem test_decode_fsBind : decode 0b0000000000_000_000_00000101_00000001#32 = .command (.fsBind 5) := by decide
theorem test_decode_fsUnbind : decode 0b0000000000_000_000_00000000_00000010#32 = .command .fsUnbind := by decide
theorem test_decode_fsReset : decode 0b0000000000_000_000_00000000_00000011#32 = .command .fsReset := by decide
theorem test_decode_fsLoad : decode 0b0000000000_000_000_00000000_00000100#32 = .command .fsLoad := by decide
theorem test_decode_fsFlush : decode 0b0000000000_000_000_00000000_00000101#32 = .command .fsFlush := by decide
theorem test_decode_conv : decode 0b0000000000_011_000_00000000_00010000#32 = .command (.conv 0 3) := by decide
theorem test_decode_convQuery : decode 0b0000000000_001_100_00000000_00010001#32 = .command (.convQuery 4 1) := by decide
theorem test_decode_brBind : decode 0b0000000000_000_000_00000000_00100000#32 = .command .brBind := by decide
theorem test_decode_brGet : decode 0b0000000000_000_000_00010000_00100001#32 = .command (.brGet 16) := by decide
theorem test_decode_brGets : decode 0b0000000000_000_000_00010100_00100010#32 = .command (.brGets 20) := by decide
theorem test_decode_brGetb : decode 0b0000000000_000_000_00000000_00100011#32 = .command .brGetb := by decide
theorem test_decode_brSeek : decode 0b0000000000_000_000_00000000_00100100#32 = .command .brSeek := by decide
theorem test_decode_brUnbind : decode 0b0000000000_000_000_00000000_00100101#32 = .command .brUnbind := by decide
theorem test_decode_bwBind : decode 0b0000000000_000_000_00000000_00110000#32 = .command .bwBind := by decide
theorem test_decode_bwPut : decode 0b0000000000_000_000_11111111_00110001#32 = .command (.bwPut 255) := by decide
theorem test_decode_bwPutb : decode 0b0000000000_000_000_00000000_00110010#32 = .command .bwPutb := by decide
theorem test_decode_bwSeek : decode 0b0000000000_000_000_00000000_00110011#32 = .command .bwSeek := by decide
theorem test_decode_bwFlush : decode 0b0000000000_000_000_00000000_00110100#32 = .command .bwFlush := by decide
theorem test_decode_bwClose : decode 0b0000000000_000_000_00000000_00110101#32 = .command .bwClose := by decide

/-- L2-E: the words that are no command. -/
theorem test_decode_rejects :
    decode 0x00000000#32 = .rejected (.unknownOpcode 0) ∧ decode 0x000000FF#32 = .rejected (.unknownOpcode 255) ∧
      decode 0x00400010#32 = .rejected (.unusedFieldNotZero 0x10) ∧
        decode 0x00080021#32 = .rejected (.unusedFieldNotZero 0x21) := by decide

/-- L3: command words the assembly lines of the programs P1 to P3 show. -/
theorem test_encode_lines :
    encode (.conv 3 0) = 0x00030010 ∧ encode (.conv 2 0) = 0x00020010 ∧ encode (.bwPut 20) = 0x00001431 ∧
      encode (.brGet 14) = 0x00000E21 := by decide

theorem test_table_word : decodeTableWord 32 0x00000E21 = some (.brGet 14) ∧ decodeTableWord 32 0x00000104 = none := by decide

/-! ### Helpers -/

/-- The bytes of a list of numbers. -/
def bytes (l : List Nat) : List Byte := l.map (BitVec.ofNat 8)

/-- The memory whose bytes from `a` up are `bs`, nothing else listed. -/
def memOf (a : Nat) (bs : List Nat) : Memory := memWrite [] a (bytes bs)

/-- The outcome is a next state that meets `p`. -/
def nextIs (o : Result) (p : State → Bool) : Bool :=
  match o with
  | .next t => p t
  | .fault _ => false
  | .refused _ => false

/-- TEST8 of 95_test_vectors.md, section 0. -/
def test8 : ParserDescriptor where
  headerSize := 8
  minFrameSize := 8
  maxFrameSize := 64
  parse b :=
    if b.getD 0 0 = 0xA5 ∧ b.getD 1 0 = 0x5A ∧ b.getD 3 0 = 0 then
      some
        { format := 0x54455354, chmask := 3, srate := 48000, relation := (b.getD 2 0).setWidth 32
          frameSize := toWord ((b.getD 4 0).toNat * 256 + (b.getD 5 0).toNat), scanSize := 0, nsamples := 256
          spdifType := 0, bsType := 0 }
    else none
  compare a b := a.format == b.format && a.relation == b.relation && a.srate == b.srate
  canParse t := t == 0x54455354

/-- The platform of the vectors: `NP = 1`, `ARENA_MAX = 200`, `PAD14 = ZERO`. -/
def platform8 : Platform := { npLess1 := 0, parsers := fun _ => test8, arenaMaxLess1 := 199, pad14 := .zero }

/-- `Frame(sid, fs, size, ctr)` of 95_test_vectors.md, its payload zero. -/
def frame8 (sid fs size ctr : Nat) : List Byte :=
  bytes [0xA5, 0x5A, sid, 0, fs / 256, fs % 256, ctr, 0x99] ++ List.replicate (size - 8) 0

/-- A FS bound to TEST8 that holds `bs`. -/
def unit8 (bs : List Byte) : FsUnit := { boundUnit 0 test8 FsUnit.reset with arena := bs }

/-- A state in use: the FS bound and one byte buffered, the reader and the writer bound, two bits pending. -/
def demo : State :=
  { State.reset with
    arg0 := 5
    fs := { unit8 [0x11] with gen := 3, inPtr := 0x20, inEnd := 0x22 }
    br := { BrUnit.reset with cur := { bound := true, buf := 0x21, start := 3, pos := 5, stop := 40 } }
    bw :=
      { cur := { bound := true, buf := 0x30, start := 4, pos := 12, stop := 44 }, pending := [(5, true), (8, false)] }
    mem :=
      [(0x20, 0x12), (0x21, 0xA5), (0x22, 0x3C), (0x23, 0xFF), (0x24, 0x01), (0x25, 0x80), (0x30, 0xEE), (0x31, 0xEE)] }

/-- `demo` with the host action `a` next. -/
def demoWith (a : HostAction) : State := { demo with bus := [a] }

/-- The reader of L2-R: MEM[0x1001..0x1006] = A5 3C FF 01 80 7E, bound at stream bit 0, 48 bits, positioned at `pos`. -/
def reader (pos : Word) : State :=
  { State.reset with
    br := { BrUnit.reset with cur := { bound := true, buf := 0x1001, start := 0, pos := pos, stop := 48 } }
    mem := memOf 0x1001 [0xA5, 0x3C, 0xFF, 0x01, 0x80, 0x7E] }

/-- The writer of L2-W: MEM[0x2002..0x2009] = EE × 8, bound at stream bits 4 to 43, positioned at `pos`, `p` pending. -/
def writer (pos arg0 : Word) (p : List (Nat × Bool)) : State :=
  { State.reset with
    arg0 := arg0
    bw := { cur := { bound := true, buf := 0x2002, start := 4, pos := pos, stop := 44 }, pending := p }
    mem := memOf 0x2002 [0xEE, 0xEE, 0xEE, 0xEE, 0xEE, 0xEE, 0xEE, 0xEE] }

/-- The pending bits of L2-W after its steps 1 to 4. -/
def fourPuts : List (Nat × Bool) := putBits (putBits (putBits (putBits [] 4 3 5) 7 8 0xC3) 15 1 1) 16 20 0xABCDE

/-- A converter's state: `bs` at 0x100, the arguments written. -/
def converting (bs : List Nat) (src n dst : Word) : State := withArgs src n dst { State.reset with mem := memOf 0x100 bs }

/-! ### The FrameSynchronizer -/

/-- L2-F, fs.bind 0. -/
theorem test_fsBind_latches :
    nextIs (fsBindOn platform8 0 State.reset) (fun t =>
      t.status == .ok && fsStateWord t.fs == 1 && t.fs.cap == 200 && t.fs.h == 8 && t.fs.fmin == 8 && t.fs.fmax == 64 &&
        t.fs.gen == 1) = true := by decide +kernel

/-- L2-F, fs.bind 1 with NP = 1. -/
theorem test_fsBind_bad_index :
    nextIs (fsBindOn platform8 1 State.reset) (fun t => t == { State.reset with status := .badParserParams }) = true := by
  decide +kernel

/-- L2-F: fs.unbind releases the arena and clears FS_CAP and FS_COUNT. -/
theorem test_fsUnbind :
    nextIs (execFsUnbind { demo with fs := { demo.fs with count := 1 } })
      (fun t => fsStateWord t.fs == 0 && t.fs.cap == 0 && t.fs.count == 0 && t.fs.gen == 4) = true := by decide +kernel

/-- L2-F: fs.reset before any bind gives OK with FS_GEN = 1. -/
theorem test_fsReset_unbound :
    nextIs (execFsReset State.reset) (fun t => t.status == .ok && t.fs.gen == 1) = true := by decide +kernel

/-- L1-1, load 1: candidates at 0, 64 and 128. -/
theorem test_fsLoad_confirms :
    nextIs
      (fsLoadOn platform8
        { State.reset with fs := unit8 (frame8 1 64 64 0 ++ frame8 1 64 64 1 ++ frame8 1 64 64 2) })
      (fun t =>
        t.status == .ok && t.fs.result == .frame && t.fs.debris == ⟨0, 0⟩ && t.fs.frame == ⟨0, 64⟩ && t.fs.count == 1 &&
          fsStateWord t.fs == 7 && t.fs.hi.relation == 1) = true := by decide +kernel

/-- L2-F, V-FS-7, first output: a header that declares 100 > Fmax is rejected, and Fmax bytes of debris come out. -/
theorem test_fsLoad_debris :
    nextIs (fsLoadOn platform8 { State.reset with fs := unit8 (frame8 8 100 64 0 ++ List.replicate 136 0) })
      (fun t =>
        t.status == .ok && t.fs.result == .debris && t.fs.debris == ⟨0, 64⟩ && t.fs.frame == ⟨0, 0⟩ && t.fs.count == 0) =
      true := by decide +kernel

/-- L2-F, V-FS-5: free-format frames of 40 bytes, the header declaring no size. -/
theorem test_fsLoad_free_format :
    fsStep test8 (unit8 (frame8 5 0 40 0 ++ frame8 5 0 40 1 ++ frame8 5 0 40 2)) =
      .done
        (confirmFrame 0 ⟨0x54455354, 3, 48000, 5, 0, 0, 256, 0, 0⟩ 40
          (unit8 (frame8 5 0 40 0 ++ frame8 5 0 40 1 ++ frame8 5 0 40 2))) := by decide +kernel

/-- R194: what is buffered comes out as one debris. -/
theorem test_fsFlush :
    nextIs (execFsFlush { demo with fs := { demo.fs with count := 4 } })
      (fun t => t.status == .ok && t.fs.result == .debris && t.fs.debris == ⟨0, 1⟩ && t.fs.count == 4) = true := by
  decide +kernel

/-! ### The converter -/

/-- L2-C, in place: conv3 byte,14be, 0x100, 7, 0x100. -/
theorem test_conv_in_place :
    nextIs (convOn .zero 0 3 (converting [1, 2, 3, 4, 5, 6, 7] 0x100 7 0x100))
      (fun t => t.res0 == 8 && memRead t.mem 0x100 8 == bytes [0x00, 0x40, 0x20, 0x30, 0x10, 0x14, 0x06, 0x07]) = true := by
  decide +kernel

/-- L2-C, 14le → 16le of Y. -/
theorem test_conv_contract :
    nextIs (convOn .zero 4 2 (converting [0x40, 0x00, 0x30, 0x20, 0x14, 0x10, 0x07, 0x06] 0x100 8 0x200))
      (fun t => t.res0 == 8 && memRead t.mem 0x200 8 == bytes [0x02, 0x01, 0x04, 0x03, 0x06, 0x05, 0x00, 0x07]) = true := by
  decide +kernel

/-- L2-C, PAD14 = SIGN. -/
theorem test_expand_sign :
    expand14be .sign (bytes [1, 2, 3, 4, 5, 6, 7]) = bytes [0x00, 0x40, 0xE0, 0x30, 0x10, 0x14, 0x06, 0x07] := by
  decide +kernel

/-- L2-C: conv.query byte,14le with ARG1 = 10. -/
theorem test_convQuery :
    nextIs (execConvQuery 0 4 (converting [] 0 10 0)) (fun t => t.res0 == 1 && t.res1 == 16) = true := by decide +kernel

/-- L2-C: conv.query 14le,byte with ARG1 = 9. -/
theorem test_convQuery_bad_length :
    nextIs (execConvQuery 4 0 (converting [] 0 9 0)) (fun t => t.status == .badLength) = true := by decide +kernel

/-! ### The BitReader -/

/-- L2-R: br.bind3 0x1001, 0, 48. -/
theorem test_brBind :
    nextIs (execBrBind (withArgs 0x1001 0 48 State.reset))
      (fun t => t.br.cur == { bound := true, buf := 0x1001, start := 0, pos := 0, stop := 48 }) = true := by decide +kernel

/-- L2-R: br.bind3 0xFFFFFFFF, 0, 16. -/
theorem test_brBind_above_mem :
    nextIs (execBrBind (withArgs 0xFFFFFFFF 0 16 State.reset)) (fun t => t.status == .addressRange) = true := by
  decide +kernel

/-- L2-R, step 11: 32 bits across two words of MEM. -/
theorem test_brGet_word :
    nextIs (execBrGet 32 (reader 0)) (fun t => t.res0 == 0xA53CFF01 && t.br.cur.pos == 32) = true := by decide +kernel

/-- L2-R, steps 13 and 16. -/
theorem test_brGet_past_end :
    nextIs (execBrGet 1 (reader 48)) (fun t => t.status == .outOfRangeBitAccess) &&
      nextIs (execBrGet 33 (reader 0)) (fun t => t.status == .outOfRangeBitAccess) = true := by decide +kernel

/-- L2-R, step 7. -/
theorem test_brGets_negative : nextIs (execBrGets 4 (reader 0)) (fun t => t.res0 == 0xFFFFFFFA) = true := by decide +kernel

/-- L2-R, step 8. -/
theorem test_brGets_positive :
    nextIs (execBrGets 8 (reader 4)) (fun t => t.res0 == 0x53 && t.br.cur.pos == 12) = true := by decide +kernel

/-- L2-R, step 5. -/
theorem test_brGetb : nextIs (execBrGetb (reader 16)) (fun t => t.res0 == 1 && t.br.cur.pos == 17) = true := by
  decide +kernel

/-- L2-R, steps 14 and 15. -/
theorem test_brSeek :
    nextIs (execBrSeek { reader 0 with arg0 := 49 }) (fun t => t.status == .outOfRangeBitAccess) &&
      nextIs (execBrSeek { reader 0 with arg0 := 48 }) (fun t => t.br.cur.pos == 48) = true := by decide +kernel

/-- L2-R, step 17. -/
theorem test_brUnbind :
    nextIs (execBrUnbind (reader 48)) (fun t => t.br.cur == Cursor.unbound && brStateWord t.br == 0) = true := by
  decide +kernel

/-! ### The BitWriter -/

/-- L2-W: bw.bind3 0x2002, 4, 40. -/
theorem test_bwBind :
    nextIs (execBwBind (withArgs 0x2002 4 40 State.reset))
      (fun t => t.bw.cur.pos == 4 && t.bw.cur.stop == 44 && bwStateWord t.bw == 1) = true := by decide +kernel

/-- L2-W: rebind commits. -/
theorem test_bwBind_commits :
    nextIs (execBwBind (withArgs 0x3000 0 8 (writer 36 0 fourPuts)))
      (fun t => memRead t.mem 0x2002 5 == bytes [0xEB, 0x87, 0xAB, 0xCD, 0xEE] && t.bw.cur.buf == 0x3000) = true := by
  decide +kernel

/-- L2-W, step 1. -/
theorem test_bwPut :
    nextIs (execBwPut 3 (writer 4 5 []))
      (fun t => t.bw.cur.pos == 7 && bwStateWord t.bw == 3 && t.bw.pending == [(4, true), (5, false), (6, true)]) = true := by
  decide +kernel

/-- L2-W, steps 9, 10 and 14. -/
theorem test_bwPut_refused :
    nextIs (execBwPut 3 (writer 7 8 [])) (fun t => t.status == .illegalValue) &&
      nextIs (execBwPut 0 (writer 7 1 [])) (fun t => t.status == .illegalValue) &&
        nextIs (execBwPut 33 (writer 44 1 [])) (fun t => t.status == .outOfRangeBitAccess) = true := by decide +kernel

/-- L2-W: wr ARG0, 7; bw.putb pends 1; wr ARG0, 0; bw.putb pends 0. -/
theorem test_bwPutb :
    nextIs (execBwPutb (writer 4 7 [])) (fun t => t.bw.pending == [(4, true)]) &&
      nextIs (execBwPutb (writer 4 0 [])) (fun t => t.bw.pending == [(4, false)]) = true := by decide +kernel

/-- L2-W: auto-commit on seek. -/
theorem test_bwSeek :
    nextIs (execBwSeek (writer 36 4 fourPuts))
      (fun t => memRead t.mem 0x2002 5 == bytes [0xEB, 0x87, 0xAB, 0xCD, 0xEE] && t.bw.cur.pos == 4) = true := by
  decide +kernel

/-- L2-W, step 5. -/
theorem test_bwFlush :
    nextIs (execBwFlush (writer 36 0 fourPuts))
      (fun t =>
        memRead t.mem 0x2002 8 == bytes [0xEB, 0x87, 0xAB, 0xCD, 0xEE, 0xEE, 0xEE, 0xEE] && bwStateWord t.bw == 1) =
      true := by decide +kernel

/-- L2-W: close commits. -/
theorem test_bwClose :
    nextIs (execBwClose (writer 36 0 fourPuts))
      (fun t => memRead t.mem 0x2002 4 == bytes [0xEB, 0x87, 0xAB, 0xCD] && bwStateWord t.bw == 0) = true := by
  decide +kernel

/-! ### The step -/

/-- L2-X: 0x00000000 gives ILLEGAL_COMMAND. -/
theorem test_step_illegal :
    nextIs (step (State.reset.withFetchWord 32 0)) (fun t => statusWord t.status == 8) = true := by decide +kernel

/-- R83: a host write to STATUS is ignored, and one to ARG1 is not. -/
theorem test_step_register_writes :
    nextIs (step { State.reset with bus := [.regWrite 0x004 7] }) (fun t => t.status == .ok) &&
      nextIs (step { State.reset with bus := [wrArg1 7] }) (fun t => t.arg1 == 7 && t.bus.isEmpty) = true := by
  decide +kernel

/-! ### A good state -/

theorem demo_reader_good : demo.br.Good :=
  { cur := { unbound := by decide, start_le_pos := by decide, pos_le_stop := by decide, inside := by decide }
    cached := by decide }

theorem demo_writer_good : demo.bw.Good :=
  { cur := { unbound := by decide, start_le_pos := by decide, pos_le_stop := by decide, inside := by decide }
    pending_rising := by decide
    pending_inside := by decide }

theorem demo_sizes_good : demo.fs.SizesGood :=
  { h_pos := by decide, fmax_pos := by decide, fmin_le := by decide, cap_eq := by decide, scan_lt := by decide }

theorem demo_fs_good : demo.fs.Good :=
  { unbound := fun h => absurd h (by decide)
    sizes := fun _ => demo_sizes_good
    fill_le := by decide
    views :=
      { consumed_le := by decide, covers := by decide, debris_off := by decide, frame_off := by decide
        frame_empty := by decide, is_frame := by decide, is_none := by decide }
    hi_cleared := by decide
    sync_has_hi := by decide }

theorem demo_inv : demo.Inv :=
  { mem := by decide, br := demo_reader_good, bw := demo_writer_good, fs := demo_fs_good }

/-- The host's next actions are no part of the invariant. -/
theorem demoWith_inv (a : HostAction) : (demoWith a).Inv :=
  { mem := demo_inv.mem, br := demo_inv.br, bw := demo_inv.bw, fs := demo_inv.fs }

/-! ### Witnesses: states and operands that meet the hypotheses of the obligations -/

theorem witness_EncodedCommandDecodes : (Instr.brGet 255).wf = true ∧ (Instr.convQuery 7 7).wf = true := by decide

theorem witness_DecodedWordIsTheEncoding : decode 0x0000FF21#32 = .command (.brGet 255) := by decide

theorem witness_WordIsValidIffOneRowFits :
    ⟨"BR_GET", 0x21, 0xFFFF00FF⟩ ∈ opcodeRows ∧ OpcodeRow.fits ⟨"BR_GET", 0x21, 0xFFFF00FF⟩ 0x0000FF21 = true := by decide

theorem witness_StepRunsTheDecodedCommand :
    (demoWith (.regWrite 0 0x0000FF21)).bus = .regWrite 0 0x0000FF21 :: [] ∧
      decode 0x0000FF21#32 = .command (.brGet 255) := by decide

theorem witness_PlacedCommandIsTheOneThatRuns : (Instr.conv 7 0).wf = true := by decide

theorem witness_UnfittingWordIsIllegal :
    (demoWith (.regWrite 0 0x00000104)).bus = .regWrite 0 0x00000104 :: [] ∧
      ∀ r ∈ opcodeRows, r.fits 0x00000104 = false := by decide

theorem witness_FailingCommandWritesStatusOnly :
    exec .brSeek State.reset = .next { State.reset with status := .notBound } ∧ Status.notBound.isFailure = true :=
  ⟨rfl, rfl⟩

theorem witness_CommandEndsWithItsOwnCodes : ∃ t, exec (.bwPut 3) demo = .next t ∧ t.status = .ok := ⟨_, rfl, rfl⟩

theorem witness_UnboundUnitRaisesNotBound :
    State.reset.fs.bound = false ∧ State.reset.br.cur.bound = false ∧ State.reset.bw.cur.bound = false := by decide

theorem witness_EveryStepKeepsGoodStates :
    (demoWith (command .bwFlush)).Inv ∧ ∃ t, step (demoWith (command .bwFlush)) = .next t ∧ t.bw.pending = [] :=
  ⟨demoWith_inv _, _, rfl, rfl⟩

theorem witness_GoodStateAlwaysGoesOn : demo.Inv := demo_inv

theorem witness_BoundSizesStayTheParsers_bind :
    ∃ t, fsBindOn platform8 0 State.reset = .next t ∧ t.status = .ok := ⟨_, rfl, rfl⟩

theorem witness_BoundSizesStayTheParsers_step :
    State.reset.fs.Latched Config.platform ∧ step State.reset = .next State.reset :=
  ⟨fun h => absurd h (by decide), rfl⟩

theorem witness_ResetEventRestoresResetValues :
    (demoWith .reset).Inv ∧ (demoWith .reset).bus = .reset :: [] ∧ demo.bw.isPending 0x32 = false :=
  ⟨demoWith_inv _, rfl, by decide⟩

theorem witness_RegistersReadZeroAfterReset : (0x0F0 : Word).toNat % 4 = 0 := by decide

/-- One offset for each register of the chain, and two that are none of them. -/
theorem witness_HostWritesReachFiveRegisters :
    ∀ off ∈ [0x008, 0x00C, 0x010, 0x048, 0x04C, 0x004, 0xFFFFFFFC],
      (demoWith (.regWrite (toWord off) 7)).bus = .regWrite (toWord off) 7 :: [] ∧ (toWord off).toNat % 4 = 0 ∧
        toWord off ≠ 0 := by decide +kernel

/-- Writes and reads that are not aligned or of another width, and a step with nothing on the bus. -/
theorem witness_HostWritesReachFiveRegisters_other :
    (demoWith (.regWrite 0x00A 7)).bus = .regWrite 0x00A 7 :: [] ∧ (0x00A : Word).toNat % 4 ≠ 0 ∧
      (demoWith (.regWriteOther 0x008 1 7)).bus = .regWriteOther 0x008 1 7 :: [] ∧ demo.bus = [] := by decide

theorem witness_HostReadsTheListedRegister_other :
    (demoWith (.regRead 0x00A)).bus = .regRead 0x00A :: [] ∧ (0x00A : Word).toNat % 4 ≠ 0 ∧
      (demoWith (.regReadOther 0x008 2)).bus = .regReadOther 0x008 2 :: [] := by decide

/-- Every listed offset, and the ones behind each gap of the map. -/
theorem witness_HostReadsTheListedRegister :
    ∀ off ∈ regMap.map Prod.fst ++ [0x01C, 0x03C, 0x07C, 0x0A4, 0x0AC, 0x0BC, 0x0D4, 0x0F4, 0xFFFFFFFC],
      (demoWith (.regRead (toWord off))).bus = .regRead (toWord off) :: [] ∧ (toWord off).toNat % 4 = 0 := by
  decide +kernel

/-- R82, of `demo` by hand: FS_STATE with parser 0 bound and nothing confirmed, FS_FILL, FS_HI_SRATE while no header is
confirmed, BR_POS, and BW_STATE with bits pending. -/
theorem test_regRead_demo :
    ∀ c ∈ [(0x040, 1), (0x068, 1), (0x088, 0), (0x0CC, 5), (0x0E0, 3), (0x000, 0)],
      nextIs (step (demoWith (.regRead (toWord c.1)))) (fun t => t.hostData == toWord c.2) = true := by decide +kernel

/-- `demo` has fill 1 and capacity 200: offsets 0, 1, 199 and 200 are the edges of the three clauses. -/
theorem witness_ArenaWindowShowsTheBufferedBytes :
    (∀ i ∈ [0, 1, 199, 200], (demoWith (.arenaRead (toWord i))).bus = .arenaRead (toWord i) :: []) ∧
      demo.fs.arena[(0 : Word).toNat]? = some 0x11 ∧ demo.fs.fill ≤ (1 : Word).toNat ∧
        (199 : Word).toNat < demo.fs.cap.toNat ∧ demo.fs.cap.toNat ≤ (200 : Word).toNat ∧
          (demoWith (.arenaWrite 0 7)).bus = .arenaWrite 0 7 :: [] := by decide +kernel

/-- Byte 0x20 is plain and 0x31 is pending, in a read and in a write each; bit 8 of the buffer is one of the pending ones. -/
theorem witness_PutBitsSurviveAHostWrite :
    (∀ a ∈ [0x20, 0x31], (demoWith (.memRead (toWord a))).bus = .memRead (toWord a) :: [] ∧
      (demoWith (.memWrite (toWord a) 0xFF)).bus = .memWrite (toWord a) 0xFF :: []) ∧
      demo.bw.isPending (0x20 : Word).toNat = false ∧ demo.bw.isPending (0x31 : Word).toNat = true ∧
        (demoWith (.memWrite 0x31 0xFF)).Inv ∧ (8, false) ∈ demo.bw.pending ∧ demo.bw.isPending 0x32 = false :=
  ⟨by decide +kernel, by decide, by decide, demoWith_inv _, by decide, by decide⟩

theorem witness_FsUnbindReleasesTheParser : demo.fs.bound = true := by decide

/-- A unit with bytes left behind its last output, and one with none. -/
theorem witness_FsFlushEmitsWhatIsLeft :
    demo.fs.bound = true ∧ demo.fs.arena.drop demo.fs.consumed.toNat ≠ [] ∧ (unit8 []).bound = true ∧
      (unit8 []).arena.drop (unit8 []).consumed.toNat = [] := by decide

theorem witness_FsLoadTakesInputAndEnds :
    demo.fs.bound = true ∧ demo.fs.inPtr.toNat ≤ demo.fs.inEnd.toNat ∧
      ∀ a, a < demo.fs.inEnd.toNat → demo.fs.inPtr.toNat ≤ a → demo.bw.isPending a = false := by decide +kernel

theorem witness_FsLoadChecksInOrder_input :
    let s := { demo with fs := { demo.fs with inEnd := 0x1F } }
    State.reset.fs.bound = false ∧ s.fs.bound = true ∧ s.fs.inEnd.toNat < s.fs.inPtr.toNat := by decide

theorem witness_FsLoadChecksInOrder_pending :
    let s := { demo with fs := { demo.fs with inPtr := 0x31, inEnd := 0x32 } }
    s.fs.bound = true ∧ s.fs.inPtr.toNat ≤ s.fs.inEnd.toNat ∧ s.fs.inPtr.toNat ≤ 0x31 ∧ 0x31 < s.fs.inEnd.toNat ∧
      s.bw.isPending 0x31 = true := by decide

theorem witness_FsLoadChecksInOrder_passed :
    demo.fs.bound = true ∧ demo.fs.inPtr.toNat ≤ demo.fs.inEnd.toNat ∧
      ∀ a, a < demo.fs.inEnd.toNat → demo.bw.isPending a = false := by decide +kernel

/-- One command for each case of the counter rule that the opaque platform lets run: a clearing command and another one; and
a step of each kind: the reset event, a clearing command, another command, a rejected word, host writes and idling. -/
theorem witness_FrameCounterCountsFrames :
    ((∃ t, exec .fsReset demo = .next t ∧ t.status = .ok) ∧ ∃ t, exec .fsFlush demo = .next t ∧ t.status = .ok) ∧
      (∃ t, step (demoWith .reset) = .next t) ∧
        (∃ t, step (demoWith (command .fsReset)) = .next t ∧ t.status = .ok ∧
          (demoWith (command .fsReset)).nextCommand = some .fsReset) ∧
          (∃ t, step (demoWith (command .fsLoad)) = .next t ∧ t.status = .needInput) ∧
            (∃ t, step (demoWith (.regWrite 0 0x104)) = .next t ∧ t.status = .illegalCommand ∧
              (demoWith (.regWrite 0 0x104)).nextCommand = none) ∧
              (∃ t, step (demoWith (.memWrite 0x20 7)) = .next t) ∧
                (∃ t, step (demoWith (.regWrite 0x060 7)) = .next t) ∧ ∃ t, step demo = .next t :=
  ⟨⟨⟨_, rfl, rfl⟩, _, rfl, rfl⟩, ⟨_, rfl⟩, ⟨_, rfl, rfl, rfl⟩, ⟨_, rfl, rfl⟩, ⟨_, rfl, rfl, rfl⟩, ⟨_, rfl⟩, ⟨_, rfl⟩, _, rfl⟩

/-- An FS command and another one; a step of the reset event, of an FS command, of another unit's command, of a host write
that moves the input cursor and of one to the arena. -/
theorem witness_GenerationCountsFsMutations :
    ((∃ t, exec .fsLoad demo = .next t ∧ t.status = .needInput) ∧ ∃ t, exec .bwFlush demo = .next t ∧ t.status = .ok) ∧
      (∃ t, step (demoWith .reset) = .next t ∧ (demoWith .reset).bus.head? = some .reset) ∧
        (∃ t, step (demoWith (command .fsLoad)) = .next t ∧ t.status = .needInput ∧
          (demoWith (command .fsLoad)).nextCommand = some .fsLoad) ∧
          (∃ t, step (demoWith (command .bwFlush)) = .next t ∧ t.fs.gen = demo.fs.gen) ∧
            (∃ t, step (demoWith (.regWrite 0x048 7)) = .next t ∧ t.fs.gen = demo.fs.gen ∧ t.fs.inPtr = 7) ∧
              ∃ t, step (demoWith (.arenaWrite 0 7)) = .next t ∧ t.fs.gen = demo.fs.gen :=
  ⟨⟨⟨_, rfl, rfl⟩, _, rfl, rfl⟩, ⟨_, rfl, rfl⟩, ⟨_, rfl, rfl, rfl⟩, ⟨_, rfl, rfl⟩, ⟨_, rfl, rfl, rfl⟩, _, rfl, rfl⟩

/-- The stream of the search witnesses: 3 bytes of noise and three frames that declare 64 bytes. -/
def noisyUnit : FsUnit := unit8 (bytes [1, 2, 3] ++ frame8 2 64 64 0 ++ frame8 2 64 64 1 ++ frame8 2 64 64 2)

/-- The header of `frame8 2 64`. -/
def header64 : HeaderInfo := ⟨0x54455354, 3, 48000, 2, 64, 0, 256, 0, 0⟩

/-- The header of `frame8 5 0`. -/
def headerFree : HeaderInfo := ⟨0x54455354, 3, 48000, 5, 0, 0, 256, 0, 0⟩

/-- Five free-format frames of 40 bytes. -/
def freeUnit : FsUnit :=
  unit8 (frame8 5 0 40 0 ++ frame8 5 0 40 1 ++ frame8 5 0 40 2 ++ frame8 5 0 40 3 ++ frame8 5 0 40 4)

/-- A declared size and free format, and a scan size of 0. -/
theorem witness_WindowsHoldAtMostFmaxCandidates :
    validAt test8 noisyUnit 3 = some header64 ∧ 3 + noisyUnit.h.toNat ≤ noisyUnit.fill ∧
      validAt test8 freeUnit 0 = some headerFree ∧ 0 + freeUnit.h.toNat ≤ freeUnit.fill := by decide +kernel

/-- R197, by hand: a declared size of 20 with a scan size of 23, and of 100 capped at `Fmax` = 64; free format from `Fmin` = 8
to a scan size of 10; and R198: the 1-2 interval 9 first. -/
theorem test_windows :
    let h := fun size scan : Nat => { header64 with frameSize := toWord size, scanSize := toWord scan }
    win freeUnit 40 (h 20 23) = [60, 61, 62, 63] ∧ (win freeUnit 40 (h 20 100)).length = 45 ∧
      win freeUnit 40 (h 0 10) = [48, 49, 50] ∧ win freeUnit 40 (h 0 7) = [] ∧
        win3 freeUnit 31 40 (h 0 10) = [49, 48, 50] := by decide +kernel

/-- Candidate 3 behind the header at 40 of `freeUnit`: every offset of its window is buffered. -/
theorem witness_PrimaryGuessChangesNoOutcome :
    ∀ r ∈ win freeUnit 40 headerFree, r + freeUnit.h.toNat ≤ freeUnit.fill := by decide +kernel

/-- The same window searched: the primary guess, offset 80, is found at once. -/
theorem witness_PrimaryGuessChangesNoOutcome_found :
    search3 test8 freeUnit headerFree headerFree (win3 freeUnit 0 40 headerFree) = .found () := by decide +kernel

theorem witness_ConfirmedSyncHasThreeMutualHeaders :
    noisyUnit.sync = false ∧ fsStep test8 noisyUnit = .done (confirmFrame 3 header64 67 noisyUnit) ∧
      (confirmFrame 3 header64 67 noisyUnit).result = .frame := by decide +kernel

theorem witness_DebrisNeverExceedsOneFrame_frame :
    fsStep test8 noisyUnit = .done (confirmFrame 3 header64 67 noisyUnit) ∧
      (confirmFrame 3 header64 67 noisyUnit).result = .frame := by decide +kernel

/-- Any unit bound to TEST8 and nothing more has good sizes. -/
theorem unit8_sizes_good (bs : List Byte) : (unit8 bs).SizesGood :=
  { h_pos := demo_sizes_good.h_pos, fmax_pos := demo_sizes_good.fmax_pos, fmin_le := demo_sizes_good.fmin_le
    cap_eq := demo_sizes_good.cap_eq, scan_lt := demo_sizes_good.scan_lt }

/-- A buffered candidate 1 that is not valid has failed. -/
theorem candidateFails_of_none {D : ParserDescriptor} {f : FsUnit} {x : Nat} (hb : x + f.h.toNat ≤ f.fill)
    (hv : validAt D f x = none) : CandidateFails D f x :=
  ⟨hb, fun _ he => by rw [hv] at he; cases he⟩

/-- No header stands at a buffered offset that is not valid. -/
theorem noHeaderAt_of_none {D : ParserDescriptor} {f : FsUnit} {h : HeaderInfo} {x : Nat} (hb : x + f.h.toNat ≤ f.fill)
    (hv : validAt D f x = none) : NoHeaderAt D f h x :=
  ⟨hb, fun _ he => by rw [hv] at he; cases he⟩

/-- A full arena of zeros holds no header: every candidate 1 from 0 to `Fmax - 1` = 63 fails, and the first 64 bytes come out. -/
theorem witness_DebrisNeverExceedsOneFrame_debris :
    let f := unit8 (List.replicate 200 0)
    f.SizesGood ∧ f.sync = false ∧ (∀ x, 0 ≤ x → x < f.fmax.toNat → CandidateFails test8 f x) ∧
      fsStep test8 f = .done (emitDebris f) ∧ (emitDebris f).result ≠ .frame := by
  have h : ∀ x, x < (unit8 (List.replicate 200 0)).fmax.toNat →
      x + (unit8 (List.replicate 200 0)).h.toNat ≤ (unit8 (List.replicate 200 0)).fill ∧
        validAt test8 (unit8 (List.replicate 200 0)) x = none := by decide +kernel
  refine ⟨unit8_sizes_good _, by decide +kernel, ?_, by decide +kernel, by decide +kernel⟩
  exact fun x _ hx => candidateFails_of_none (h x hx).1 (h x hx).2

/-- The three ways the first candidate 1 that has not failed ends the scan, in `noisyUnit`, where it stands at 3: its search
finds 67; one byte short of the third header its search needs input; and with 10 bytes its probe does. -/
theorem witness_DebrisNeverExceedsOneFrame_decides :
    (∀ x, x < 3 → x + 8 ≤ 10 ∧ validAt test8 noisyUnit x = none) ∧
      validAt test8 noisyUnit 3 = some header64 ∧ search23 test8 noisyUnit 3 header64 = .found 67 ∧
        (let f := { noisyUnit with arena := noisyUnit.arena.take 138 }
         validAt test8 f 3 = some header64 ∧ search23 test8 f 3 header64 = .need ∧
          (∀ x, x < 3 → validAt test8 f x = none) ∧ fsStep test8 f = .need { f with scanPos := 3 }) ∧
          let f := { noisyUnit with arena := noisyUnit.arena.take 10 }
          f.fill < 3 + f.h.toNat ∧ (∀ x, x < 3 → validAt test8 f x = none) ∧
            fsStep test8 f = .need { f with scanPos := 3 } := by decide +kernel

/-- Candidate 2 at 67 is the first of its window and confirms the header at 3: candidate 3 stands at 131. -/
theorem witness_DebrisNeverExceedsOneFrame_confirms :
    67 ∈ win noisyUnit 3 header64 ∧ (∀ x ∈ win noisyUnit 3 header64, ¬x < 67) ∧ Confirms test8 noisyUnit 3 header64 67 :=
  ⟨by decide +kernel, by decide +kernel, by decide +kernel, header64, by decide +kernel, by decide +kernel, 131,
    ⟨[], [], by decide +kernel, by simp⟩, by decide +kernel, header64, by decide +kernel, by decide +kernel, by decide +kernel⟩

/-- Free-format frames of 40 bytes of which `n` bytes are buffered. -/
def freeFirst (n : Nat) : FsUnit := { freeUnit with arena := freeUnit.arena.take n }

/-- With 88 bytes the 1-2 interval's candidate 3, at 80, agrees, though later offsets of its window are not buffered; with 87
bytes the search waits for it, though offset 48 of the window is buffered. -/
theorem test_search_interval_first :
    search23 test8 (freeFirst 88) 0 headerFree = .found 40 ∧ search23 test8 (freeFirst 87) 0 headerFree = .need ∧
      90 ∈ win (freeFirst 88) 40 headerFree ∧ 48 ∈ win (freeFirst 87) 40 headerFree := by decide +kernel

/-- The offsets 8 to 39 behind the header at 0 are ruled out and 40 is reached. -/
theorem freeFirst_reached :
    ∀ n ∈ [87, 88], 40 ∈ win (freeFirst n) 0 headerFree ∧
      ∀ x ∈ win (freeFirst n) 0 headerFree, x < 40 → RulesOut test8 (freeFirst n) headerFree x := by
  have h : ∀ n ∈ [87, 88], 40 ∈ win (freeFirst n) 0 headerFree ∧ ∀ x ∈ win (freeFirst n) 0 headerFree, x < 40 →
      x + (freeFirst n).h.toNat ≤ (freeFirst n).fill ∧ validAt test8 (freeFirst n) x = none := by decide +kernel
  exact fun n hn => ⟨(h n hn).1, fun x hx hlt =>
    ⟨((h n hn).2 x hx hlt).1, fun h2 he => by rw [((h n hn).2 x hx hlt).2] at he; cases he⟩⟩

theorem witness_DebrisNeverExceedsOneFrame_interval : Confirms test8 (freeFirst 88) 0 headerFree 40 :=
  ⟨by decide +kernel, headerFree, by decide +kernel, by decide +kernel, 80,
    ⟨[], (win3 (freeFirst 88) 0 40 headerFree).tail, by decide +kernel, by simp⟩, by decide +kernel, headerFree,
    by decide +kernel, by decide +kernel, by decide +kernel⟩

theorem witness_DebrisNeverExceedsOneFrame_awaits : Awaits test8 (freeFirst 87) 0 headerFree 40 :=
  .inr ⟨headerFree, by decide +kernel, by decide +kernel, 80,
    ⟨[], (win3 (freeFirst 87) 0 40 headerFree).tail, by decide +kernel, by simp⟩, by decide +kernel⟩

/-- Two frames with zeros behind them. -/
def twoFrames : FsUnit := unit8 (frame8 2 64 64 0 ++ frame8 2 64 64 1 ++ List.replicate 72 0)

/-- The only candidate 2 behind the first of two frames has no candidate 3 and is ruled out. -/
theorem witness_DebrisNeverExceedsOneFrame_ruled_out :
    search23 test8 twoFrames 0 header64 = .fail ∧ ∀ q ∈ win twoFrames 0 header64, RulesOut test8 twoFrames header64 q := by
  have h3 : validAt test8 twoFrames 128 = none := by decide +kernel
  have h2 : validAt test8 twoFrames 64 = some header64 := by decide +kernel
  have w1 : win twoFrames 0 header64 = [64] := by decide +kernel
  have w2 : win twoFrames 64 header64 = [128] := by decide +kernel
  refine ⟨by decide +kernel, fun q hq => ?_⟩
  rw [w1, List.mem_singleton] at hq
  subst hq
  refine ⟨by decide +kernel, fun h he _ r hr => ?_⟩
  rw [h2] at he
  cases he
  rw [w2, List.mem_singleton] at hr
  subst hr
  exact ⟨by decide +kernel, fun h' he' => by rw [h3] at he'; cases he'⟩

/-- A synced unit with exactly one whole frame buffered, and with one byte less. -/
theorem witness_KnownSizeFrameNeedsNoLookahead :
    ∀ n ∈ [63, 64],
      let f := { unit8 ((frame8 2 64 64 0).take n) with sync := true, hi := header64, hiValid := true }
      f.sync = true ∧ f.h.toNat ≤ f.fill ∧ validAt test8 f 0 = some header64 ∧
        test8.compare f.hi header64 = true ∧ header64.frameSize ≠ 0 := by decide +kernel

/-- The synced free-format unit of the witnesses below: the frame at 0 is followed by headers at 40 and at 80. -/
def freeSynced (n : Nat) (last : Word) : FsUnit :=
  { freeUnit with arena := freeUnit.arena.take n, sync := true, hi := headerFree, hiValid := true, lastLen := last }

theorem freeSynced_header :
    ∀ c ∈ [(8, 0), (40, 40), (200, 0), (200, 40)],
      let f := freeSynced c.1 (toWord c.2)
      f.sync = true ∧ f.h.toNat ≤ f.fill ∧ validAt test8 f 0 = some headerFree ∧ test8.compare f.hi headerFree = true ∧
        headerFree.frameSize = 0 := by decide +kernel

/-- With `last_len` 40, 40 is the first offset tried and holds a header. -/
theorem witness_FreeFormatFrameTriesLastLengthFirst_last :
    40 ∈ win (freeSynced 200 40) 0 headerFree ∧
      (∀ x ∈ win (freeSynced 200 40) 0 headerFree, ¬TriedBefore (freeSynced 200 40) x 40) ∧
        NextHeaderAt test8 (freeSynced 200 40) headerFree 40 := by
  have h40 : (freeSynced 200 40).lastLen.toNat = 40 := by decide +kernel
  refine ⟨by decide +kernel, ?_, by decide +kernel, headerFree, by decide +kernel, by decide +kernel⟩
  rintro x - ⟨hne, h | h⟩
  · exact hne (h.trans h40)
  · exact h.1 h40.symm

/-- With no `last_len`, 40 is the first offset of the window, from `Fmin` = 8 up, at which a header stands. -/
theorem witness_FreeFormatFrameTriesLastLengthFirst_order :
    40 ∈ win (freeSynced 200 0) 0 headerFree ∧
      (∀ x ∈ win (freeSynced 200 0) 0 headerFree, TriedBefore (freeSynced 200 0) x 40 →
        NoHeaderAt test8 (freeSynced 200 0) headerFree x) ∧ NextHeaderAt test8 (freeSynced 200 0) headerFree 40 := by
  have hw : ∀ x ∈ win (freeSynced 200 0) 0 headerFree, 8 ≤ x := by decide +kernel
  have hn : ∀ x, x < 40 → 8 ≤ x →
      x + (freeSynced 200 0).h.toNat ≤ (freeSynced 200 0).fill ∧ validAt test8 (freeSynced 200 0) x = none := by
    decide +kernel
  have h0 : (freeSynced 200 0).lastLen.toNat = 0 := by decide +kernel
  refine ⟨by decide +kernel, ?_, by decide +kernel, headerFree, by decide +kernel, by decide +kernel⟩
  rintro x hx ⟨-, h | ⟨-, h⟩⟩
  · have := hw x hx
    omega
  · exact noHeaderAt_of_none (hn x h (hw x hx)).1 (hn x h (hw x hx)).2

/-- The offset tried first is not buffered: 40 with `last_len` 40, and 8 with none, where 40 bytes and 8 bytes are held. -/
theorem witness_FreeFormatFrameTriesLastLengthFirst_need :
    (freeSynced 40 40).fill < 40 + (freeSynced 40 40).h.toNat ∧ 40 ∈ win (freeSynced 40 40) 0 headerFree ∧
      fsStep test8 (freeSynced 40 40) = .need (freeSynced 40 40) ∧
        (freeSynced 8 0).fill < 8 + (freeSynced 8 0).h.toNat ∧ 8 ∈ win (freeSynced 8 0) 0 headerFree ∧
          fsStep test8 (freeSynced 8 0) = .need (freeSynced 8 0) := by decide +kernel

/-- A free-format header with zeros behind it to the arena's end: the window holds no header and the FS desyncs. -/
def freeAlone : FsUnit := { unit8 (frame8 5 0 200 0) with sync := true, hi := headerFree, hiValid := true }

theorem witness_FreeFormatFrameTriesLastLengthFirst_fail :
    freeAlone.sync = true ∧ freeAlone.h.toNat ≤ freeAlone.fill ∧ validAt test8 freeAlone 0 = some headerFree ∧
      test8.compare freeAlone.hi headerFree = true ∧
        ∀ j ∈ win freeAlone 0 headerFree, NoHeaderAt test8 freeAlone headerFree j := by
  have h : ∀ j ∈ win freeAlone 0 headerFree,
      j + freeAlone.h.toNat ≤ freeAlone.fill ∧ validAt test8 freeAlone j = none := by decide +kernel
  exact ⟨by decide +kernel, by decide +kernel, by decide +kernel, by decide +kernel,
    fun j hj => noHeaderAt_of_none (h j hj).1 (h j hj).2⟩

/-- A synced unit with one byte less than a header, and one whose first byte is no header's. -/
theorem witness_DesyncRescansInTheSameCommand :
    (let f := { unit8 (List.replicate 7 0) with sync := true, hi := header64, hiValid := true }
     f.sync = true ∧ f.fill < f.h.toNat) ∧
      let f := { noisyUnit with sync := true, hi := header64, hiValid := true }
      f.sync = true ∧ f.h.toNat ≤ f.fill ∧ validAt test8 f 0 = none := by decide +kernel

theorem witness_FullArenaNeverNeedsInput_step :
    (unit8 (List.replicate 200 0)).SizesGood ∧
      (unit8 (List.replicate 200 0)).fill = (unit8 (List.replicate 200 0)).cap.toNat :=
  ⟨unit8_sizes_good _, by decide +kernel⟩

theorem witness_FullArenaNeverNeedsInput_load :
    demo.Inv ∧ ∃ t, exec .fsLoad demo = .next t ∧ t.status = .needInput := ⟨demo_inv, _, rfl, rfl⟩

theorem witness_LaterBytesChangeNoDecision :
    fsStep test8 noisyUnit = .done (confirmFrame 3 header64 67 noisyUnit) := by decide +kernel

/-- Two bytes of input given in one load and in two: the header is not whole yet in either. -/
theorem witness_SplitInputGivesTheSameOutput :
    demo.Inv ∧ demo.fs.inPtr.toNat ≤ (0x21 : Word).toNat ∧ (0x21 : Word).toNat ≤ demo.fs.inEnd.toNat ∧
      ∃ t u v, exec .fsLoad { demo with fs := { demo.fs with inEnd := 0x21 } } = .next t ∧ t.status = .needInput ∧
        exec .fsLoad { t with fs := { t.fs with inEnd := demo.fs.inEnd } } = .next u ∧ exec .fsLoad demo = .next v ∧
          u.status.isFailure = false ∧ v.status.isFailure = false :=
  ⟨demo_inv, by decide, by decide, _, _, _, rfl, rfl, rfl, rfl, rfl, rfl⟩

/-- `demo` with nothing pending and `pos` the reader's position, its cache empty. -/
def quiet (pos : Word) : State :=
  { demo with bw := { demo.bw with pending := [] }, br := { demo.br with cur := { demo.br.cur with pos := pos } } }

/-- Fields of 32 bits, of no bits at the region's end, and of its last bit. -/
theorem witness_GetsReturnTheStreamField :
    ∀ c ∈ [((5 : Word), 32), (40, 0), (39, 1)],
      (quiet c.1).br.Good ∧ (quiet c.1).br.cur.bound = true ∧ (quiet c.1).CacheFresh ∧
        (∀ a, (quiet c.1).Loads c.2 a → (quiet c.1).bw.isPending a = false) ∧
          c.2 ≤ 32 ∧ (quiet c.1).br.cur.pos.toNat + c.2 ≤ (quiet c.1).br.cur.stop.toNat := by
  intro c hc
  refine ⟨?_, rfl, fun h => (nomatch h), fun _ _ => rfl, ?_, ?_⟩
  · simp only [List.mem_cons, List.not_mem_nil, or_false] at hc
    rcases hc with rfl | rfl | rfl <;>
      exact
        { cur := { unbound := by decide, start_le_pos := by decide, pos_le_stop := by decide, inside := by decide }
          cached := by decide }
  all_goals
    simp only [List.mem_cons, List.not_mem_nil, or_false] at hc
    rcases hc with rfl | rfl | rfl <;> decide

/-- The reader at 0x21 with the bytes 0x24 and 0x25 of its region pending, and its cache `r` of word and index. -/
def halfPending (valid : Bool) (widx : Word) : State :=
  { demo with
    br := { demo.br with wvalid := valid, widx := widx, word := wordAt demo.mem demo.br.cur widx.toNat }
    bw := { demo.bw with cur := { demo.bw.cur with buf := 0x24 } } }

theorem halfPending_reader_good (v : Bool) (w : Word) : (halfPending v w).br.Good :=
  { cur := demo_reader_good.cur, cached := fun _ => rfl }

theorem halfPending_pending (v : Bool) (w : Word) (a : Nat) :
    (halfPending v w).bw.isPending a = false ↔ a ≠ 0x24 ∧ a ≠ 0x25 := by
  have : (halfPending v w).bw.pendingBytes = [0x24, 0x25] := rfl
  simp only [BwUnit.isPending, this, List.any_cons, List.any_nil, Bool.or_false, Bool.or_eq_false_iff, beq_eq_false_iff_ne]
  omega

/-- Pending bytes of the region that the get need not load: 19 bits of the first word beside a pending second word, and 32 bits
of both with the second one cached. -/
theorem witness_GetsReturnTheStreamField_otherWordPending :
    ∀ c ∈ [(false, (0 : Word), 19), (true, 1, 32)],
      (halfPending c.1 c.2.1).br.Good ∧ (halfPending c.1 c.2.1).br.cur.bound = true ∧ (halfPending c.1 c.2.1).CacheFresh ∧
        (∀ a, (halfPending c.1 c.2.1).Loads c.2.2 a → (halfPending c.1 c.2.1).bw.isPending a = false) ∧ c.2.2 ≤ 32 ∧
          (halfPending c.1 c.2.1).br.cur.pos.toNat + c.2.2 ≤ (halfPending c.1 c.2.1).br.cur.stop.toNat := by
  intro c hc
  refine ⟨halfPending_reader_good _ _, rfl, fun _ => rfl, ?_, ?_, ?_⟩
  · rintro a ⟨k, h1, h2, h3, h4, h5, -, -⟩
    rw [halfPending_pending]
    have hc' : (halfPending c.1 c.2.1).br.cur = demo.br.cur := rfl
    have ho : demo.br.cur.off = 8 := by decide
    have hb : demo.br.cur.base = 0x20 := by decide
    have hp : demo.br.cur.pos.toNat = 5 := by decide
    rw [hc'] at h1 h2 h3 h4 h5
    have hw : demo.br.cur.widxOf k = (k + 8) / 32 := by rw [Cursor.widxOf, ho]
    rw [hw] at h3 h4 h5
    rw [hb] at h4 h5
    rw [hp] at h1 h2
    simp only [List.mem_cons, List.not_mem_nil, or_false] at hc
    rcases hc with rfl | rfl
    · simp only at h2
      omega
    · have h3 : ¬((k + 8) / 32 = 1) := fun h => h3 ⟨rfl, h.symm⟩
      simp only at h2
      omega
  all_goals
    simp only [List.mem_cons, List.not_mem_nil, or_false] at hc
    rcases hc with rfl | rfl <;> decide

/-- The reader with a stale word 0 (or 1) in its cache: a get that runs from it into word 1, one of word 1 alone, and one that
begins in word 0 while word 1 is the cached one. -/
theorem witness_GetsReturnTheStreamField_stale :
    ∀ c ∈ [(0, 5, 32), (0, 24, 8), (1, 5, 32)],
      let q := quiet (toWord c.2.1)
      let s := { q with br := { q.br with wvalid := true, widx := toWord c.1, word := 0 } }
      s.br.Good ∧ s.br.cur.bound = true ∧ (∀ a, s.Loads c.2.2 a → s.bw.isPending a = false) ∧ c.2.2 ≤ 32 ∧
        s.br.cur.pos.toNat + c.2.2 ≤ s.br.cur.stop.toNat := by
  intro c hc
  simp only [List.mem_cons, List.not_mem_nil, or_false] at hc
  rcases hc with rfl | rfl | rfl <;>
    exact
      ⟨{ cur := { unbound := by decide, start_le_pos := by decide, pos_le_stop := by decide, inside := by decide }
         cached := fun _ => rfl },
        rfl, fun _ _ => rfl, by decide, by decide⟩

/-- R272, by hand: with a stale word 0 of zeros cached, the get of 24 bits at stream bit 16 takes its first 8 from it and the
next 16 from MEM (01 80 at 0x24). -/
theorem test_brGet_stale_then_fresh :
    nextIs (execBrGet 24 { quiet 16 with br := { (quiet 16).br with wvalid := true, widx := 0, word := 0 } })
      (fun t => t.res0 == 0x0180 && t.br.word == 0x01800000 && t.br.widx == 1) = true := by decide +kernel

/-- A width of 33, a field one bit past the end, and seeks one below `start` (3) and one above `end` (40). -/
theorem witness_ReaderRefusesBitsOutsideTheRegion :
    demo.br.cur.bound = true ∧ 32 < 33 ∧ (quiet 40).br.cur.stop.toNat < (quiet 40).br.cur.pos.toNat + 1 ∧
      (2 : Word).toNat < demo.br.cur.start.toNat ∧ demo.br.cur.stop.toNat < (41 : Word).toNat := by decide

/-- One bit of the second word, which 0x25 stands in beside the field's own byte, with nothing and with the first word cached,
as `BR_GETB` reads it; and 32 bits from both words, the first one cached. -/
theorem witness_GetOfAPendingByteIsRefused :
    ∀ c ∈ [(false, 24, 1), (true, 24, 1), (true, 5, 32)],
      let s0 := halfPending c.1 0
      let s := { s0 with br := { s0.br with cur := { s0.br.cur with pos := toWord c.2.1 } } }
      s.br.cur.bound = true ∧ c.2.2 ≤ 32 ∧ s.br.cur.pos.toNat + c.2.2 ≤ s.br.cur.stop.toNat ∧ s.Loads c.2.2 0x25 ∧
        s.bw.isPending 0x25 = true := by
  intro c hc
  simp only [List.mem_cons, List.not_mem_nil, or_false] at hc
  rcases hc with rfl | rfl | rfl <;> exact ⟨rfl, by decide, by decide, ⟨24, by decide⟩, by decide⟩

/-- The cached word 0 covers stream bits 0 to 23 of the buffer at 0x21: a field that ends with it, and one bit. -/
theorem witness_CachedWordHidesLaterWrites :
    ∀ n ∈ [1, 19],
      let s := { demo with br := { demo.br with wvalid := true, word := 0x12A53CFF } }
      s.br.Good ∧ s.br.cur.bound = true ∧ 1 ≤ n ∧ n ≤ 32 ∧ s.br.cur.pos.toNat + n ≤ s.br.cur.stop.toNat ∧
        s.br.wvalid = true ∧ s.br.cur.widxOf s.br.cur.pos.toNat = s.br.widx.toNat ∧
          s.br.cur.widxOf (s.br.cur.pos.toNat + n - 1) = s.br.widx.toNat := by
  intro n hn
  refine ⟨{ cur := { unbound := by decide, start_le_pos := by decide, pos_le_stop := by decide, inside := by decide }
            cached := by decide }, ?_⟩
  revert n
  decide

/-- Seeks to `start` and to `end`. -/
theorem witness_BrSeekAndUnbindDropTheCache :
    demo.br.cur.bound = true ∧ demo.br.cur.start.toNat ≤ (3 : Word).toNat ∧ (40 : Word).toNat ≤ demo.br.cur.stop.toNat := by
  decide

/-- A put of 32 bits that ends at the region's end, of a value that fills its field, and of one bit. -/
theorem witness_PutsRecordTheirBits :
    demo.bw.cur.bound = true ∧ demo.bw.cur.pos.toNat + 32 ≤ demo.bw.cur.stop.toNat ∧ demo.arg0.toNat < 2 ^ 3 ∧
      demo.bw.cur.pos.toNat + 1 ≤ demo.bw.cur.stop.toNat := by decide

/-- A width of 33, a field of three bits and a single bit one past the region's end, and 8 in a field of three bits. -/
theorem witness_PutOfTooWideAValueIsRefused :
    demo.bw.cur.bound = true ∧ 32 < 33 ∧ (writer 42 0 []).bw.cur.bound = true ∧
      (writer 42 0 []).bw.cur.stop.toNat < (writer 42 0 []).bw.cur.pos.toNat + 3 ∧
        (writer 44 0 []).bw.cur.stop.toNat < (writer 44 0 []).bw.cur.pos.toNat + 1 ∧
          let s := { demo with arg0 := 8 }
          s.bw.cur.bound = true ∧ s.bw.cur.pos.toNat + 3 ≤ s.bw.cur.stop.toNat ∧ 3 < 32 ∧ 2 ^ 3 ≤ s.arg0.toNat := by decide

theorem witness_FlushCommitsExactlyThePendingBits : demo.bw.Good ∧ demo.bw.cur.bound = true :=
  ⟨demo_writer_good, by decide⟩

/-- Seeks to both ends of the region and past each; a rebind to a region that ends at the top of MEM and one past it. -/
theorem witness_SeekCloseAndRebindCommitFirst :
    demo.bw.Good ∧ demo.bw.cur.bound = true ∧ demo.bw.cur.start.toNat = 4 ∧ demo.bw.cur.stop.toNat = 44 ∧
      (0xFFFFFFFF : Word).toNat + ((0 : Word).toNat + (8 : Word).toNat + 7) / 8 ≤ 2 ^ 32 ∧
        ¬(0xFFFFFFFF : Word).toNat + ((0 : Word).toNat + (9 : Word).toNat + 7) / 8 ≤ 2 ^ 32 :=
  ⟨demo_writer_good, by decide⟩

/-- A region that ends with the last byte of MEM, one bit more, and one that ends at 2^32 bits. -/
theorem witness_FirstBwBindWritesNoMemory :
    State.reset.bw.cur.bound = false ∧
      ∀ c ∈ [(0xFFFFFFFF, 0, 8, true), (0xFFFFFFFF, 0, 9, false), (0, 1, 0xFFFFFFFF, false)],
        let s := withArgs (toWord c.1) (toWord c.2.1) (toWord c.2.2.1) State.reset
        s.bw.cur.bound = false ∧
          decide (s.arg1.toNat + s.arg2.toNat ≤ 2 ^ 32 - 1 ∧
            s.arg0.toNat + (s.arg1.toNat + s.arg2.toNat + 7) / 8 ≤ 2 ^ 32) = c.2.2.2 := by decide

theorem witness_PutThenGetReturnsTheFields :
    let fields : List (Nat × Word) := [(1, 1), (20, 0xABCDE), (11, 0x7FF)]
    demo.Inv ∧ demo.bw.cur.bound = true ∧ (∀ nv ∈ fields, 1 ≤ nv.1 ∧ nv.1 ≤ 32 ∧ nv.2.toNat < 2 ^ nv.1) ∧
      demo.bw.cur.pos.toNat + (fields.map Prod.fst).sum ≤ demo.bw.cur.stop.toNat :=
  ⟨demo_inv, by decide⟩

theorem witness_OutputLengthIsTheTables :
    conversionOfCodes 3 2 = some .contractBeSwap ∧ ¬(contractive 3 2 = true ∧ (bytes [0x3F, 0xFF]).length % 2 = 1) := by
  decide

/-- The last bit of the last word that one byte expands to; the last bit of the one byte that one word contracts to; both
bytes of the word that one byte is padded to. -/
theorem witness_ExpandedWordsCarryTheStream :
    (3 < 4 * (((bytes [0xAB]).length + 6) / 7) ∧ 13 < 14) ∧
      ((bytes [0x3F, 0xC0]).length % 2 = 0 ∧ 7 < 8 * (7 * (bytes [0x3F, 0xC0]).length / 8)) ∧
        1 < (bytes [0xAB]).length + (bytes [0xAB]).length % 2 := by decide

theorem witness_LosslessPairsRoundTrip :
    Packing.byte ∈ [Packing.byte, .w16be, .w16le] ∧ Packing.w16le ∈ [Packing.byte, .w16be, .w16le] ∧
      conversionOf .byte .w16le = some .swap ∧ conversionOf .w16le .byte = some .swap := by decide

/-- In place, and with the output right behind the source. -/
theorem witness_ConvWritesTheConvertedSource :
    ∀ dst ∈ [0x100, 0x107],
      let s := converting [1, 2, 3, 4, 5, 6, 7] 0x100 7 (toWord dst)
      let m := Conversion.expandBe.outLen s.arg1.toNat
      conversionOfCodes 0 3 = some .expandBe ∧ ¬(contractive 0 3 = true ∧ s.arg1.toNat % 2 = 1) ∧
        s.arg0.toNat + s.arg1.toNat ≤ 2 ^ 32 ∧ s.arg2.toNat + m ≤ 2 ^ 32 ∧
          (s.arg2.toNat = s.arg0.toNat ∨
            ∀ a, a < s.arg0.toNat + s.arg1.toNat → s.arg0.toNat ≤ a → ¬(s.arg2.toNat ≤ a ∧ a < s.arg2.toNat + m)) ∧
            m < 2 ^ 32 := by decide +kernel

/-- Nothing is pending in the states of the witness above. -/
theorem witness_ConvWritesTheConvertedSource_pending (bs : List Nat) (src n dst : Word) (a : Nat) :
    (converting bs src n dst).bw.isPending a = false := rfl

/-- The checks of CONV one after another: no such pair, an odd contraction, one byte past MEM on either side, one shared byte,
and a pending byte (0x30) in the source. -/
theorem witness_ConvChecksInOrder :
    conversionOfCodes 1 3 = none ∧ conversionOfCodes 3 0 = some .contractBe ∧ conversionOfCodes 0 0 = some .copy ∧
      (contractive 3 0 = true ∧ (7 : Word).toNat % 2 = 1) ∧ ¬contractive 0 0 = true ∧
        2 ^ 32 < (0xFFFFFFFC : Word).toNat + (5 : Word).toNat ∧
          2 ^ 32 < (0xFFFFFFFC : Word).toNat + Conversion.copy.outLen (5 : Word).toNat ∧
            (0x103 : Nat) ≠ 0x100 ∧ (0x100 ≤ 0x103 ∧ 0x103 < 0x100 + 4 ∧ 0x103 ≤ 0x103 ∧ 0x103 < 0x103 + 4) ∧
              demo.bw.isPending 0x30 = true ∧ (0x2D ≤ 0x30 ∧ 0x30 < 0x2D + 4) ∧
                ∀ a, 0x2D ≤ a → a < 0x2D + 4 → ¬(0x100 ≤ a ∧ a < 0x100 + Conversion.copy.outLen 4) :=
  ⟨by decide, by decide, by decide, by decide, by decide, by decide, by decide, by decide, by decide, by decide, by decide,
    by omega⟩

theorem witness_ConvQueryReportsTheLength :
    conversionOfCodes 5 0 = none ∧ conversionOfCodes 0 4 = some .expandLe ∧ conversionOfCodes 4 0 = some .contractLe := by
  decide

theorem witness_CommandsStayInTheirUnit :
    (∃ t, exec (.brGet 8) (quiet 5) = .next t ∧ t.status = .ok) ∧ (∃ t, exec (.bwPut 3) demo = .next t ∧ t.status = .ok) ∧
      (∃ t, exec .bwFlush demo = .next t ∧ t.status = .ok) ∧ (∃ t, exec .fsLoad demo = .next t) ∧
        ∃ t, exec (.convQuery 0 3) demo = .next t ∧ t.status = .ok :=
  ⟨⟨_, rfl, rfl⟩, ⟨_, rfl, rfl⟩, ⟨_, rfl, rfl⟩, ⟨_, rfl⟩, _, rfl, rfl⟩

end Sys2Proof.Tests
end

/-!
PROOFS. The encoder and the decoder, field by field (spec/30_encoding.md R80, R81, R85), and the step that runs a command word
(spec/00_scope.md R8, spec/10_state.md R21).
-/
namespace Sys2Proof

/-! ### The fields of a command word -/

/-- The command word whose fields are `OPC` = `o`, `IMM8` = `n`, `FROM` = `f` and `TO` = `t`, `RSVD` zero (R80). -/
def wordOfFields (o n f t : Nat) : Word := toWord (o + 256 * n + 65536 * f + 524288 * t)

section Fields
variable {o n f t : Nat} (ho : o < 256) (hn : n < 256) (hf : f < 8) (ht : t < 8)
include ho hn hf ht

theorem toNat_wordOfFields : (wordOfFields o n f t).toNat = o + 256 * n + 65536 * f + 524288 * t := by
  rw [wordOfFields, BitVec.toNat_ofNat]
  omega

theorem opcOf_wordOfFields : opcOf (wordOfFields o n f t) = o := by
  rw [opcOf, toNat_wordOfFields ho hn hf ht]
  omega

theorem imm8Of_wordOfFields : imm8Of (wordOfFields o n f t) = n := by
  rw [imm8Of, toNat_wordOfFields ho hn hf ht]
  omega

theorem fromOf_wordOfFields : fromOf (wordOfFields o n f t) = f := by
  rw [fromOf, toNat_wordOfFields ho hn hf ht]
  omega

theorem toOf_wordOfFields : toOf (wordOfFields o n f t) = t := by
  rw [toOf, toNat_wordOfFields ho hn hf ht]
  omega

theorem rsvdOf_wordOfFields : rsvdOf (wordOfFields o n f t) = 0 := by
  rw [rsvdOf, toNat_wordOfFields ho hn hf ht]
  omega

end Fields

/-! ### The fields of a command -/

/-- What a command's word holds in `IMM8`: the immediate, or 0 where the command does not use the field (R81, R84). -/
def Instr.imm8 : Instr → Nat
  | .fsBind n | .brGet n | .brGets n | .bwPut n => n
  | _ => 0

/-- What a command's word holds in `FROM` (R81, R84). -/
def Instr.fromCode : Instr → Nat
  | .conv f _ | .convQuery f _ => f
  | _ => 0

/-- What a command's word holds in `TO` (R81, R84). -/
def Instr.toCode : Instr → Nat
  | .conv _ t | .convQuery _ t => t
  | _ => 0

theorem Instr.opcode_lt (i : Instr) : i.opcode < 256 := by
  cases i <;> simp [Instr.opcode]

theorem Instr.wf_iff (i : Instr) : i.wf = true ↔ i.imm8 < 256 ∧ i.fromCode < 8 ∧ i.toCode < 8 := by
  cases i <;> simp [Instr.wf, Instr.imm8, Instr.fromCode, Instr.toCode, fitsImm8, fitsCode]

theorem Instr.operandBits_eq (i : Instr) :
    i.operandBits = 256 * i.imm8 + 65536 * i.fromCode + 524288 * i.toCode := by
  cases i <;> simp [Instr.operandBits, Instr.imm8, Instr.fromCode, Instr.toCode]

/-- The encoder puts each field of the command in its place (R80). -/
theorem encode_eq_wordOfFields (i : Instr) : encode i = wordOfFields i.opcode i.imm8 i.fromCode i.toCode := by
  simp only [encode, wordOfFields, Instr.operandBits_eq, Nat.add_assoc]

/-! ### The decoder against the encoder -/

/-- A word whose five fields are those of a command decodes to it: `OPC` selects the command's arm, the operands are read
from the fields it uses, and the fields it does not use are zero (R81, R85). -/
theorem decode_of_fields {w : Word} {i : Instr} (hopc : opcOf w = i.opcode) (himm8 : imm8Of w = i.imm8)
    (hfrom : fromOf w = i.fromCode) (hto : toOf w = i.toCode) (hrsvd : rsvdOf w = 0) : decode w = .command i := by
  cases i <;>
    simp only [Instr.opcode, Instr.imm8, Instr.fromCode, Instr.toCode] at hopc himm8 hfrom hto <;>
    simp [decode, checkUnused, unusedFieldsZero, hopc, himm8, hfrom, hto, hrsvd]

/-- R80, R85: the decoder undoes the encoder on every well-formed command. -/
theorem decode_encode {i : Instr} (hwf : i.wf = true) : decode (encode i) = .command i := by
  have hopc := i.opcode_lt
  obtain ⟨himm8, hfrom, hto⟩ := i.wf_iff.1 hwf
  rw [encode_eq_wordOfFields]
  exact decode_of_fields (opcOf_wordOfFields hopc himm8 hfrom hto) (imm8Of_wordOfFields hopc himm8 hfrom hto)
    (fromOf_wordOfFields hopc himm8 hfrom hto) (toOf_wordOfFields hopc himm8 hfrom hto)
    (rsvdOf_wordOfFields hopc himm8 hfrom hto)

namespace Machine

/-! ### A word written to `CMD` -/

/-- A host write to offset 0 of REG is a write to `CMD` (R21, R82). -/
theorem hostAct_regWrite_cmd (run : Instr → State → Result) (w : Word) (s : State) :
    hostAct run (.regWrite 0 w) s = runCommand run w s := by
  have haligned : alignedOffset 0 ≠ false := by decide
  have hcmd : regAt 0 = some .cmd := by decide
  rw [hostAct, if_neg haligned, if_pos hcmd]

/-- A word that decodes to a command runs it (R21). -/
theorem runCommand_of_decode (run : Instr → State → Result) {w : Word} {i : Instr} (h : decode w = .command i) (s : State) :
    runCommand run w s = run i s := by
  simp only [runCommand, h]

/-- A decoding word next on the bus for `CMD`: the step takes the write off the bus and runs its command (R8, R21). -/
theorem step_of_decode {s : State} {w : Word} {i : Instr} {rest : List HostAction} (hbus : s.bus = .regWrite 0 w :: rest)
    (hdec : decode w = .command i) : step s = exec i (takenFromBus rest s) := by
  rw [step_of_bus hbus, hostAct_regWrite_cmd, runCommand_of_decode exec hdec]

/-- A 32-bit word placed as the next fetch is the word the host writes to `CMD` next (R80). -/
theorem withFetchWord_toNat (s : State) (w : Word) : s.withFetchWord 32 w.toNat = withCommandWord w s := by
  rw [State.withFetchWord, Nat.mod_eq_of_lt w.isLt, toWord, BitVec.ofNat_toNat, BitVec.setWidth_eq]

/-- Taking a command word off the bus leaves the state it was put in front of. -/
theorem takenFromBus_withCommandWord (s : State) (w : Word) : takenFromBus s.bus (withCommandWord w s) = s := rfl

end Machine
end Sys2Proof

/-! ### The obligations -/

section
open Sys2Proof Sys2Proof.Machine

/-- Settles O5: the next host action is a write to `CMD`, and its word decodes. -/
theorem stepRunsTheDecodedCommand : Obligations.StepRunsTheDecodedCommand := by
  intro s w i rest hbus hdec
  exact step_of_decode hbus hdec

/-- Settles O6: the placed word is the command's encoding, which decodes to the command, and taking it off the bus gives back
the state it was placed in. -/
theorem placedCommandIsTheOneThatRuns : Obligations.PlacedCommandIsTheOneThatRuns := by
  intro s i hwf
  calc step (s.withFetchWord 32 (encode i).toNat)
      = step (withCommandWord (encode i) s) := by rw [withFetchWord_toNat]
    _ = exec i (takenFromBus s.bus (withCommandWord (encode i) s)) := step_of_decode rfl (decode_encode hwf)
    _ = exec i s := by rw [takenFromBus_withCommandWord]

end

/-!
PROOFS. What a command can answer and what a step can do, each said once (spec/30_encoding.md R85, spec/10_state.md
R21).
-/
namespace Sys2Proof.Machine

/-! ### What a command can answer -/

/-- A get of no bits returns 0 and leaves the reader as it is (R126). -/
theorem gotField_zero {put : Nat → Word} (hput : put 0 = 0) (s : State) : gotField 0 put s = { s with res0 := 0 } := by
  simp [gotField, readBits, hput]

theorem signedField_zero_zero : signedField 0 0 = 0 := by decide

/-- `CommandAnswer i s t`: the command `i`, run in `s`, answers `t`. It is turned away with a failure status and changes
nothing else (R242), or it has the effect its rule states. -/
inductive CommandAnswer : Instr → State → State → Prop where
  | turnedAway {i s e} (hfail : e.isFailure = true) : CommandAnswer i s { s with status := e }
  | fsBind {pidx s} (hidx : pidx < Config.platform.np)
      (hsizes : bindable Config.platform (Config.platform.parsers pidx) = true) :
      CommandAnswer (.fsBind pidx) s
        { s with fs := bumpGen (boundUnit pidx (Config.platform.parsers pidx) s.fs), status := .ok }
  | fsUnbind {s} : CommandAnswer .fsUnbind s { s with fs := bumpGen (unboundUnit s.fs), status := .ok }
  | fsReset {s} :
      CommandAnswer .fsReset s { s with fs := bumpGen { streamClear s.fs with count := 0 }, status := .ok }
  | fsLoadNeed {s g} (hbound : s.fs.bound = true)
      (hstep : loadStep (Config.platform.parsers s.fs.parser.toNat) s.mem s.fs = .need g) :
      CommandAnswer .fsLoad s { s with fs := bumpGen { g with result := .noOutput }, status := .needInput }
  | fsLoadDone {s g} (hbound : s.fs.bound = true)
      (hstep : loadStep (Config.platform.parsers s.fs.parser.toNat) s.mem s.fs = .done g) :
      CommandAnswer .fsLoad s { s with fs := bumpGen g, status := .ok }
  | fsFlush {s} (hbound : s.fs.bound = true) :
      CommandAnswer .fsFlush s
        { s with
          fs :=
            bumpGen
              { flushOutput (dropOutput s.fs) with
                sync := false, scanPos := 0, lastLen := 0, hiValid := false, hi := noHeader }
          status := .ok }
  | conv {f t c s v n} (hconv : conversionOfCodes f t = some c)
      (heven : ¬(contractive f t = true ∧ s.arg1.toNat % 2 = 1))
      (hinside : s.arg2.toNat + c.outLen s.arg1.toNat ≤ memSize) :
      CommandAnswer (.conv f t) s
        { s with
          mem :=
            memWrite s.mem s.arg2.toNat
              (c.apply Config.platform.pad14 (memRead s.mem s.arg0.toNat s.arg1.toNat))
          res0 := v, freeCount := n, status := .ok }
  | convQuery {f t s v} : CommandAnswer (.convQuery f t) s { s with res0 := 1, res1 := v, status := .ok }
  | brBind {s e} (hregion : regionOk s.arg0.toNat s.arg1.toNat s.arg2.toNat = some e) :
      CommandAnswer .brBind s { s with br := boundReader s.arg0 s.arg1 e s.br, status := .ok }
  | brGet {n s} (hbound : s.br.cur.bound = true) (hfits : s.br.cur.pos.toNat + n ≤ s.br.cur.stop.toNat) :
      CommandAnswer (.brGet n) s { gotField n unsignedField s with status := .ok }
  | brGets {n s} (hbound : s.br.cur.bound = true) (hfits : s.br.cur.pos.toNat + n ≤ s.br.cur.stop.toNat) :
      CommandAnswer (.brGets n) s { gotField n (signedField n) s with status := .ok }
  | brGetb {s} (hbound : s.br.cur.bound = true) (hfits : s.br.cur.pos.toNat + 1 ≤ s.br.cur.stop.toNat) :
      CommandAnswer .brGetb s { gotField 1 boolField s with status := .ok }
  | brSeek {s} (hbound : s.br.cur.bound = true) (hseek : s.br.cur.canSeek s.arg0 = true) :
      CommandAnswer .brSeek s { s with br := soughtReader s.arg0 s.br, status := .ok }
  | brUnbind {s} :
      CommandAnswer .brUnbind s { s with br := { s.br with cur := Cursor.unbound, wvalid := false }, status := .ok }
  | bwBind {s e} (hregion : regionOk s.arg0.toNat s.arg1.toNat s.arg2.toNat = some e) (hmem : s.bw.outside = none) :
      CommandAnswer .bwBind s { rebindWriter e (commit s) with status := .ok }
  | bwBindFirst {s e} (hregion : regionOk s.arg0.toNat s.arg1.toNat s.arg2.toNat = some e)
      (hfree : s.bw.cur.bound = false) : CommandAnswer .bwBind s { rebindWriter e s with status := .ok }
  | bwPut {n s} (hbound : s.bw.cur.bound = true) (hfits : s.bw.cur.pos.toNat + n ≤ s.bw.cur.stop.toNat) :
      CommandAnswer (.bwPut n) s { s with bw := putField n s.arg0.toNat s.bw, status := .ok }
  | bwPutb {s v} (hbound : s.bw.cur.bound = true) (hfits : s.bw.cur.pos.toNat + 1 ≤ s.bw.cur.stop.toNat) :
      CommandAnswer .bwPutb s { s with bw := putField 1 v s.bw, status := .ok }
  | bwSeek {s} (hbound : s.bw.cur.bound = true) (hseek : s.bw.cur.canSeek s.arg0 = true) (hmem : s.bw.outside = none) :
      CommandAnswer .bwSeek s { seekWriter (commit s) with status := .ok }
  | bwFlush {s} (hmem : s.bw.outside = none) : CommandAnswer .bwFlush s { commit s with status := .ok }
  | bwClose {s} (hmem : s.bw.outside = none) : CommandAnswer .bwClose s { releaseWriter (commit s) with status := .ok }


section Answers
variable {i : Instr} {s t : State}

theorem CommandAnswer.of_turnedAway (h : ∃ e, t = { s with status := e } ∧ e.isFailure = true) :
    CommandAnswer i s t := by
  obtain ⟨e, rfl, hfail⟩ := h
  exact .turnedAway hfail

theorem CommandAnswer.of_raise {e : Status} (hfail : e.isFailure = true) (h : raise e s = .next t) :
    CommandAnswer i s t :=
  .of_turnedAway ⟨e, raise_eq_next.1 h, hfail⟩

/-- What a field that fits says of the cursor (R126, R144). -/
theorem fieldFits_iff {c : Cursor} {n : Nat} : c.fieldFits n = true ↔ n ≤ 32 ∧ c.pos.toNat + n ≤ c.stop.toNat := by
  simp [Cursor.fieldFits]

/-- Every answer of a get whose value of no bits is 0: it is turned away, or its field fits the region and is read. -/
theorem getField_turnedAway_or_got {n : Nat} {put : Nat → Word} (hput : n = 0 → put 0 = 0)
    (h : getField n put s = .next t) :
    (∃ e, t = { s with status := e } ∧ e.isFailure = true) ∨
      (s.br.cur.bound = true ∧ s.br.cur.pos.toNat + n ≤ s.br.cur.stop.toNat ∧
        t = { gotField n put s with status := .ok }) := by
  by_cases hn : n = 0
  · subst hn
    unfold getField at h
    split at h
    · exact .inl ⟨_, raise_eq_next.1 h, rfl⟩
    split at h
    · exact .inl ⟨_, raise_eq_next.1 h, rfl⟩
    · rename_i hb hf
      refine .inr ⟨by simpa using hb, (fieldFits_iff.1 (by simpa using hf)).2, ?_⟩
      rw [gotField_zero (hput rfl)]
      exact finish_eq_next.1 h
  · obtain hturned | ⟨-, h0, -⟩ | ⟨hb, hf, -, -, -, ht⟩ := getField_eq_next h
    · exact .inl hturned
    · exact absurd h0 hn
    · exact .inr ⟨hb, (fieldFits_iff.1 hf).2, ht⟩

theorem execFsBind_answer {pidx : Nat} (h : execFsBind pidx s = .next t) : CommandAnswer (.fsBind pidx) s t := by
  obtain hturned | ⟨hidx, hsizes, rfl⟩ := fsBindOn_eq_next h
  · exact .of_turnedAway hturned
  · exact .fsBind hidx hsizes

theorem execFsUnbind_answer (h : execFsUnbind s = .next t) : CommandAnswer .fsUnbind s t := by
  unfold execFsUnbind at h
  split at h
  · exact .of_raise rfl h
  · obtain rfl := finish_eq_next.1 h
    exact .fsUnbind

theorem execFsReset_answer (h : execFsReset s = .next t) : CommandAnswer .fsReset s t := by
  obtain rfl := finish_eq_next.1 h
  exact .fsReset

theorem execFsLoad_answer (h : execFsLoad s = .next t) : CommandAnswer .fsLoad s t := by
  obtain hturned | ⟨hbound, -, -, rfl⟩ := fsLoadOn_eq_next h
  · exact .of_turnedAway hturned
  · cases hstep : loadStep (Config.platform.parsers s.fs.parser.toNat) s.mem s.fs with
    | need g => exact .fsLoadNeed hbound hstep
    | done g => exact .fsLoadDone hbound hstep

theorem execFsFlush_answer (h : execFsFlush s = .next t) : CommandAnswer .fsFlush s t := by
  unfold execFsFlush at h
  split at h
  · exact .of_raise rfl h
  · rename_i hbound
    obtain rfl := finish_eq_next.1 h
    exact .fsFlush (by simpa using hbound)

theorem execConv_answer {f t' : Nat} (h : execConv f t' s = .next t) : CommandAnswer (.conv f t') s t := by
  obtain hturned | ⟨c, hconv, heven, -, hinside, rfl⟩ := convOn_eq_next h
  · exact .of_turnedAway hturned
  · rw [converted, countWritten_frame]
    exact .conv hconv heven hinside

theorem execConvQuery_answer {f t' : Nat} (h : execConvQuery f t' s = .next t) :
    CommandAnswer (.convQuery f t') s t := by
  obtain hturned | ⟨c, -, rfl⟩ := execConvQuery_eq_next h
  · exact .of_turnedAway hturned
  · exact .convQuery

theorem execBrBind_answer (h : execBrBind s = .next t) : CommandAnswer .brBind s t := by
  unfold execBrBind at h
  split at h
  · exact .of_raise rfl h
  · rename_i hregion
    obtain rfl := finish_eq_next.1 h
    exact .brBind hregion

theorem execBrGet_answer {n : Nat} (h : execBrGet n s = .next t) : CommandAnswer (.brGet n) s t := by
  obtain hturned | ⟨hbound, hfits, rfl⟩ := getField_turnedAway_or_got (fun _ => rfl) h
  · exact .of_turnedAway hturned
  · exact .brGet hbound hfits

theorem execBrGets_answer {n : Nat} (h : execBrGets n s = .next t) : CommandAnswer (.brGets n) s t := by
  obtain hturned | ⟨hbound, hfits, rfl⟩ := getField_turnedAway_or_got (fun hn => hn ▸ signedField_zero_zero) h
  · exact .of_turnedAway hturned
  · exact .brGets hbound hfits

theorem execBrGetb_answer (h : execBrGetb s = .next t) : CommandAnswer .brGetb s t := by
  obtain hturned | ⟨hbound, hfits, rfl⟩ := getField_turnedAway_or_got (by omega) h
  · exact .of_turnedAway hturned
  · exact .brGetb hbound hfits

theorem execBrSeek_answer (h : execBrSeek s = .next t) : CommandAnswer .brSeek s t := by
  unfold execBrSeek at h
  split at h
  · exact .of_raise rfl h
  split at h
  · exact .of_raise rfl h
  · rename_i hbound hseek
    obtain rfl := finish_eq_next.1 h
    exact .brSeek (by simpa using hbound) (by simpa using hseek)

theorem execBrUnbind_answer (h : execBrUnbind s = .next t) : CommandAnswer .brUnbind s t := by
  unfold execBrUnbind at h
  split at h
  · exact .of_raise rfl h
  · obtain rfl := finish_eq_next.1 h
    exact .brUnbind

theorem execBwBind_answer (h : execBwBind s = .next t) : CommandAnswer .bwBind s t := by
  unfold execBwBind at h
  split at h
  · exact .of_raise rfl h
  rename_i hregion
  split at h
  · obtain ⟨hmem, rfl⟩ := commitThen_eq_next.1 h
    exact .bwBind hregion hmem
  · rename_i hfree
    obtain rfl := finish_eq_next.1 h
    exact .bwBindFirst hregion (by simpa using hfree)

/-- What BW_PUT and BW_PUTB share (R144, R145). -/
theorem putValue_turnedAway_or_put {n v : Nat} (h : putValue n v s = .next t) :
    (∃ e, t = { s with status := e } ∧ e.isFailure = true) ∨
      (s.bw.cur.bound = true ∧ s.bw.cur.pos.toNat + n ≤ s.bw.cur.stop.toNat ∧
        t = { s with bw := putField n v s.bw, status := .ok }) := by
  obtain hturned | ⟨hbound, hfits, -, ht⟩ := putValue_eq_next h
  · exact .inl hturned
  · exact .inr ⟨hbound, (fieldFits_iff.1 hfits).2, ht⟩

theorem execBwPut_answer {n : Nat} (h : execBwPut n s = .next t) : CommandAnswer (.bwPut n) s t := by
  obtain hturned | ⟨hbound, hfits, rfl⟩ := putValue_turnedAway_or_put h
  · exact .of_turnedAway hturned
  · exact .bwPut hbound hfits

theorem execBwPutb_answer (h : execBwPutb s = .next t) : CommandAnswer .bwPutb s t := by
  obtain hturned | ⟨hbound, hfits, rfl⟩ := putValue_turnedAway_or_put h
  · exact .of_turnedAway hturned
  · exact .bwPutb hbound hfits

theorem execBwSeek_answer (h : execBwSeek s = .next t) : CommandAnswer .bwSeek s t := by
  unfold execBwSeek at h
  split at h
  · exact .of_raise rfl h
  split at h
  · exact .of_raise rfl h
  · rename_i hbound hseek
    obtain ⟨hmem, rfl⟩ := commitThen_eq_next.1 h
    exact .bwSeek (by simpa using hbound) (by simpa using hseek) hmem

theorem execBwFlush_answer (h : execBwFlush s = .next t) : CommandAnswer .bwFlush s t := by
  unfold execBwFlush at h
  split at h
  · exact .of_raise rfl h
  · obtain ⟨hmem, rfl⟩ := commitThen_eq_next.1 h
    exact .bwFlush hmem

theorem execBwClose_answer (h : execBwClose s = .next t) : CommandAnswer .bwClose s t := by
  unfold execBwClose at h
  split at h
  · exact .of_raise rfl h
  · obtain ⟨hmem, rfl⟩ := commitThen_eq_next.1 h
    exact .bwClose hmem

/-- Every command that goes on answers as `CommandAnswer` says. -/
theorem exec_answer (h : exec i s = .next t) : CommandAnswer i s t := by
  cases i with
  | fsBind pidx => exact execFsBind_answer h
  | fsUnbind => exact execFsUnbind_answer h
  | fsReset => exact execFsReset_answer h
  | fsLoad => exact execFsLoad_answer h
  | fsFlush => exact execFsFlush_answer h
  | conv f t' => exact execConv_answer h
  | convQuery f t' => exact execConvQuery_answer h
  | brBind => exact execBrBind_answer h
  | brGet n => exact execBrGet_answer h
  | brGets n => exact execBrGets_answer h
  | brGetb => exact execBrGetb_answer h
  | brSeek => exact execBrSeek_answer h
  | brUnbind => exact execBrUnbind_answer h
  | bwBind => exact execBwBind_answer h
  | bwPut n => exact execBwPut_answer h
  | bwPutb => exact execBwPutb_answer h
  | bwSeek => exact execBwSeek_answer h
  | bwFlush => exact execBwFlush_answer h
  | bwClose => exact execBwClose_answer h

end Answers

/-! ### What a step can do -/

/-- The listed registers are those of the map at their offsets (R82). -/
theorem regAt_eq_some {off : Word} {r : Reg} : regAt off = some r ↔ (off.toNat, r) ∈ regMap :=
  ⟨mem_of_mapGet, mapGet_of_mem (by decide)⟩

/-- `CMD` stands at offset 0 and nowhere else (R82). -/
theorem regAt_eq_cmd {off : Word} : regAt off = some .cmd ↔ off = 0 := by
  rw [regAt_eq_some, ← BitVec.toNat_inj]
  simp [regMap]

/-- `m'` is `m`, or `m` with one byte of MEM written. -/
inductive ByteWritten (m : Memory) : Memory → Prop where
  | same : ByteWritten m m
  | byte {a b} (ha : a < memSize) : ByteWritten m (memSet m a b)

/-- `StepAnswer s t`: a step of `s` that goes on to `t`. Nothing is on the bus, a word is written to `CMD`, the block is
reset, or the host makes another access, which can change the writable registers other than `CMD`, one byte of MEM and the
host's own side only (R61, R62, R83). -/
inductive StepAnswer (s : State) : State → Prop where
  | idle (hbus : s.bus = []) : StepAnswer s s
  | command {i t} (hcmd : s.nextCommand = some i) (hanswer : CommandAnswer i (takenFromBus s.bus.tail s) t) :
      StepAnswer s t
  | rejected (hreset : s.bus.head? ≠ some .reset) (hcmd : s.nextCommand = none) :
      StepAnswer s { s with bus := s.bus.tail, status := .illegalCommand }
  | reset (hreset : s.bus.head? = some .reset) (hmem : s.bw.outside = none) :
      StepAnswer s (afterReset (takenFromBus s.bus.tail s))
  | access {a0 a1 a2 p e m v n} (hreset : s.bus.head? ≠ some .reset) (hcmd : s.nextCommand = none)
      (hmem : ByteWritten s.mem m) :
      StepAnswer s
        { s with
          arg0 := a0, arg1 := a1, arg2 := a2, fs := { s.fs with inPtr := p, inEnd := e }, mem := m
          bus := s.bus.tail, hostData := v, freeCount := n }

section Steps
variable {s t : State} {rest : List HostAction}

theorem nextCommand_of_command {w : Word} {i : Instr} (hbus : s.bus = .regWrite 0 w :: rest)
    (hdec : decode w = .command i) : s.nextCommand = some i := by
  simp [State.nextCommand, hbus, hdec]

theorem nextCommand_of_rejected {w : Word} {r : Reject} (hbus : s.bus = .regWrite 0 w :: rest)
    (hdec : decode w = .rejected r) : s.nextCommand = none := by
  simp [State.nextCommand, hbus, hdec]

/-- Only a write to `CMD` runs a command (R21). -/
theorem nextCommand_of_no_cmd {a : HostAction} (hbus : s.bus = a :: rest) (ha : ∀ w, a ≠ .regWrite 0 w) :
    s.nextCommand = none := by
  rw [State.nextCommand, hbus]
  split
  · rename_i off w _ heq
    obtain ⟨rfl, rfl⟩ := List.cons.inj heq
    exact if_neg fun hoff => ha w (by rw [hoff])
  · rfl

/-- A word written to `CMD` runs its command or is rejected. -/
theorem stepAnswer_of_cmd {w : Word} (hbus : s.bus = .regWrite 0 w :: rest)
    (h : runCommand exec w (takenFromBus rest s) = .next t) : StepAnswer s t := by
  obtain rfl : rest = s.bus.tail := by rw [hbus]; rfl
  obtain ⟨i, hdec, hrun⟩ | ⟨r, hdec, hrun⟩ := runCommand_cases exec w (takenFromBus s.bus.tail s) <;> rw [hrun] at h
  · exact .command (nextCommand_of_command hbus hdec) (exec_answer h)
  · cases h
    exact .rejected (by rw [hbus]; simp) (nextCommand_of_rejected hbus hdec)

/-- Every host access that is no write to `CMD` and no reset changes what `StepAnswer.access` says. -/
theorem stepAnswer_of_access {a : HostAction} (hbus : s.bus = a :: rest) (hcmd : ∀ w, a ≠ .regWrite 0 w)
    (hreset : a ≠ .reset) (h : hostAct exec a (takenFromBus rest s) = .next t) : StepAnswer s t := by
  obtain rfl : rest = s.bus.tail := by rw [hbus]; rfl
  have hnone := nextCommand_of_no_cmd hbus hcmd
  have hhead : s.bus.head? ≠ some .reset := by
    rw [hbus]
    simpa using hreset
  cases a with
  | regWrite off v =>
    have hoff : regAt off ≠ some .cmd := fun hc => hcmd v (by rw [regAt_eq_cmd.1 hc])
    rw [hostAct, if_neg hoff] at h
    split at h
    · cases h
      exact .access hhead hnone .same
    · cases h
      obtain h | h | h | h | h | h := writeReg_cases (takenFromBus s.bus.tail s) off v <;> rw [h] <;>
        exact .access hhead hnone .same
  | regRead off =>
    rw [hostAct] at h
    split at h <;> cases h <;> exact .access hhead hnone .same
  | regWriteOther off bytes v =>
    cases h
    exact .access hhead hnone .same
  | regReadOther off bytes =>
    cases h
    exact .access hhead hnone .same
  | arenaRead i =>
    cases h
    obtain ⟨v, c, h⟩ := readArena_cases i (takenFromBus s.bus.tail s)
    rw [h]
    exact .access hhead hnone .same
  | arenaWrite i b =>
    cases h
    exact .access hhead hnone .same
  | memRead addr =>
    cases h
    obtain ⟨v, c, h⟩ := hostMemRead_cases addr (takenFromBus s.bus.tail s)
    rw [h]
    exact .access hhead hnone .same
  | memWrite addr b =>
    cases h
    obtain ⟨x, c, h⟩ := hostMemWrite_cases addr b (takenFromBus s.bus.tail s)
    rw [h]
    exact .access hhead hnone (.byte addr.isLt)
  | reset => exact absurd rfl hreset

/-- The reset event goes on where every pending byte lies in MEM (R260, R261). -/
theorem resetEvent_eq_next : resetEvent s = .next t ↔ s.bw.outside = none ∧ t = afterReset s := by
  unfold resetEvent
  cases s.bw.outside with
  | some a => simp
  | none => simp [eq_comm]

/-- Every step that goes on answers as `StepAnswer` says. -/
theorem step_answer (h : step s = .next t) : StepAnswer s t := by
  cases hbus : s.bus with
  | nil =>
    rw [step_idle hbus] at h
    cases h
    exact .idle hbus
  | cons a rest =>
    rw [step_of_bus hbus] at h
    by_cases hcmd : ∃ w, a = .regWrite 0 w
    · obtain ⟨w, rfl⟩ := hcmd
      rw [hostAct_regWrite_cmd] at h
      exact stepAnswer_of_cmd hbus h
    by_cases hreset : a = .reset
    · subst hreset
      obtain ⟨hmem, rfl⟩ := resetEvent_eq_next.1 h
      obtain rfl : rest = s.bus.tail := by rw [hbus]; rfl
      exact .reset (by rw [hbus]; rfl) hmem
    · exact stepAnswer_of_access hbus (fun w hw => hcmd ⟨w, hw⟩) hreset h

end Steps
end Sys2Proof.Machine

/-!
PROOFS. The length of every conversion (spec/42_converter.md R162 to R167).
-/
namespace Sys2Proof.Machine

@[simp] theorem natBytes_length (k x : Nat) : (natBytes k x).length = k := by simp [natBytes]

@[simp] theorem wordBytes_length (w : Nat) : (wordBytes w).length = 2 := natBytes_length 2 w

theorem swap16_length (bs : List Byte) : (swap16 bs).length = evenUp bs.length := by
  unfold evenUp
  induction bs using swap16.induct with
  | case1 => rfl
  | case2 b => rfl
  | case3 b c rest ih =>
    simp only [swap16, List.length_cons, ih]
    omega

theorem expandGroup_length (pad : Pad14) (grp : List Byte) : (expandGroup pad grp).length = 8 := by
  simp [expandGroup, List.length_flatMap]

theorem expand14be_length (pad : Pad14) (bs : List Byte) : (expand14be pad bs).length = expandLen bs.length := by
  simp [expand14be, expandLen, List.length_flatMap, expandGroup_length, Nat.mul_comm]

theorem wordsOf_length (bs : List Byte) : (wordsOf bs).length = bs.length / 2 := by
  induction bs using wordsOf.induct with
  | case1 b c rest ih =>
    simp only [wordsOf, List.length_cons, ih]
    omega
  | case2 bs hshort =>
    match bs, hshort with
    | [], _ => rfl
    | [b], _ => simp [wordsOf]
    | b :: c :: rest, hshort => exact absurd rfl (hshort b c rest)

theorem contractGroup_length (grp : List Nat) : (contractGroup grp).length = 14 * grp.length / 8 := by
  simp [contractGroup]

theorem groupOf_length {α : Type} (m : Nat) (xs : List α) (g : Nat) :
    (groupOf m xs g).length = min m (xs.length - m * g) := by
  simp [groupOf]

/-- The groups of 4 words up to group `k`, all of them full, give 7 bytes each (R164). -/
theorem contract_fullGroups_length (ws : List Nat) {k : Nat} (hk : 4 * k ≤ ws.length) :
    ((List.range k).flatMap fun g => contractGroup (groupOf 4 ws g)).length = 7 * k := by
  induction k with
  | zero => rfl
  | succ k ih =>
    rw [List.range_succ, List.flatMap_append, List.length_append, ih (by omega), List.flatMap_singleton,
      contractGroup_length, groupOf_length]
    omega

/-- A contraction takes an even number of bytes as words (R164). -/
theorem contract14be_length {bs : List Byte} (heven : bs.length % 2 = 0) :
    (contract14be bs).length = contractLen bs.length := by
  have hw := wordsOf_length bs
  rw [contract14be, contractLen, ceilDiv]
  by_cases hfull : (wordsOf bs).length % 4 = 0
  · rw [contract_fullGroups_length _ (by omega)]
    omega
  · rw [show ((wordsOf bs).length + 4 - 1) / 4 = (wordsOf bs).length / 4 + 1 by omega, List.range_succ,
      List.flatMap_append, List.length_append, contract_fullGroups_length _ (by omega), List.flatMap_singleton,
      contractGroup_length, groupOf_length]
    omega

/-- The conversions that read 14-bit words and write another packing, whose sources have an even length (R166, R167). -/
def Conversion.contracts : Conversion → Bool
  | .contractBe | .contractLe | .contractBeSwap | .contractLeSwap => true
  | _ => false

/-- The length column of R166 is the length of what the conversion gives. -/
theorem Conversion.apply_length (pad : Pad14) {c : Conversion} {bs : List Byte}
    (heven : c.contracts = true → bs.length % 2 = 0) : (c.apply pad bs).length = c.outLen bs.length := by
  have hswap : bs.length % 2 = 0 → (swap16 bs).length = bs.length := fun h => by rw [swap16_length, evenUp, h]; rfl
  cases c with
  | copy => rfl
  | swap => exact swap16_length bs
  | expandBe => exact expand14be_length pad bs
  | contractBe => exact contract14be_length (heven rfl)
  | expandLe =>
    rw [Conversion.apply, expand14le, swap16_length, expand14be_length, evenUp, Conversion.outLen, expandLen]
    omega
  | contractLe =>
    have h := hswap (heven rfl)
    rw [Conversion.apply, contract14le, contract14be_length (by rw [h]; exact heven rfl), h]
    rfl
  | swapExpandBe =>
    rw [Conversion.apply, expand14be_length, swap16_length]
    rfl
  | swapExpandLe =>
    rw [Conversion.apply, expand14le, swap16_length, expand14be_length, swap16_length, evenUp, Conversion.outLen,
      expandLen]
    omega
  | contractBeSwap =>
    rw [Conversion.apply, swap16_length, contract14be_length (heven rfl)]
    rfl
  | contractLeSwap =>
    have h := hswap (heven rfl)
    rw [Conversion.apply, swap16_length, contract14le, contract14be_length (by rw [h]; exact heven rfl), h]
    rfl

/-- The code of a packing type (R160). -/
def Packing.code : Packing → Nat
  | .byte => 0
  | .w16be => 1
  | .w16le => 2
  | .w14be => 3
  | .w14le => 4

theorem code_of_packingOf {n : Nat} {p : Packing} (h : packingOf n = some p) : p.code = n := by
  unfold packingOf at h
  split at h <;> cases h <;> rfl

/-- A supported pair of codes is the codes of two packing types (R160, R166). -/
theorem conversionOfCodes_eq_some {f t : Nat} {c : Conversion} (h : conversionOfCodes f t = some c) :
    ∃ a b : Packing, a.code = f ∧ b.code = t ∧ conversionOf a b = some c := by
  unfold conversionOfCodes at h
  split at h
  · rename_i a b ha hb
    exact ⟨a, b, code_of_packingOf ha, code_of_packingOf hb, h⟩
  · cases h

/-- A pair whose conversion contracts is contractive (R167). -/
theorem contractive_of_contracts {f t : Nat} {c : Conversion} (h : conversionOfCodes f t = some c)
    (hc : c.contracts = true) : contractive f t = true := by
  obtain ⟨a, b, rfl, rfl, hab⟩ := conversionOfCodes_eq_some h
  cases a <;> cases b <;> cases hab <;> revert hc <;> decide

/-- CONV's check of the length leaves every contraction an even source (R167, R170). -/
theorem apply_length_of_codes (pad : Pad14) {f t : Nat} {c : Conversion} {bs : List Byte}
    (h : conversionOfCodes f t = some c) (hlen : ¬(contractive f t = true ∧ bs.length % 2 = 1)) :
    (c.apply pad bs).length = c.outLen bs.length := by
  refine Conversion.apply_length pad fun hc => ?_
  have hodd : bs.length % 2 ≠ 1 := fun hodd => hlen ⟨contractive_of_contracts h hc, hodd⟩
  omega

end Sys2Proof.Machine

/-!
PROOFS. What every step keeps of the cursors and of MEM (spec/10_state.md R38 to R41, spec/20_memory.md R60, R66).
-/
namespace Sys2Proof.Machine

/-! ### Cursors -/

theorem Cursor.good_unbound : Cursor.unbound.Good where
  unbound _ := rfl
  start_le_pos := by decide
  pos_le_stop := by decide
  inside := by decide

/-- A bound cursor moved inside its region stays good (R126, R129, R144, R146). -/
theorem Cursor.Good.moveTo {c : Cursor} (hc : c.Good) (hbound : c.bound = true) {p : Word}
    (hlo : c.start.toNat ≤ p.toNat) (hhi : p.toNat ≤ c.stop.toNat) : Cursor.Good { c with pos := p } where
  unbound hfree := absurd hfree (by simp [hbound])
  start_le_pos := hlo
  pos_le_stop := hhi
  inside := hc.inside

/-- The position behind a field inside the region (R126, R144). -/
theorem Cursor.toNat_pos_add {c : Cursor} {n : Nat} (hfits : c.pos.toNat + n ≤ c.stop.toNat) :
    (toWord (c.pos.toNat + n)).toNat = c.pos.toNat + n :=
  Nat.mod_eq_of_lt (Nat.lt_of_le_of_lt hfits c.stop.isLt)

/-- A bound cursor moved past a field inside its region stays good (R126, R144). -/
theorem Cursor.Good.advance {c : Cursor} (hc : c.Good) (hbound : c.bound = true) {n : Nat}
    (hfits : c.pos.toNat + n ≤ c.stop.toNat) : Cursor.Good { c with pos := toWord (c.pos.toNat + n) } := by
  have hpos := Cursor.toNat_pos_add hfits
  have hstart := hc.start_le_pos
  exact hc.moveTo hbound (by omega) (by omega)

/-- A seek that the region allows leaves a good cursor (R129, R146). -/
theorem Cursor.Good.seek {c : Cursor} (hc : c.Good) (hbound : c.bound = true) {p : Word} (hseek : c.canSeek p = true) :
    Cursor.Good { c with pos := p } := by
  simp only [Cursor.canSeek, Bool.and_eq_true, decide_eq_true_eq] at hseek
  exact hc.moveTo hbound hseek.1 hseek.2

/-- A bind of a region the check accepts leaves a good cursor (R120, R121, R140). -/
theorem Cursor.good_bindTo {b s : Word} {l e : Nat} (hregion : regionOk b.toNat s.toNat l = some e) :
    (Cursor.bindTo b s e).Good := by
  obtain ⟨rfl, hlt, hin⟩ := regionOk_eq_some.1 hregion
  have hstop : (toWord (s.toNat + l)).toNat = s.toNat + l := Nat.mod_eq_of_lt (by omega)
  exact
    { unbound := fun h => absurd h (by simp)
      start_le_pos := Nat.le_refl _
      pos_le_stop := by simp only [bindTo_pos, bindTo_stop, hstop]; omega
      inside := by rw [Cursor.hi, bindTo_stop, hstop]; exact hin }

/-! ### The reader -/

/-- A reader with nothing cached is good where its cursor is. -/
theorem BrUnit.good_of_not_cached {r : BrUnit} (hcur : r.cur.Good) (hfree : r.wvalid = false) : r.Good where
  cur := hcur
  cached h := absurd h (by simp [hfree])

/-- A get inside the region keeps the reader good (R126). -/
theorem BrUnit.Good.gotField {s : State} (h : s.br.Good) (hbound : s.br.cur.bound = true) {n : Nat}
    (hfits : s.br.cur.pos.toNat + n ≤ s.br.cur.stop.toNat) (put : Nat → Word) :
    (gotField n put s).br.Good where
  cur := by
    rw [gotField_cur]
    exact h.cur.advance hbound hfits
  cached _ := by
    rw [gotField_cur]
    exact hbound

/-- Every command keeps the reader good. -/
theorem CommandAnswer.br_good {i : Instr} {s t : State} (h : CommandAnswer i s t) (hs : s.br.Good) : t.br.Good := by
  cases h with
  | brBind hregion => exact BrUnit.good_of_not_cached (Cursor.good_bindTo hregion) rfl
  | brGet hbound hfits => exact hs.gotField hbound hfits unsignedField
  | @brGets n _ hbound hfits => exact hs.gotField hbound hfits (signedField n)
  | brGetb hbound hfits => exact hs.gotField hbound hfits boolField
  | brSeek hbound hseek => exact BrUnit.good_of_not_cached (hs.cur.seek hbound hseek) rfl
  | brUnbind => exact BrUnit.good_of_not_cached Cursor.good_unbound rfl
  | _ => exact hs

/-! ### The writer -/

/-- A writer with nothing pending is good where its cursor is. -/
theorem BwUnit.good_of_not_pending {c : Cursor} (hc : c.Good) : BwUnit.Good { cur := c, pending := [] } where
  cur := hc
  pending_rising := rfl
  pending_inside := by simp

/-- A writer that is not bound has nothing pending (R41, R148). -/
theorem BwUnit.Good.pending_eq_nil {w : BwUnit} (h : w.Good) (hfree : w.cur.bound = false) : w.pending = [] := by
  have hcur := h.cur.unbound hfree
  refine List.eq_nil_iff_forall_not_mem.2 fun kb hkb => ?_
  have hlt := (h.pending_inside kb hkb).2
  simp [hcur, Cursor.unbound] at hlt

/-- A put inside the region keeps the writer good (R141, R144). -/
theorem BwUnit.Good.putField {w : BwUnit} (h : w.Good) (hbound : w.cur.bound = true) {n : Nat}
    (hfits : w.cur.pos.toNat + n ≤ w.cur.stop.toNat) (v : Nat) : (putField n v w).Good where
  cur := h.cur.advance hbound hfits
  pending_rising := rising_putBits _ _ _ h.pending_rising
  pending_inside kb hkb := by
    have hpos := Cursor.toNat_pos_add hfits
    have hstart := h.cur.start_le_pos
    simp only [putField_cur]
    obtain hold | hnew := mem_putBits hkb
    · have := h.pending_inside kb hold
      omega
    · omega

/-- Every command keeps the writer good. -/
theorem CommandAnswer.bw_good {i : Instr} {s t : State} (h : CommandAnswer i s t) (hs : s.bw.Good) : t.bw.Good := by
  cases h with
  | bwBind hregion => exact BwUnit.good_of_not_pending (Cursor.good_bindTo hregion)
  | bwBindFirst hregion hfree =>
    simp only [rebindWriter_bw, hs.pending_eq_nil hfree]
    exact BwUnit.good_of_not_pending (Cursor.good_bindTo hregion)
  | bwPut hbound hfits => exact hs.putField hbound hfits _
  | bwPutb hbound hfits => exact hs.putField hbound hfits _
  | bwSeek hbound hseek => exact BwUnit.good_of_not_pending (hs.cur.seek hbound hseek)
  | bwFlush => exact BwUnit.good_of_not_pending hs.cur
  | bwClose => exact BwUnit.good_of_not_pending Cursor.good_unbound
  | _ => exact hs

/-! ### MEM -/

/-- A commit that goes on keeps the canonical form of MEM (R60, R143). -/
theorem wf_commit {s : State} (hm : Memory.wf s.mem = true) (hmem : s.bw.outside = none) :
    Memory.wf (commit s).mem = true :=
  wf_commitMem hm (outside_eq_none.1 hmem)

/-- Every command keeps the canonical form of MEM: what CONV writes ends inside MEM, and so does what a commit writes
(R60, R143, R170). -/
theorem CommandAnswer.mem_wf {i : Instr} {s t : State} (h : CommandAnswer i s t) (hs : Memory.wf s.mem = true) :
    Memory.wf t.mem = true := by
  cases h with
  | conv hconv heven hinside =>
    refine wf_memWrite hs _ ?_
    rwa [apply_length_of_codes _ hconv (by rwa [memRead_length]), memRead_length]
  | bwBind _ hmem => exact wf_commit hs hmem
  | bwSeek _ _ hmem => exact wf_commit hs hmem
  | bwFlush hmem => exact wf_commit hs hmem
  | bwClose hmem => exact wf_commit hs hmem
  | _ => exact hs

/-- A byte of MEM written by the host keeps the canonical form. -/
theorem ByteWritten.wf {m m' : Memory} (h : ByteWritten m m') (hm : Memory.wf m = true) : Memory.wf m' = true := by
  cases h with
  | same => exact hm
  | byte ha => exact wf_memSet hm ha _

/-- The reset event keeps the canonical form of MEM (R261, R262). -/
theorem wf_afterReset {s : State} (hm : Memory.wf s.mem = true) (hmem : s.bw.outside = none) :
    Memory.wf (afterReset s).mem = true := by
  refine wf_scrambleBytes hm _ fun a ha => ?_
  obtain ⟨kb, hkb, rfl⟩ := mem_pendingBytes.1 ha
  exact outside_eq_none.1 hmem kb hkb

end Sys2Proof.Machine

/-!
PROOFS. What every step keeps of the FrameSynchronizer (spec/10_state.md R23 to R37, spec/43_frame_sync.md R193 to
R212).
-/
namespace Sys2Proof.Machine

/-! ### What one step of the FS changes -/

/-- `g` has the binding, the buffer, the input cursor and the generation of `f`: the fields no step of the search writes
(R207 to R212). -/
structure FsUnit.SameInput (f g : FsUnit) : Prop where
  bound : g.bound = f.bound
  parser : g.parser = f.parser
  h : g.h = f.h
  fmin : g.fmin = f.fmin
  fmax : g.fmax = f.fmax
  cap : g.cap = f.cap
  arena : g.arena = f.arena
  gen : g.gen = f.gen
  inPtr : g.inPtr = f.inPtr
  inEnd : g.inEnd = f.inEnd

/-- The unit the raw scan runs on: `f` while it is not synced, else `f` desynced at offset 0 (R207, R208). -/
inductive FsUnit.Scanned (f : FsUnit) : FsUnit → Prop where
  | unsynced (hsync : f.sync = false) : Scanned f f
  | desynced : Scanned f { f with sync := false, scanPos := 0 }

/-- What a step of the FS can put out: the debris of a scan that failed, a confirmed first frame, or a frame of the fast
path (R207 to R212). -/
inductive FsUnit.Output (D : ParserDescriptor) (f : FsUnit) : FsUnit → Prop where
  | debris {u} (hscan : f.Scanned u)
      (hfail : ∀ x, u.scanPos.toNat ≤ x → x < u.fmax.toNat → CandidateFails D u x) : Output D f (emitDebris u)
  | confirmed {u p h1 q} (hscan : f.Scanned u) (hq : q ∈ win u p h1) (hbuf : q + u.h.toNat ≤ u.fill) :
      Output D f (confirmFrame p h1 q u)
  | synced {h len} (hpos : 1 ≤ len) (hlen : len ≤ f.fill) : Output D f (emitSynced len h f)

/-- How a step of the FS that needs input leaves it: at a candidate 1 below `Fmax`, or synced as it was (R203, R207,
R208). -/
inductive FsUnit.Waiting (f : FsUnit) : FsUnit → Prop where
  | scanning {u p} (hscan : f.Scanned u) (hp : p < u.fmax.toNat) : Waiting f { u with scanPos := toWord p }
  | synced : Waiting f f

section Step
variable {D : ParserDescriptor} {f g u : FsUnit}

theorem FsUnit.Scanned.of_cases
    (h : u = f ∧ f.sync = false ∨ u = { f with sync := false, scanPos := 0 } ∧ f.sync = true) : f.Scanned u := by
  obtain ⟨rfl, hsync⟩ | ⟨rfl, -⟩ := h
  · exact .unsynced hsync
  · exact .desynced

theorem FsUnit.Scanned.sync_eq_false (h : f.Scanned u) : u.sync = false := by
  cases h with
  | unsynced hsync => exact hsync
  | desynced => rfl

theorem FsUnit.Scanned.sameInput (h : f.Scanned u) : f.SameInput u := by
  cases h <;> exact ⟨rfl, rfl, rfl, rfl, rfl, rfl, rfl, rfl, rfl, rfl⟩

/-- The offsets of a window lie behind the frame's first byte (R197). -/
theorem lt_of_mem_win {i x : Nat} {h : HeaderInfo} (hx : x ∈ win f i h) : i < x := by
  have hlo := (mem_win.1 hx).1
  have hpos := winLo_pos (f := f) (h := h)
  omega

/-- Every output of a step is one of those `FsUnit.Output` lists. -/
theorem fsStep_output (h : fsStep D f = .done g) : f.Output D g := by
  obtain ⟨u, hu, hdone⟩ | ⟨h0, -, -, -, -, hfast⟩ := fsStep_done h
  · have hscan := FsUnit.Scanned.of_cases hu
    obtain ⟨rfl, hfail⟩ | ⟨p, h1, q, -, -, -, -, hfound, rfl, -⟩ := scanFrom_done hdone
    · exact .debris hscan fun x hlo hhi => hfail x hlo (by omega)
    · obtain ⟨hq, hbuf, -⟩ := search2_found hfound
      exact .confirmed hscan hq (buffered_iff.1 hbuf)
  · obtain ⟨hsize, hlen, rfl⟩ | ⟨j, -, hfound, rfl⟩ := hfast
    · have hne : h0.frameSize.toNat ≠ 0 := fun hc => hsize (BitVec.eq_of_toNat_eq hc)
      exact .synced (by omega) hlen
    · obtain ⟨hj, hbuf, -⟩ := searchNext_found hfound
      have hpos := lt_of_mem_win (mem_tryFirst.1 hj)
      have hle := buffered_iff.1 hbuf
      exact .synced hpos (by omega)

/-- Every step that needs input ends as `FsUnit.Waiting` lists. -/
theorem fsStep_waiting (h : fsStep D f = .need g) : f.Waiting g := by
  obtain ⟨u, hu, hneed⟩ | ⟨-, rfl, -⟩ := fsStep_need h
  · obtain ⟨p, hlo, hhi, rfl, -⟩ := scanFrom_need hneed
    exact .scanning (.of_cases hu) (by omega)
  · exact .synced

theorem FsUnit.Output.sameInput (h : f.Output D g) : f.SameInput g := by
  cases h with
  | debris hscan => exact { hscan.sameInput with }
  | confirmed hscan => exact { hscan.sameInput with }
  | synced => exact ⟨rfl, rfl, rfl, rfl, rfl, rfl, rfl, rfl, rfl, rfl⟩

theorem FsUnit.Waiting.sameInput (h : f.Waiting g) : f.SameInput g := by
  cases h with
  | scanning hscan => exact { hscan.sameInput with }
  | synced => exact ⟨rfl, rfl, rfl, rfl, rfl, rfl, rfl, rfl, rfl, rfl⟩

end Step

/-! ### The views of an output -/

section Views
variable {g : FsUnit}

theorem FsUnit.viewsGood_of_none (hdebris : g.debris = View.empty) (hframe : g.frame = View.empty)
    (hconsumed : g.consumed = 0) (hresult : g.result = .noOutput) : g.ViewsGood := by
  constructor <;> simp [hdebris, hframe, hconsumed, hresult, View.empty]

theorem toNat_toWord_of_le_fill (hfill : g.fill < 2 ^ 32) {n : Nat} (hn : n ≤ g.fill) : (toWord n).toNat = n :=
  Nat.mod_eq_of_lt (by omega)

theorem toWord_ne_zero (hfill : g.fill < 2 ^ 32) {n : Nat} (hpos : 1 ≤ n) (hn : n ≤ g.fill) : toWord n ≠ 0 := by
  intro hc
  have hzero : (toWord n).toNat = 0 := by rw [hc]; rfl
  rw [toNat_toWord_of_le_fill hfill hn] at hzero
  omega

/-- The views of a debris of `n` bytes and no frame (R32, R33). -/
theorem FsUnit.viewsGood_of_debris (hfill : g.fill < 2 ^ 32) {n : Nat} (hpos : 1 ≤ n) (hn : n ≤ g.fill)
    (hdebris : g.debris = viewAt 0 n) (hframe : g.frame = View.empty) (hconsumed : g.consumed = toWord n)
    (hresult : g.result = .debris) : g.ViewsGood where
  consumed_le := by rwa [hconsumed, toNat_toWord_of_le_fill hfill hn]
  covers := by simp [hconsumed, hdebris, hframe, viewAt, View.empty]
  debris_off := by rw [hdebris]; rfl
  frame_off := fun h => absurd (by rw [hframe]; rfl) h
  frame_empty := fun _ => hframe
  is_frame := by simp [hresult, hframe, View.empty]
  is_none := by simpa [hresult, hconsumed] using toWord_ne_zero hfill hpos hn

/-- The views of a frame of `len` bytes behind `p` bytes of debris (R32, R33). -/
theorem FsUnit.viewsGood_of_frame (hfill : g.fill < 2 ^ 32) {p len : Nat} (hpos : 1 ≤ len) (hle : p + len ≤ g.fill)
    (hdebris : g.debris = if 0 < p then viewAt 0 p else View.empty) (hframe : g.frame = viewAt p len)
    (hconsumed : g.consumed = toWord (p + len)) (hresult : g.result = .frame) : g.ViewsGood := by
  have hdebris' : g.debris = viewAt 0 p := by
    rw [hdebris]
    split
    · rfl
    · rw [show p = 0 by omega]
      rfl
  have hlen : g.frame.len ≠ 0 := by
    rw [hframe]
    exact toWord_ne_zero hfill hpos (by omega)
  have hcovers : g.consumed.toNat = p + len := by rw [hconsumed, toNat_toWord_of_le_fill hfill hle]
  exact
    { consumed_le := hcovers ▸ hle
      covers := by
        rw [hcovers, hdebris', hframe]
        simp only [viewAt]
        rw [toNat_toWord_of_le_fill hfill (by omega), toNat_toWord_of_le_fill hfill (by omega)]
      debris_off := by rw [hdebris']; rfl
      frame_off := fun _ => by rw [hframe, hdebris']; rfl
      frame_empty := fun h => absurd h hlen
      is_frame := iff_of_true hresult hlen
      is_none := by simpa [hresult, hconsumed] using toWord_ne_zero hfill (by omega) hle }

end Views

/-! ### From a good FS to a good FS -/

/-- A bound FS that has dropped its last output and holds what it has buffered: what FS_LOAD and FS_FLUSH go on from
(R193, R194). -/
structure FsUnit.Dropped (f : FsUnit) : Prop where
  bound : f.bound = true
  sizes : f.SizesGood
  fill_le : f.fill ≤ f.cap.toNat
  consumed : f.consumed = 0
  debris : f.debris = View.empty
  frame : f.frame = View.empty
  hi_cleared : f.hiValid = false → f.hi = noHeader
  sync_has_hi : f.sync = true → f.hiValid = true

section Good
variable {D : ParserDescriptor} {f g u : FsUnit}

/-- The generation and the input cursor are no part of what a good FS is. -/
theorem FsUnit.Good.withCursor (h : f.Good) (gen p e : Word) :
    FsUnit.Good { f with gen := gen, inPtr := p, inEnd := e } where
  unbound hb := { h.unbound hb with }
  sizes hb := { h.sizes hb with }
  fill_le := h.fill_le
  views := { h.views with }
  hi_cleared := h.hi_cleared
  sync_has_hi := h.sync_has_hi

theorem FsUnit.Good.bumpGen (h : f.Good) : (bumpGen f).Good := h.withCursor (f.gen + 1) f.inPtr f.inEnd

/-- A unit with the sizes of a bound one, a search position below `Fmax` and good views is good. -/
theorem FsUnit.Dropped.good_of_sameInput (hf : f.Dropped) (hsame : f.SameInput g)
    (hscan : g.scanPos.toNat < f.fmax.toNat) (hviews : g.ViewsGood) (hhi : g.hiValid = false → g.hi = noHeader) (hsync : g.sync = true → g.hiValid = true) :
    g.Good where
  unbound hb := absurd hb (by simp [hsame.bound, hf.bound])
  sizes _ :=
    { h_pos := hsame.h ▸ hf.sizes.h_pos
      fmax_pos := hsame.fmax ▸ hf.sizes.fmax_pos
      fmin_le := by rw [hsame.fmin, hsame.fmax]; exact hf.sizes.fmin_le
      cap_eq := by rw [hsame.cap, hsame.fmax, hsame.h]; exact hf.sizes.cap_eq
      scan_lt := by rwa [hsame.fmax] }
  fill_le := by rw [FsUnit.fill, hsame.arena, hsame.cap]; exact hf.fill_le
  views := hviews
  hi_cleared := hhi
  sync_has_hi := hsync

theorem FsUnit.Scanned.hi (h : f.Scanned u) : u.hi = f.hi ∧ u.hiValid = f.hiValid := by
  cases h <;> exact ⟨rfl, rfl⟩

theorem FsUnit.Scanned.fill (h : f.Scanned u) : u.fill = f.fill := by
  cases h <;> rfl

/-- The frame a confirmation emits has at least one byte and ends where candidate 2 stands, or before (R211). -/
theorem confirmedLen_bounds {p q : Nat} {h1 : HeaderInfo} (hq : q ∈ win f p h1) :
    1 ≤ (if h1.frameSize ≠ 0 then h1.frameSize.toNat else q - p) ∧
      p + (if h1.frameSize ≠ 0 then h1.frameSize.toNat else q - p) ≤ q := by
  have hlo := (mem_win.1 hq).1
  have hpos := winLo_pos (f := f) (h := h1)
  unfold winLo at hlo hpos
  split at hlo <;> rename_i hsize
  · rw [if_pos hsize] at hpos ⊢
    exact ⟨hpos, hlo⟩
  · rw [if_neg hsize] at hpos ⊢
    omega

/-- Every output of a step leaves a good FS (R207 to R212). -/
theorem FsUnit.Dropped.good_of_output (hf : f.Dropped) (h : f.Output D g) : g.Good := by
  have hfill : f.fill < 2 ^ 32 := Nat.lt_of_le_of_lt hf.fill_le f.cap.isLt
  have hfmax := hf.sizes.fmax_pos
  have hsame := h.sameInput
  cases h with
  | @debris u hscan hfail =>
    obtain ⟨hhi, hvalid⟩ := hscan.hi
    have hu := hscan.sameInput
    have hscanPos : u.scanPos.toNat < u.fmax.toNat := by
      rw [hu.fmax]
      cases hscan with
      | unsynced => exact hf.sizes.scan_lt
      | desynced => exact hfmax
    have hlast := (hfail (u.fmax.toNat - 1) (by omega) (by omega)).1
    have hle : u.fmax.toNat ≤ u.fill := by
      have hH := hf.sizes.h_pos
      rw [hu.h] at hlast
      omega
    refine hf.good_of_sameInput hsame hfmax ?_ ?_ ?_
    · exact FsUnit.viewsGood_of_debris (g := emitDebris u) (n := u.fmax.toNat) (hscan.fill ▸ hfill)
        (hu.fmax ▸ hfmax) hle rfl rfl (by simp) rfl
    · simpa [hhi, hvalid] using hf.hi_cleared
    · simp [hscan.sync_eq_false]
  | @confirmed u p h1 q hscan hq hbuf =>
    obtain ⟨hpos, hle⟩ := confirmedLen_bounds hq
    refine hf.good_of_sameInput hsame hfmax ?_ (by simp) (by simp)
    exact FsUnit.viewsGood_of_frame (g := confirmFrame p h1 q u) (hscan.fill ▸ hfill) hpos
      (Nat.le_trans hle (Nat.le_of_add_right_le hbuf)) rfl rfl rfl rfl
  | @synced h0 len hpos hlen =>
    refine hf.good_of_sameInput hsame hf.sizes.scan_lt ?_ (by simp) (by simp)
    exact FsUnit.viewsGood_of_frame (g := emitSynced len h0 f) (p := 0) hfill hpos (by rwa [Nat.zero_add]) rfl rfl
      (by rw [Nat.zero_add, emitSynced_consumed]) rfl

/-- A step that needs input leaves a good FS with no output (R203). -/
theorem FsUnit.Dropped.good_of_waiting (hf : f.Dropped) (h : f.Waiting g) :
    FsUnit.Good { g with result := .noOutput } := by
  have hsame : f.SameInput { g with result := .noOutput } := { h.sameInput with }
  cases h with
  | @scanning u p hscan hp =>
    obtain ⟨hhi, hvalid⟩ := hscan.hi
    have hu := hscan.sameInput
    have hlt : (toWord p).toNat < f.fmax.toNat := by
      rw [hu.fmax] at hp
      rwa [toWord, BitVec.toNat_ofNat, Nat.mod_eq_of_lt (Nat.lt_trans hp f.fmax.isLt)]
    refine hf.good_of_sameInput hsame hlt ?_ ?_ ?_
    · cases hscan <;> exact FsUnit.viewsGood_of_none hf.debris hf.frame hf.consumed rfl
    · simpa [hhi, hvalid] using hf.hi_cleared
    · simp [hscan.sync_eq_false]
  | synced =>
    exact hf.good_of_sameInput hsame hf.sizes.scan_lt (FsUnit.viewsGood_of_none hf.debris hf.frame hf.consumed rfl)
      hf.hi_cleared hf.sync_has_hi

/-- The drop of the last output (R205). -/
theorem FsUnit.Good.dropped (h : f.Good) (hb : f.bound = true) : (dropOutput f).Dropped where
  bound := hb
  sizes := { h.sizes hb with }
  fill_le := by
    have := h.fill_le
    simp only [FsUnit.fill, dropOutput_arena, dropOutput_cap, List.length_drop] at this ⊢
    omega
  consumed := rfl
  debris := rfl
  frame := rfl
  hi_cleared := h.hi_cleared
  sync_has_hi := h.sync_has_hi

/-- A top-up fills the arena no further than its capacity (R206). -/
theorem FsUnit.Dropped.topUp (h : f.Dropped) (m : Memory) : (topUp m f).Dropped where
  bound := h.bound
  sizes := { h.sizes with }
  fill_le := by
    have := h.fill_le
    simp only [FsUnit.fill, topUp_arena, topUp_cap, List.length_append, memRead_length, topUpCount] at this ⊢
    omega
  consumed := h.consumed
  debris := h.debris
  frame := h.frame
  hi_cleared := h.hi_cleared
  sync_has_hi := h.sync_has_hi

/-- A cleared stream leaves a good FS: bound with its sizes, or unbound (R192, R195). -/
theorem FsUnit.Good.streamClear (h : f.Good) : FsUnit.Good { streamClear f with count := 0 } where
  unbound hb := { h.unbound hb with sync := rfl, scan := rfl }
  sizes hb := { h.sizes hb with scan_lt := (h.sizes hb).fmax_pos }
  fill_le := Nat.zero_le _
  views := FsUnit.viewsGood_of_none rfl rfl rfl rfl
  hi_cleared _ := rfl
  sync_has_hi := by simp

/-- The sizes a bind latches are the descriptor's own: each of them is below `2^32` (R31, R104). -/
theorem toNat_sizes_of_bindable {P : Platform} (h : bindable P D = true) :
    (toWord D.headerSize).toNat = D.headerSize ∧ (toWord D.minFrameSize).toNat = D.minFrameSize ∧
      (toWord D.maxFrameSize).toNat = D.maxFrameSize ∧ (toWord (capacityOf D)).toNat = capacityOf D := by
  obtain ⟨-, -, hmin, -, hcap⟩ := bindable_iff.1 h
  have hsizes : capacityOf D = 3 * D.maxFrameSize + D.headerSize := rfl
  refine ⟨?_, ?_, ?_, ?_⟩ <;> exact Nat.mod_eq_of_lt (by omega)

/-- A bind leaves a good FS (R190). -/
theorem FsUnit.good_boundUnit {P : Platform} (h : bindable P D = true) (pidx : Nat) (f : FsUnit) :
    (boundUnit pidx D f).Good := by
  obtain ⟨hH, hmin, hmax, hcap⟩ := toNat_sizes_of_bindable h
  obtain ⟨hHpos, hmaxPos, hle, -⟩ := bindable_iff.1 h
  exact
    { unbound := fun hb => absurd hb (by simp)
      sizes := fun _ =>
        { h_pos := by rwa [boundUnit_h, hH]
          fmax_pos := by rwa [boundUnit_fmax, hmax]
          fmin_le := by rwa [boundUnit_fmin, boundUnit_fmax, hmin, hmax]
          cap_eq := by rw [boundUnit_cap, boundUnit_fmax, boundUnit_h, hcap, hmax, hH]; rfl
          scan_lt := by rw [boundUnit_fmax, hmax]; exact hmaxPos }
      fill_le := Nat.zero_le _
      views := FsUnit.viewsGood_of_none rfl rfl rfl rfl
      hi_cleared := fun _ => rfl
      sync_has_hi := by simp }

/-- A release of the parser leaves a good FS (R191). -/
theorem FsUnit.good_unboundUnit (f : FsUnit) : (unboundUnit f).Good where
  unbound _ := ⟨rfl, rfl, rfl, rfl, rfl, rfl, rfl⟩
  sizes hb := absurd hb (by simp)
  fill_le := Nat.zero_le _
  views := FsUnit.viewsGood_of_none rfl rfl rfl rfl
  hi_cleared _ := rfl
  sync_has_hi := by simp

theorem flushOutput_sameInput (f : FsUnit) : f.SameInput (flushOutput f) := by
  unfold flushOutput
  split <;> exact ⟨rfl, rfl, rfl, rfl, rfl, rfl, rfl, rfl, rfl, rfl⟩

/-- The views of a flush: all that is buffered as one debris, or nothing (R194). -/
theorem FsUnit.Dropped.viewsGood_flushOutput (h : f.Dropped) : (flushOutput f).ViewsGood := by
  have hfill : f.fill < 2 ^ 32 := Nat.lt_of_le_of_lt h.fill_le f.cap.isLt
  unfold flushOutput
  split
  · rename_i hpos
    exact FsUnit.viewsGood_of_debris hfill hpos (Nat.le_refl _) rfl rfl rfl rfl
  · exact FsUnit.viewsGood_of_none rfl rfl h.consumed rfl

/-- A flush leaves a good FS (R194). -/
theorem FsUnit.Dropped.good_flush (h : f.Dropped) :
    FsUnit.Good
      { flushOutput f with sync := false, scanPos := 0, lastLen := 0, hiValid := false, hi := noHeader } :=
  h.good_of_sameInput { flushOutput_sameInput f with } h.sizes.fmax_pos { h.viewsGood_flushOutput with } (fun _ => rfl)
    (by simp)

end Good

/-- Every command keeps the FS good. -/
theorem CommandAnswer.fs_good {i : Instr} {s t : State} (h : CommandAnswer i s t) (hs : s.fs.Good) : t.fs.Good := by
  cases h with
  | fsBind _ hsizes => exact (FsUnit.good_boundUnit hsizes _ _).bumpGen
  | fsUnbind => exact (FsUnit.good_unboundUnit _).bumpGen
  | fsReset => exact hs.streamClear.bumpGen
  | fsLoadNeed hbound hstep =>
    exact (((hs.dropped hbound).topUp s.mem).good_of_waiting (fsStep_waiting hstep)).bumpGen
  | fsLoadDone hbound hstep => exact (((hs.dropped hbound).topUp s.mem).good_of_output (fsStep_output hstep)).bumpGen
  | fsFlush hbound => exact (hs.dropped hbound).good_flush.bumpGen
  | _ => exact hs

/-! ### The whole state -/

/-- The state after reset is a good one (R44, R260), whatever MEM holds. -/
theorem State.inv_of_reset {s : State} (hmem : Memory.wf s.mem = true) (hbr : s.br = BrUnit.reset)
    (hbw : s.bw = BwUnit.reset) (hfs : s.fs = FsUnit.reset) : s.Inv where
  mem := hmem
  br := hbr ▸ BrUnit.good_of_not_cached Cursor.good_unbound rfl
  bw := hbw ▸ BwUnit.good_of_not_pending Cursor.good_unbound
  fs := hfs ▸ FsUnit.good_unboundUnit FsUnit.reset

/-- Every command keeps the invariant. -/
theorem CommandAnswer.inv {i : Instr} {s t : State} (h : CommandAnswer i s t) (hs : s.Inv) : t.Inv where
  mem := h.mem_wf hs.mem
  br := h.br_good hs.br
  bw := h.bw_good hs.bw
  fs := h.fs_good hs.fs

/-- Every step keeps the invariant. -/
theorem StepAnswer.inv {s t : State} (h : StepAnswer s t) (hs : s.Inv) : t.Inv := by
  cases h with
  | idle => exact hs
  | command _ hanswer => exact hanswer.inv { hs with }
  | rejected => exact { hs with }
  | reset _ hmem => exact State.inv_of_reset (wf_afterReset hs.mem hmem) rfl rfl rfl
  | access _ _ hmem => exact { hs with mem := hmem.wf hs.mem, fs := hs.fs.withCursor _ _ _ }

end Sys2Proof.Machine

section
open Sys2Proof Sys2Proof.Machine

/-- Settles O11: nothing is bound, nothing is pending and MEM lists nothing. -/
theorem resetStateIsGood : Obligations.ResetStateIsGood :=
  State.inv_of_reset rfl rfl rfl rfl

/-- Settles O12, by cases on what a step can do: each unit's part of the invariant is kept by every command that writes
the unit. -/
theorem everyStepKeepsGoodStates : Obligations.EveryStepKeepsGoodStates := by
  intro s t hs h
  exact (step_answer h).inv hs
end

/-!
PROOFS. What each command and each step leaves alone (spec/10_state.md R20, R25, R34, R35, R37, spec/20_memory.md R60,
R74).
-/
namespace Sys2Proof.Machine

/-! ### Frames of the commands -/

section Frames
variable {D : ParserDescriptor} {f g : FsUnit} {i : Instr} {s t : State}

/-- A load that makes an output writes the buffer and `FS_IN_PTR` by its drop and its top-up only (R193, R205, R206). -/
theorem loadStep_done_sameInput {m : Memory} (h : loadStep D m f = .done g) : (topUp m (dropOutput f)).SameInput g :=
  (fsStep_output h).sameInput

/-- So does a load that needs input. -/
theorem loadStep_need_sameInput {m : Memory} (h : loadStep D m f = .need g) : (topUp m (dropOutput f)).SameInput g :=
  (fsStep_waiting h).sameInput

/-- No command writes an argument register, `FS_IN_END` or the host's side. -/
theorem CommandAnswer.host_frame (h : CommandAnswer i s t) :
    t.arg0 = s.arg0 ∧ t.arg1 = s.arg1 ∧ t.arg2 = s.arg2 ∧ t.fs.inEnd = s.fs.inEnd ∧ t.bus = s.bus ∧
      t.hostData = s.hostData := by
  cases h with
  | fsLoadNeed _ hstep => exact ⟨rfl, rfl, rfl, (loadStep_need_sameInput hstep).inEnd, rfl, rfl⟩
  | fsLoadDone _ hstep => exact ⟨rfl, rfl, rfl, (loadStep_done_sameInput hstep).inEnd, rfl, rfl⟩
  | fsFlush => exact ⟨rfl, rfl, rfl, (flushOutput_sameInput (dropOutput s.fs)).inEnd, rfl, rfl⟩
  | _ => exact ⟨rfl, rfl, rfl, rfl, rfl, rfl⟩

/-- The reader's commands write the reader and `RES0` only (R20, R120 to R130). -/
theorem CommandAnswer.br_frame (h : CommandAnswer i s t) (hi : isBrCommand i = true) :
    t = { s with status := t.status, res0 := t.res0, br := t.br } := by
  cases h with
  | turnedAway | brBind | brGet | brGets | brGetb | brSeek | brUnbind => rfl
  | _ => cases hi

/-- A put writes the writer only (R141). -/
theorem CommandAnswer.put_frame (h : CommandAnswer i s t) (hi : isPutCommand i = true) :
    t = { s with status := t.status, bw := t.bw } := by
  cases h with
  | turnedAway | bwPut | bwPutb => rfl
  | _ => cases hi

/-- A commit changes pending bytes only (R143). -/
theorem memByte_commit_of_not_pending {a : Nat} (ha : s.bw.isPending a = false) :
    memByte (commit s).mem a = memByte s.mem a := by
  refine memByte_commitMem_outside s.mem fun kb hkb hbyte => ?_
  have hpending := isPending_iff.2 ⟨kb, hkb, hbyte⟩
  simp [ha] at hpending

/-- The writer's other commands write the writer and pending bytes only (R74, R143). -/
theorem CommandAnswer.commit_frame (h : CommandAnswer i s t) (hi : isCommitCommand i = true) :
    t = { s with status := t.status, bw := t.bw, mem := t.mem } ∧
      ∀ a, s.bw.isPending a = false → memByte t.mem a = memByte s.mem a := by
  cases h with
  | turnedAway | bwBindFirst => exact ⟨rfl, fun _ _ => rfl⟩
  | bwBind | bwSeek | bwFlush | bwClose => exact ⟨rfl, fun _ ha => memByte_commit_of_not_pending ha⟩
  | _ => cases hi

/-- The FS commands write the FS only, and `FS_IN_PTR` by FS_LOAD only (R37, R60). -/
theorem CommandAnswer.fs_frame (h : CommandAnswer i s t) (hi : isFsCommand i = true) :
    t = { s with status := t.status, fs := t.fs } ∧ (i ≠ .fsLoad → t.fs.inPtr = s.fs.inPtr) := by
  cases h with
  | turnedAway | fsBind | fsUnbind | fsReset => exact ⟨rfl, fun _ => rfl⟩
  | fsLoadNeed | fsLoadDone => exact ⟨rfl, fun hload => absurd rfl hload⟩
  | fsFlush => exact ⟨rfl, fun _ => (flushOutput_sameInput (dropOutput s.fs)).inPtr⟩
  | _ => cases hi

/-- CONV_QUERY writes its two results only (R171). -/
theorem CommandAnswer.convQuery_frame {f t' : Nat} (h : CommandAnswer (.convQuery f t') s t) :
    t = { s with status := t.status, res0 := t.res0, res1 := t.res1 } := by
  cases h <;> rfl

/-! ### The generation, the counter and the binding of the FS, command by command -/

theorem Status.not_ended_well_of_isFailure {e : Status} (h : e.isFailure = true) : ¬(e = .ok ∨ e = .needInput) := by
  rintro (rfl | rfl) <;> cases h

/-- A command leaves the whole FS alone, or it is an FS command that ends with `OK` or `NEED_INPUT` and counts one
generation (R35, R242). -/
theorem CommandAnswer.fs_kept_or_counted (h : CommandAnswer i s t) :
    (¬(isFsCommand i = true ∧ (t.status = .ok ∨ t.status = .needInput)) ∧ t.fs = s.fs) ∨
      ((isFsCommand i = true ∧ (t.status = .ok ∨ t.status = .needInput)) ∧ t.fs.gen = s.fs.gen + 1) := by
  cases h with
  | turnedAway hfail => exact .inl ⟨fun hok => Status.not_ended_well_of_isFailure hfail hok.2, rfl⟩
  | fsBind | fsUnbind | fsReset => exact .inr ⟨⟨rfl, .inl rfl⟩, rfl⟩
  | fsLoadNeed _ hstep => exact .inr ⟨⟨rfl, .inr rfl⟩, congrArg (· + 1) (loadStep_need_sameInput hstep).gen⟩
  | fsLoadDone _ hstep => exact .inr ⟨⟨rfl, .inl rfl⟩, congrArg (· + 1) (loadStep_done_sameInput hstep).gen⟩
  | fsFlush =>
    exact .inr ⟨⟨rfl, .inl rfl⟩, congrArg (· + 1) (flushOutput_sameInput (dropOutput s.fs)).gen⟩
  | _ => exact .inl ⟨fun hfs => Bool.false_ne_true hfs.1, rfl⟩

/-- A generation counted is another generation (R35). -/
theorem gen_add_one_ne (x : Word) : x + 1 ≠ x := by simp

/-- The frame counter of a unit that a step has put out counts the frames (R34, R211, R212). -/
theorem FsUnit.Output.count (h : f.Output D g) : g.count = if g.result = .frame then f.count + 1 else f.count := by
  cases h with
  | debris hscan => cases hscan <;> rfl
  | confirmed hscan => cases hscan <;> rfl
  | synced => rfl

theorem FsUnit.Waiting.count (h : f.Waiting g) : g.count = f.count := by
  cases h with
  | scanning hscan => cases hscan <;> rfl
  | synced => rfl

theorem flushOutput_count (f : FsUnit) : (flushOutput f).count = f.count := by
  unfold flushOutput
  split <;> rfl

/-- What the frame counter is behind a command `i` that ends with `e` and `r`, from `c` before it (R34). -/
def countAfter (i : Instr) (e : Status) (r : FsResult) (c : Word) : Word :=
  if i = .fsLoad ∧ e = .ok ∧ r = .frame then c + 1
  else if clearsCounter i = true ∧ e = .ok then 0
  else c

/-- Every command counts its frames, clears the counter or leaves it (R34). -/
theorem CommandAnswer.count (h : CommandAnswer i s t) :
    t.fs.count = countAfter i t.status t.fs.result s.fs.count := by
  cases h with
  | @turnedAway _ _ e hfail =>
    have hok : e ≠ .ok := fun he => Status.not_ended_well_of_isFailure hfail (.inl he)
    simp [countAfter, hok]
  | fsLoadNeed _ hstep => exact (fsStep_waiting hstep).count
  | fsLoadDone _ hstep => simpa [countAfter, clearsCounter] using (fsStep_output hstep).count
  | fsFlush => exact flushOutput_count (dropOutput s.fs)
  | _ => rfl

/-- A bind latches the sizes of a descriptor that can be bound (R104). -/
theorem FsUnit.latched_boundUnit {P : Platform} {pidx : Nat} (hidx : pidx < P.np)
    (hsizes : bindable P (P.parsers pidx) = true) (f : FsUnit) : (boundUnit pidx (P.parsers pidx) f).Latched P := by
  intro _
  obtain ⟨hH, hmin, hmax, -⟩ := toNat_sizes_of_bindable hsizes
  have hpidx : (boundUnit pidx (P.parsers pidx) f).parser.toNat = pidx := by
    have hnp := P.npLess1.isLt
    rw [Platform.np] at hidx
    exact Nat.mod_eq_of_lt (by omega)
  rw [hpidx]
  exact ⟨hidx, hsizes, hH, hmin, hmax⟩

/-- The binding is all that `FsUnit.Latched` speaks of. -/
theorem FsUnit.SameInput.latched {P : Platform} (hsame : f.SameInput g) (hf : f.Latched P) : g.Latched P := by
  unfold FsUnit.Latched
  rw [hsame.bound, hsame.parser, hsame.h, hsame.fmin, hsame.fmax]
  exact hf

/-- Every command keeps the sizes of a bound FS those of its descriptor (R25). -/
theorem CommandAnswer.latched (h : CommandAnswer i s t) (hs : s.fs.Latched Config.platform) :
    t.fs.Latched Config.platform := by
  cases h with
  | fsBind hidx hsizes => exact FsUnit.latched_boundUnit hidx hsizes s.fs
  | fsUnbind => exact fun hbound => absurd hbound Bool.false_ne_true
  | fsLoadNeed _ hstep => exact (loadStep_need_sameInput hstep).latched hs
  | fsLoadDone _ hstep => exact (loadStep_done_sameInput hstep).latched hs
  | fsFlush => exact (flushOutput_sameInput (dropOutput s.fs)).latched hs
  | _ => exact hs

end Frames

/-! ### The FS over a whole step -/

section Steps
variable {s t : State}

theorem head_ne_reset_of_nextCommand {i : Instr} (h : s.nextCommand = some i) : s.bus.head? ≠ some .reset := by
  intro hreset
  obtain ⟨rest, hbus⟩ := List.head?_eq_some_iff.1 hreset
  rw [nextCommand_of_no_cmd hbus (by simp)] at h
  cases h

/-- What a step does to the FS: a reset clears it, a command runs on it as it is, and anything else moves the input cursor
only (R21, R37, R83, R260). -/
theorem StepAnswer.fs_cases (h : StepAnswer s t) :
    (s.bus.head? = some .reset ∧ t.fs = FsUnit.reset) ∨
      (s.bus.head? ≠ some .reset ∧ s.nextCommand = none ∧ ∃ p e, t.fs = { s.fs with inPtr := p, inEnd := e }) ∨
      (s.bus.head? ≠ some .reset ∧ ∃ i u, s.nextCommand = some i ∧ u.fs = s.fs ∧ CommandAnswer i u t) := by
  cases h with
  | idle hbus => exact .inr (.inl ⟨by simp [hbus], by simp [State.nextCommand, hbus], _, _, rfl⟩)
  | command hcmd hanswer =>
    exact .inr (.inr ⟨head_ne_reset_of_nextCommand hcmd, _, takenFromBus s.bus.tail s, hcmd, rfl, hanswer⟩)
  | rejected hreset hcmd => exact .inr (.inl ⟨hreset, hcmd, _, _, rfl⟩)
  | reset hreset => exact .inl ⟨hreset, rfl⟩
  | access hreset hcmd => exact .inr (.inl ⟨hreset, hcmd, _, _, rfl⟩)

/-- A host write to a register moves the input cursor of the FS at most (R83). -/
theorem writeReg_fs (s : State) (off v : Word) :
    ∃ p e, (writeReg s off v).fs = { s.fs with inPtr := p, inEnd := e } := by
  obtain h | h | h | h | h | h := writeReg_cases s off v <;> rw [h] <;> exact ⟨_, _, rfl⟩

end Steps
end Sys2Proof.Machine

section
open Sys2Proof Sys2Proof.Machine

/-- Settles O14: a bind latches the sizes of the descriptor it names, and a step changes the binding by a bind, an unbind
or the reset event only. -/
theorem boundSizesStayTheParsers : Obligations.BoundSizesStayTheParsers := by
  refine ⟨fun P pidx s t h hok => ?_, fun s t hs h => ?_⟩
  · obtain ⟨e, rfl, hfail⟩ | ⟨hidx, hsizes, rfl⟩ := fsBindOn_eq_next h
    · exact absurd (.inl hok) (Status.not_ended_well_of_isFailure hfail)
    · exact ⟨rfl, FsUnit.latched_boundUnit hidx hsizes s.fs⟩
  · obtain ⟨-, hfs⟩ | ⟨-, -, p, e, hfs⟩ | ⟨-, i, u, -, hu, hanswer⟩ := (step_answer h).fs_cases
    · rw [hfs]
      exact fun hbound => absurd hbound Bool.false_ne_true
    · rw [hfs]
      exact hs
    · exact hanswer.latched (hu ▸ hs)

/-- Settles O27: the counter of every command, and over a step the command it runs, the reset event or an access that
leaves the counter. -/
theorem frameCounterCountsFrames : Obligations.FrameCounterCountsFrames := by
  refine ⟨rfl, fun s off v => ?_, fun i s t h => (exec_answer h).count, fun s t h => ?_⟩
  · obtain ⟨p, e, hfs⟩ := writeReg_fs s off v
    rw [hfs]
  · obtain ⟨hreset, hfs⟩ | ⟨hreset, hcmd, p, e, hfs⟩ | ⟨hreset, i, u, hcmd, hu, hanswer⟩ := (step_answer h).fs_cases
    · rw [if_pos hreset, hfs]
      rfl
    · simp [hreset, hcmd, hfs]
    · rw [if_neg hreset, hcmd, hanswer.count, countAfter, hu]
      simp

/-- Settles O28: a command leaves the FS alone or counts one generation, and the generation it counts is another one. -/
theorem generationCountsFsMutations : Obligations.GenerationCountsFsMutations := by
  refine ⟨rfl, fun s off v => ?_, fun i s t h => ?_, fun s t h => ⟨fun hreset => ?_, fun hreset => ?_⟩⟩
  · obtain ⟨p, e, hfs⟩ := writeReg_fs s off v
    rw [hfs]
  · obtain ⟨hno, hfs⟩ | ⟨hyes, hgen⟩ := (exec_answer h).fs_kept_or_counted
    · rw [if_neg hno, hfs]
      exact ⟨rfl, fun _ => rfl⟩
    · rw [if_pos hyes, hgen]
      exact ⟨rfl, fun hsame => absurd hsame (gen_add_one_ne _)⟩
  · obtain ⟨-, hfs⟩ | ⟨hno, -⟩ | ⟨hno, -⟩ := (step_answer h).fs_cases
    · rw [hfs]
      rfl
    · exact absurd hreset hno
    · exact absurd hreset hno
  · obtain ⟨hyes, -⟩ | ⟨-, hcmd, p, e, hfs⟩ | ⟨-, i, u, hcmd, hu, hanswer⟩ := (step_answer h).fs_cases
    · exact absurd hyes hreset
    · simp [hcmd, hfs]
    · rw [hcmd, Option.any_some]
      obtain ⟨hno, hfs⟩ | ⟨hyes, hgen⟩ := hanswer.fs_kept_or_counted
      · rw [if_neg hno, hfs, hu]
        exact ⟨rfl, fun _ => rfl⟩
      · rw [if_pos hyes, hgen, hu]
        exact ⟨rfl, fun hsame => absurd hsame (gen_add_one_ne _)⟩

/-- Settles O60: the frame of each family of commands. -/
theorem commandsStayInTheirUnit : Obligations.CommandsStayInTheirUnit := by
  intro i s t h
  have hanswer := exec_answer h
  refine ⟨hanswer.host_frame, hanswer.br_frame, hanswer.put_frame, hanswer.commit_frame, hanswer.fs_frame, ?_⟩
  rintro f u rfl
  exact hanswer.convQuery_frame

end

/-!
PROOFS. Where a search looks, and the reader's refusal of a pending byte (spec/43_frame_sync.md R197, R198,
spec/41_bit_cursors.md R122, R124).
-/
namespace Sys2Proof.Machine

/-! ### Probes and windows -/

section Windows
variable {D : ParserDescriptor} {f : FsUnit}

theorem word_eq_zero_iff {x : Word} : x = 0 ↔ x.toNat = 0 := by
  rw [← BitVec.toNat_inj]
  rfl

/-- A declared size that R105 lets pass is none, or lies between `Fmin` and `Fmax`. -/
theorem sizeRejected_eq_false {h : HeaderInfo} :
    sizeRejected f h = false ↔
      h.frameSize.toNat = 0 ∨ (f.fmin.toNat ≤ h.frameSize.toNat ∧ h.frameSize.toNat ≤ f.fmax.toNat) := by
  simp only [sizeRejected, Bool.and_eq_false_iff, bne_eq_false_iff_eq, word_eq_zero_iff, Bool.or_eq_false_iff,
    decide_eq_false_iff_not, Nat.not_lt]
  omega

/-- A probe is valid where it parses and its declared size passes (R105). -/
theorem validAt_eq_some {i : Nat} {h : HeaderInfo} :
    validAt D f i = some h ↔ probe D f i = some h ∧ sizeRejected f h = false := by
  unfold validAt
  cases probe D f i with
  | none => simp
  | some h' =>
    simp only [Option.some.injEq]
    by_cases hr : sizeRejected f h' = true
    · rw [if_pos hr]
      exact iff_of_false nofun fun ⟨heq, hno⟩ => by rw [← heq, hr] at hno; cases hno
    · rw [if_neg hr, Option.some.injEq]
      exact ⟨fun heq => ⟨heq, heq ▸ Bool.eq_false_of_not_eq_true hr⟩, And.left⟩

/-- The offsets of a window are tried in rising order (R197). -/
theorem win_pairwise {i : Nat} {h : HeaderInfo} : (win f i h).Pairwise (· < ·) :=
  List.pairwise_lt_range'

/-- The members of a window of a declared size and of a free-format one (R197). -/
theorem mem_win_iff {i x : Nat} {h : HeaderInfo} :
    x ∈ win f i h ↔
      if h.frameSize.toNat ≠ 0 then
        i + h.frameSize.toNat ≤ x ∧ x ≤ i + max (min h.scanSize.toNat f.fmax.toNat) h.frameSize.toNat
      else
        i + max f.fmin.toNat 1 ≤ x ∧
          x ≤ i + (if h.scanSize.toNat ≠ 0 then min h.scanSize.toNat f.fmax.toNat else f.fmax.toNat) := by
  rw [mem_win, winLo, winHi]
  simp only [ne_eq, word_eq_zero_iff]
  split <;> rfl

/-- A window behind a valid header holds at most `Fmax` offsets (R197, R253). -/
theorem win_length_le {i q : Nat} {h : HeaderInfo} (hv : validAt D f i = some h) :
    (win f q h).length ≤ f.fmax.toNat := by
  have hlo := winLo_pos (f := f) (h := h)
  have hhi := winHi_le ((validAt_size hv).imp_right And.right)
  rw [win, List.length_range']
  omega

/-- Moving a member to the front makes a list no longer (R198). -/
theorem tryFirst_length_le (x : Nat) (l : List Nat) : (tryFirst x l).length ≤ l.length := by
  unfold tryFirst
  split
  · rename_i hx
    exact List.length_filter_lt_length_iff_exists.2 ⟨x, hx, by simp⟩
  · exact Nat.le_refl _

theorem win3_length_le {p q : Nat} {h : HeaderInfo} : (win3 f p q h).length ≤ (win f q h).length := by
  unfold win3
  split
  · exact Nat.le_refl _
  · exact tryFirst_length_le _ _

/-- The order of candidates 3: behind a free-format candidate 2 the 1-2 interval comes before the others, if it is in the
window (R198). -/
theorem win3_eq {p q : Nat} {h : HeaderInfo} :
    win3 f p q h =
      if h.frameSize.toNat = 0 ∧ q + (q - p) ∈ win f q h then
        (q + (q - p)) :: (win f q h).filter fun x => decide (x ≠ q + (q - p))
      else win f q h := by
  simp only [← word_eq_zero_iff, win3, tryFirst]
  by_cases hfree : h.frameSize = 0 <;> by_cases hmem : q + (q - p) ∈ win f q h <;>
    simp [hfree, hmem, bne, beq_eq_decide]

end Windows

/-! ### The reader's pre-check -/

/-- A get inside the region that must load a pending byte is turned away by the pre-check (R124). -/
theorem getField_of_pending {s : State} {n a : Nat} {put : Nat → Word} (hbound : s.br.cur.bound = true) (hn : n ≤ 32)
    (hfits : s.br.cur.pos.toNat + n ≤ s.br.cur.stop.toNat) (hloads : s.Loads n a) (hpending : s.bw.isPending a = true) :
    getField n put s = .next { s with status := .unflushedWriter } := by
  have hpos : n ≠ 0 := by
    obtain ⟨k, hlo, hhi, -⟩ := hloads
    omega
  have hcheck : preCheckFails s n = true := (preCheckFails_iff hpos).2 ⟨a, hloads, hpending⟩
  have hfield : s.br.cur.fieldFits n = true := fieldFits_iff.2 ⟨hn, hfits⟩
  simp [getField, hbound, hfield, hpos, hcheck, raise]

/-- The words and the bytes of a region (R64, R122). -/
theorem cursor_geometry (c : Cursor) (k : Nat) :
    c.base = c.buf.toNat - c.buf.toNat % 4 ∧ c.widxOf k = (k + 8 * (c.buf.toNat % 4)) / 32 ∧
      c.wbitOf k = 31 - (k + 8 * (c.buf.toNat % 4)) % 32 ∧ c.lo = c.buf.toNat + c.start.toNat / 8 ∧
        c.hi = c.buf.toNat + (c.stop.toNat + 7) / 8 := by
  have hoff : c.off = 8 * (c.buf.toNat % 4) := by
    rw [Cursor.off, Cursor.base]
    omega
  refine ⟨rfl, ?_, ?_, rfl, rfl⟩
  · rw [Cursor.widxOf, hoff]
  · rw [Cursor.wbitOf, hoff]

end Sys2Proof.Machine

section
open Sys2Proof Sys2Proof.Machine

/-- Settles O29: the members, the order and the length of each window, and what a valid probe is. -/
theorem windowsHoldAtMostFmaxCandidates : Obligations.WindowsHoldAtMostFmaxCandidates := by
  intro D f i p q h fs ss
  refine ⟨rfl, fun _ => ?_, fun x => mem_win_iff, win_pairwise, win3_eq, fun hv => ?_⟩
  · rw [validAt_eq_some, sizeRejected_eq_false]
    rfl
  · have hwin := win_length_le (q := q) hv
    exact ⟨hwin, Nat.le_trans win3_length_le hwin⟩

/-- Settles O43: the pre-check fails where a byte that must be loaded is pending, and the geometry is the cursor's. -/
theorem getOfAPendingByteIsRefused : Obligations.GetOfAPendingByteIsRefused := by
  refine ⟨fun s n a hbound hn hfits hloads hpending => ⟨?_, ?_, ?_⟩, cursor_geometry, fun w a => ?_⟩
  · exact getField_of_pending hbound hn hfits hloads hpending
  · exact getField_of_pending hbound hn hfits hloads hpending
  · rintro rfl
    exact getField_of_pending hbound hn hfits hloads hpending
  · rw [isPending_iff]
    exact ⟨fun ⟨kb, hkb, ha⟩ => ⟨kb.1, kb.2, hkb, ha.symm⟩, fun ⟨k, v, hkb, ha⟩ => ⟨(k, v), hkb, ha.symm⟩⟩

end

/-!
PROOFS. The register window: what a host read returns and what a host write reaches (spec/30_encoding.md R82, R83,
spec/20_memory.md R61).
-/
namespace Sys2Proof.Machine

/-! ### Offsets and registers -/

/-- The offset the map gives a register (R82). -/
def Reg.offset (r : Reg) : Word := toWord (((regMap.find? fun e => e.2 == r).map Prod.fst).getD 0)

theorem offset_of_mem_regMap : ∀ e ∈ regMap, e.2.offset = toWord e.1 := by decide

theorem regAt_of_mem_regMap : ∀ e ∈ regMap, regAt (toWord e.1) = some e.2 := by decide

/-- A register is listed at its own offset only (R82). -/
theorem offset_of_regAt {off : Word} {r : Reg} (h : regAt off = some r) : off = r.offset := by
  rw [offset_of_mem_regMap _ (regAt_eq_some.1 h), toWord, BitVec.ofNat_toNat, BitVec.setWidth_eq]

/-- Where no register is listed, the offset is none of the map's (R82). -/
theorem ne_of_regAt_eq_none {off : Word} (h : regAt off = none) : ∀ e ∈ regMap, off ≠ toWord e.1 := by
  rintro e he rfl
  rw [regAt_of_mem_regMap e he] at h
  cases h

/-! ### Accesses -/

section Accesses
variable {run : Instr → State → Result} {s : State} {off v : Word}

theorem alignedOffset_iff : alignedOffset off = true ↔ off.toNat % 4 = 0 := by simp [alignedOffset]

theorem alignedOffset_eq_false : alignedOffset off = false ↔ off.toNat % 4 ≠ 0 := by simp [alignedOffset]

theorem hostAct_regRead_aligned (h : off.toNat % 4 = 0) :
    hostAct run (.regRead off) s = .next (answered (readReg s off) s) := by
  simp [hostAct, alignedOffset_iff.2 h]

theorem hostAct_regRead_unaligned (h : off.toNat % 4 ≠ 0) :
    hostAct run (.regRead off) s = .next (drewFree (answered (nextFreeWord s) s)) := by
  simp [hostAct, alignedOffset_eq_false.2 h]

theorem hostAct_regWrite_aligned (h : off.toNat % 4 = 0) (hcmd : off ≠ 0) :
    hostAct run (.regWrite off v) s = .next (writeReg s off v) := by
  have hreg : regAt off ≠ some .cmd := fun hc => hcmd (regAt_eq_cmd.1 hc)
  simp [hostAct, alignedOffset_iff.2 h, hreg]

theorem hostAct_regWrite_unaligned (h : off.toNat % 4 ≠ 0) : hostAct run (.regWrite off v) s = .next s := by
  simp [hostAct, alignedOffset_eq_false.2 h]

/-- The five writable registers at their offsets; a write to any other is ignored (R83). -/
theorem writeReg_eq :
    writeReg s off v =
      if off = 0x008 then { s with arg0 := v }
      else if off = 0x00C then { s with arg1 := v }
      else if off = 0x010 then { s with arg2 := v }
      else if off = 0x048 then { s with fs := { s.fs with inPtr := v } }
      else if off = 0x04C then { s with fs := { s.fs with inEnd := v } }
      else s := by
  split_ifs with h0 h1 h2 h3 h4
  · subst h0; rfl
  · subst h1; rfl
  · subst h2; rfl
  · subst h3; rfl
  · subst h4; rfl
  · unfold writeReg
    split
    next h => exact absurd (offset_of_regAt h) h0
    next h => exact absurd (offset_of_regAt h) h1
    next h => exact absurd (offset_of_regAt h) h2
    next h => exact absurd (offset_of_regAt h) h3
    next h => exact absurd (offset_of_regAt h) h4
    next => rfl

end Accesses

/-! ### The words of the status registers -/

/-- An append as a sum: the high part moved up by the width of the low one. -/
theorem toNat_append_eq_add {m n : Nat} (x : BitVec m) (y : BitVec n) : (x ++ y).toNat = 2 ^ n * x.toNat + y.toNat := by
  rw [BitVec.toNat_append, ← Nat.shiftLeft_add_eq_or_of_lt y.isLt, Nat.shiftLeft_eq, Nat.mul_comm]

theorem toNat_ofBool_eq_bitNat (b : Bool) : (BitVec.ofBool b).toNat = bitNat b := by
  cases b <;> rfl

/-- `STATUS` code by code (R240). -/
theorem statusWord_eq (e : Status) :
    statusWord e =
      if e = .ok then 0 else if e = .needInput then 1 else if e = .outOfRangeBitAccess then 2
      else if e = .unflushedWriter then 3 else if e = .unsupportedConversion then 4 else if e = .badLength then 5
      else if e = .overlap then 6 else if e = .notBound then 7 else if e = .illegalCommand then 8
      else if e = .illegalValue then 9 else if e = .badParserParams then 10 else 11 := by
  cases e <;> rfl

/-- `FS_RESULT` code by code (R33). -/
theorem resultCode_eq (r : FsResult) : toWord r.code = if r = .noOutput then 0 else if r = .frame then 1 else 2 := by
  cases r <;> rfl

/-- `FS_STATE` bit by bit (R82). -/
theorem fsStateWord_eq_append (f : FsUnit) :
    fsStateWord f =
      0#16 ++ f.parser ++ 0#5 ++ BitVec.ofBool f.hiValid ++ BitVec.ofBool f.sync ++ BitVec.ofBool f.bound := by
  apply BitVec.eq_of_toNat_eq
  have hb := (BitVec.ofBool f.bound).isLt
  have hs := (BitVec.ofBool f.sync).isLt
  have hv := (BitVec.ofBool f.hiValid).isLt
  have hp := f.parser.isLt
  simp only [toNat_append_eq_add, toNat_ofBool_eq_bitNat, fsStateWord, BitVec.toNat_ofNat] at *
  omega

theorem brStateWord_eq_append (r : BrUnit) : brStateWord r = 0#31 ++ BitVec.ofBool r.cur.bound := by
  unfold brStateWord
  cases r.cur.bound <;> rfl

/-- `BW_STATE`: bit 1 is set while a bit is pending (R41, R82). -/
theorem bwStateWord_eq_append (w : BwUnit) :
    bwStateWord w = 0#30 ++ BitVec.ofBool (decide (w.pending ≠ [])) ++ BitVec.ofBool w.cur.bound := by
  unfold bwStateWord
  cases w.pending <;> cases w.cur.bound <;> simp [bitNat]

/-- Every register reads 0 after reset (R44). -/
theorem regValue_reset (r : Reg) : regValue State.reset r = 0 := by
  cases r <;> rfl

/-- No register holds what stands on the bus or what the last host read returned. -/
theorem regValue_host (s : State) (rest : List HostAction) (v : Word) (r : Reg) :
    regValue { s with bus := rest, hostData := v } r = regValue s r := by
  cases r <;> rfl

/-- A host read of any offset after reset returns 0 (R44, R83). -/
theorem readReg_reset (rest : List HostAction) (v off : Word) :
    readReg { State.reset with bus := rest, hostData := v } off = 0 := by
  unfold readReg
  split
  · rw [regValue_host, regValue_reset]
  · rfl

end Sys2Proof.Machine

section
open Sys2Proof Sys2Proof.Machine

/-- Settles O16: each register's value at reset, and a read that answers it. -/
theorem registersReadZeroAfterReset : Obligations.RegistersReadZeroAfterReset := by
  refine ⟨regValue_reset, fun off v rest h => ?_, rfl, rfl⟩
  rw [step_of_bus rfl, hostAct_regRead_aligned h, takenFromBus, readReg_reset]
  rfl

/-- Settles O17: a host write by its offset, alignment and width. -/
theorem hostWritesReachFiveRegisters : Obligations.HostWritesReachFiveRegisters := by
  refine ⟨fun s off v rest hbus h hcmd => ?_, fun s off v rest hbus h => ?_, fun s off width v rest hbus => ?_,
    fun s hbus => step_idle hbus⟩
  · rw [step_of_bus hbus, hostAct_regWrite_aligned h hcmd, writeReg_eq]
    rfl
  · rw [step_of_bus hbus, hostAct_regWrite_unaligned h]
    rfl
  · rw [step_of_bus hbus]
    rfl

/-- Settles O18: the register listed at the offset decides what the read returns. -/
theorem hostReadsTheListedRegister : Obligations.HostReadsTheListedRegister := by
  refine ⟨?_, fun s off width rest h => ?_⟩
  · intro s off rest
    dsimp only
    intro hbus h
    rw [step_of_bus hbus, hostAct_regRead_aligned h]
    refine congrArg (fun v => Host.Outcome.next { s with bus := rest, hostData := v }) ?_
    unfold readReg
    cases hreg : regAt off with
    | none =>
      have hne := ne_of_regAt_eq_none hreg
      simp only [regMap, List.forall_mem_cons] at hne
      simp [hne]
    | some r =>
      obtain rfl := offset_of_regAt hreg
      cases r with
      | status => exact statusWord_eq s.status
      | fsState => exact fsStateWord_eq_append s.fs
      | fsResult => exact resultCode_eq s.fs.result
      | brState => exact brStateWord_eq_append s.br
      | bwState => exact bwStateWord_eq_append s.bw
      | _ => rfl
  · have hstep : step s = .next (drewFree (answered (nextFreeWord (takenFromBus rest s)) (takenFromBus rest s))) := by
      obtain ⟨hbus, hodd⟩ | hbus := h
      · rw [step_of_bus hbus, hostAct_regRead_unaligned hodd]
      · rw [step_of_bus hbus]
        rfl
    exact ⟨_, hstep, rfl⟩
end

/-!
PROOFS. The host at MEM and at the arena, and the pending bits through a commit (spec/20_memory.md R62, R67, spec/10_state.md
R41, spec/41_bit_cursors.md R143, spec/70_reset_and_hazards.md R271).
-/
namespace Sys2Proof.Machine

/-! ### The commit, stream bit by stream bit -/

/-- One pending bit committed sets its own stream bit and keeps every other, those of its byte included (R143). -/
theorem streamBit_commitBit (m : Memory) (buf k : Nat) (v : Bool) (x : Nat) :
    streamBit (commitBit buf m (k, v)) buf x = if k = x then v else streamBit m buf x := by
  unfold streamBit commitBit streamByte streamShift
  by_cases hbyte : buf + k / 8 = buf + x / 8
  · rw [hbyte, memByte_memSet_same, getLsbD_setBit _ _ (by omega) (by omega)]
    exact if_congr (by omega) rfl rfl
  · rw [memByte_memSet_ne _ _ hbyte, if_neg fun hk => hbyte (by rw [hk])]

/-- A commit leaves the pending bit at every pending position and the old bit at every other (R143). -/
theorem streamBit_commitMem {p : List (Nat × Bool)} (hp : rising p = true) (m : Memory) (buf x : Nat) :
    streamBit (commitMem m buf p) buf x = (mapGet p x).getD (streamBit m buf x) := by
  induction p generalizing m with
  | nil => rfl
  | cons kv p ih =>
    obtain ⟨k, v⟩ := kv
    simp only [rising, Bool.and_eq_true] at hp
    obtain ⟨habove, hrest⟩ := hp
    rw [commitMem_cons, ih hrest, streamBit_commitBit, mapGet]
    by_cases hk : k = x
    · rw [← hk, mapGet_none_of_keysAbove habove, if_pos rfl, if_pos rfl]
      rfl
    · rw [if_neg hk, if_neg hk]

/-- A good writer has every pending byte inside MEM (R66, R121, R144). -/
theorem BwUnit.Good.outside_eq_none {w : BwUnit} (h : w.Good) : w.outside = none := by
  refine Machine.outside_eq_none.2 fun kb hkb => ?_
  obtain ⟨hstart, hpos⟩ := h.pending_inside kb hkb
  obtain ⟨_, hhi⟩ := streamByte_mem_region (buf := w.cur.buf.toNat) hstart (Nat.lt_of_lt_of_le hpos h.cur.pos_le_stop)
  exact Nat.lt_of_lt_of_le hhi h.cur.inside

/-- A good writer with a pending byte is bound (R41, R148). -/
theorem BwUnit.Good.bound_of_isPending {w : BwUnit} (h : w.Good) {a : Nat} (ha : w.isPending a = true) :
    w.cur.bound = true := by
  refine Bool.eq_true_of_not_eq_false fun hfree => ?_
  obtain ⟨kb, hkb, _⟩ := isPending_iff.1 ha
  rw [h.pending_eq_nil hfree] at hkb
  cases hkb

/-- BW_FLUSH of a good, bound writer commits and ends with `OK` (R147). -/
theorem execBwFlush_of_good {s : State} (h : s.bw.Good) (hbound : s.bw.cur.bound = true) :
    execBwFlush s = .next { commit s with status := .ok } := by
  have hcond : ¬s.bw.cur.bound = false := by simp [hbound]
  rw [execBwFlush, if_neg hcond, commitThen_of_inside h.outside_eq_none]
  rfl

/-! ### The host at the arena -/

section Arena
variable {s : State} {i : Word}

theorem readArena_buffered {b : Byte} (h : s.fs.arena[i.toNat]? = some b) :
    readArena i s = answered (b.setWidth 32) s := by
  have hlt : i.toNat < s.fs.fill := (List.getElem?_eq_some_iff.1 h).1
  rw [readArena, if_pos hlt, List.getD_eq_getElem?_getD, h]
  rfl

theorem readArena_unfilled (hfill : s.fs.fill ≤ i.toNat) (hcap : i.toNat < s.fs.cap.toNat) :
    readArena i s = drewFree (answered ((nextFreeByte s).setWidth 32) s) := by
  rw [readArena, if_neg (Nat.not_lt.2 hfill), if_pos hcap]

theorem readArena_above (hfill : s.fs.fill ≤ i.toNat) (hcap : s.fs.cap.toNat ≤ i.toNat) :
    readArena i s = answered 0 s := by
  rw [readArena, if_neg (Nat.not_lt.2 hfill), if_neg (Nat.not_lt.2 hcap)]

end Arena

/-! ### The host at MEM -/

/-- A byte reads as a word below 256. -/
theorem toNat_setWidth_byte_lt (b : Byte) : (b.setWidth 32).toNat < 256 := by
  rw [BitVec.toNat_setWidth_of_le (by decide)]
  exact b.isLt

section HostMem
variable {s : State} {a : Word}

theorem hostMemRead_plain (ha : s.bw.isPending a.toNat = false) :
    hostMemRead a s = answered ((memByte s.mem a.toNat).setWidth 32) s := by
  simp [hostMemRead, ha]

theorem hostMemRead_pending (ha : s.bw.isPending a.toNat = true) :
    hostMemRead a s = drewFree (answered ((nextFreeByte s).setWidth 32) s) := by
  simp [hostMemRead, ha]

theorem hostMemWrite_plain (b : Byte) (ha : s.bw.isPending a.toNat = false) :
    hostMemWrite a b s = { s with mem := memSet s.mem a.toNat b } := by
  simp [hostMemWrite, ha]

theorem hostMemWrite_pending (b : Byte) (ha : s.bw.isPending a.toNat = true) :
    hostMemWrite a b s = drewFree { s with mem := memSet s.mem a.toNat (nextFreeByte s) } := by
  simp [hostMemWrite, ha]

/-- A flush after a host write to a pending byte leaves the put bits in MEM and every byte that was not pending as it was
(R143, R271, I4). -/
theorem execBwFlush_after_hostMemWrite (b : Byte) (hs : s.bw.Good) (ha : s.bw.isPending a.toNat = true) :
    ∃ u, execBwFlush (hostMemWrite a b s) = .next u ∧ u.status = .ok ∧
      (∀ k v, (k, v) ∈ s.bw.pending → streamBit u.mem s.bw.cur.buf.toNat k = v) ∧
        ∀ x, s.bw.isPending x = false → memByte u.mem x = memByte s.mem x := by
  rw [hostMemWrite_pending b ha]
  refine ⟨_, execBwFlush_of_good hs (hs.bound_of_isPending ha), rfl, fun k v hkv => ?_, fun x hx => ?_⟩
  · simp [streamBit_commitMem hs.pending_rising, mapGet_of_mem hs.pending_rising hkv]
  · have hne : a.toNat ≠ x := by
      rintro rfl
      simp [ha] at hx
    rw [← memByte_memSet_ne s.mem (nextFreeByte s) hne]
    exact memByte_commit_of_not_pending (s := drewFree { s with mem := memSet s.mem a.toNat (nextFreeByte s) }) hx

end HostMem

end Sys2Proof.Machine

section
open Sys2Proof Sys2Proof.Machine

/-- Settles O20: a plain and a pending byte, each read and written; the flush then overwrites what the write left. -/
theorem putBitsSurviveAHostWrite : Obligations.PutBitsSurviveAHostWrite := by
  refine fun s a b rest => ⟨fun hbus ha => ?_, fun hbus ha => ?_, fun hbus ha => ?_, fun hinv hbus ha => ?_⟩
  · rw [step_of_bus hbus, hostAct, hostMemRead_plain (s := takenFromBus rest s) ha]
    rfl
  · rw [step_of_bus hbus, hostAct, hostMemRead_pending (s := takenFromBus rest s) ha]
    exact ⟨_, rfl, rfl, toNat_setWidth_byte_lt _⟩
  · rw [step_of_bus hbus, hostAct, hostMemWrite_plain (s := takenFromBus rest s) b ha]
    exact ⟨_, rfl, rfl, memByte_memSet_same .., fun x hx => memByte_memSet_ne _ _ hx.symm⟩
  · obtain ⟨u, hflush⟩ := execBwFlush_after_hostMemWrite (s := takenFromBus rest s) b hinv.bw ha
    refine ⟨_, u, step_of_bus hbus, ?_, hflush⟩
    rw [hostMemWrite_pending (s := takenFromBus rest s) b ha]
    rfl

/-- Settles O19: an arena offset below the fill level, from the capacity up, and between. -/
theorem arenaWindowShowsTheBufferedBytes : Obligations.ArenaWindowShowsTheBufferedBytes := by
  refine ⟨fun s i rest hbus => ?_, fun s i b rest hbus => ?_⟩
  · rw [step_of_bus hbus, hostAct]
    refine ⟨fun b hb => ?_, fun hfill hcap => ?_, fun hfill hcap => ?_⟩
    · rw [readArena_buffered (s := takenFromBus rest s) hb]
      rfl
    · rw [readArena_above (s := takenFromBus rest s) hfill hcap]
      rfl
    · rw [readArena_unfilled (s := takenFromBus rest s) hfill hcap]
      exact ⟨_, rfl, rfl⟩
  · rw [step_of_bus hbus]
    rfl
end

/-!
PROOFS. The decoder against the encoder and against the match/mask rows of the opcode map, field by field
(spec/30_encoding.md R80, R81, R85, R86, R87).
-/
namespace Sys2Proof

/-! ### A word is its fields -/

/-- A command word is determined by its five fields (R80). -/
theorem eq_wordOfFields_iff {w : Word} {o n f t : Nat} (ho : o < 256) (hn : n < 256) (hf : f < 8) (ht : t < 8) :
    w = wordOfFields o n f t ↔ opcOf w = o ∧ imm8Of w = n ∧ fromOf w = f ∧ toOf w = t ∧ rsvdOf w = 0 := by
  rw [← BitVec.toNat_inj, toNat_wordOfFields ho hn hf ht, opcOf, imm8Of, fromOf, toOf, rsvdOf]
  omega

theorem opcOf_toWord {o : Nat} (ho : o < 256) : opcOf (toWord o) = o :=
  opcOf_wordOfFields (n := 0) (f := 0) (t := 0) ho (by decide) (by decide) (by decide)

theorem opcOf_lt (w : Word) : opcOf w < 256 := Nat.mod_lt _ (by decide)

theorem imm8Of_lt (w : Word) : imm8Of w < 256 := Nat.mod_lt _ (by decide)

theorem fromOf_lt (w : Word) : fromOf w < 8 := Nat.mod_lt _ (by decide)

theorem toOf_lt (w : Word) : toOf w < 8 := Nat.mod_lt _ (by decide)

theorem rsvdOf_lt (w : Word) : rsvdOf w < 1024 := by
  have hw := w.isLt
  rw [rsvdOf]
  omega

/-! ### The inverse of the decoder -/

theorem checkUnused_eq_command {u : UsedFields} {w : Word} {i j : Instr} :
    checkUnused u w i = .command j ↔ unusedFieldsZero u w = true ∧ i = j := by
  rw [checkUnused]
  split <;> simp_all

/-- The command with the opcode of `i` whose immediates are the fields of `w` (R84). -/
def Instr.readFrom (w : Word) : Instr → Instr
  | .fsBind _ => .fsBind (imm8Of w)
  | .conv _ _ => .conv (fromOf w) (toOf w)
  | .convQuery _ _ => .convQuery (fromOf w) (toOf w)
  | .brGet _ => .brGet (imm8Of w)
  | .brGets _ => .brGets (imm8Of w)
  | .bwPut _ => .bwPut (imm8Of w)
  | i => i

/-- The decoder at a known opcode: the command it stands for, if the fields the opcode does not use are zero (R81, R85). -/
theorem decode_of_opcode {w : Word} {i : Instr} (h : opcOf w = i.opcode) :
    decode w = checkUnused i.used w (i.readFrom w) := by
  cases i <;> simp only [Instr.opcode] at h <;> simp only [decode, h, Instr.used, Instr.readFrom]

/-- Where the fields a command does not use are zero, the immediates in the word's fields are the command's own. -/
theorem fields_of_readFrom_eq {w : Word} {i : Instr} (hunused : unusedFieldsZero i.used w = true) (hread : i.readFrom w = i) :
    imm8Of w = i.imm8 ∧ fromOf w = i.fromCode ∧ toOf w = i.toCode ∧ rsvdOf w = 0 := by
  cases i <;> simp_all [Instr.used, Instr.readFrom, Instr.imm8, Instr.fromCode, Instr.toCode, unusedFieldsZero]

/-- A word decodes to a command of its own opcode (R85). -/
theorem opcOf_of_decode {w : Word} {i : Instr} (h : decode w = .command i) : opcOf w = i.opcode := by
  unfold decode at h
  split at h
  on_goal 20 => cases h
  all_goals
    obtain ⟨-, rfl⟩ := checkUnused_eq_command.1 h
    assumption

/-- What the decoder's answer says: the opcode and that no other bit than the command's own is set (R81, R85). -/
theorem decode_eq_command_iff {w : Word} {i : Instr} :
    decode w = .command i ↔ opcOf w = i.opcode ∧ unusedFieldsZero i.used w = true ∧ i.readFrom w = i := by
  refine ⟨fun h => ?_, fun ⟨hopc, hchk⟩ => ?_⟩
  · have hopc := opcOf_of_decode h
    rw [decode_of_opcode hopc] at h
    exact ⟨hopc, checkUnused_eq_command.1 h⟩
  · rw [decode_of_opcode hopc]
    exact checkUnused_eq_command.2 hchk

/-- The encoder undoes the decoder: the fields of a word that decodes are those of its command (R80, R81). -/
theorem encode_of_decode {w : Word} {i : Instr} (h : decode w = .command i) : i.wf = true ∧ encode i = w := by
  obtain ⟨hopc, hunused, hread⟩ := decode_eq_command_iff.1 h
  obtain ⟨himm8, hfrom, hto, hrsvd⟩ := fields_of_readFrom_eq hunused hread
  have hn : i.imm8 < 256 := himm8 ▸ imm8Of_lt w
  have hf : i.fromCode < 8 := hfrom ▸ fromOf_lt w
  have ht : i.toCode < 8 := hto ▸ toOf_lt w
  refine ⟨i.wf_iff.2 ⟨hn, hf, ht⟩, Eq.symm ?_⟩
  rw [encode_eq_wordOfFields, eq_wordOfFields_iff i.opcode_lt hn hf ht]
  exact ⟨hopc, himm8, hfrom, hto, hrsvd⟩

/-! ### The fields of a masked word -/

section Masked
variable (v w : Word)

theorem opcOf_and : opcOf (v &&& w) = opcOf v &&& opcOf w := by
  rw [opcOf, BitVec.toNat_and]
  exact Nat.and_mod_two_pow (n := 8)

theorem imm8Of_and : imm8Of (v &&& w) = imm8Of v &&& imm8Of w := by
  rw [imm8Of, BitVec.toNat_and, Nat.and_div_two_pow (n := 8)]
  exact Nat.and_mod_two_pow (n := 8)

theorem fromOf_and : fromOf (v &&& w) = fromOf v &&& fromOf w := by
  rw [fromOf, BitVec.toNat_and, Nat.and_div_two_pow (n := 16)]
  exact Nat.and_mod_two_pow (n := 3)

theorem toOf_and : toOf (v &&& w) = toOf v &&& toOf w := by
  rw [toOf, BitVec.toNat_and, Nat.and_div_two_pow (n := 19)]
  exact Nat.and_mod_two_pow (n := 3)

theorem rsvdOf_and : rsvdOf (v &&& w) = rsvdOf v &&& rsvdOf w := by
  rw [rsvdOf, BitVec.toNat_and]
  exact Nat.and_div_two_pow (n := 22)

/-- Every row fixes all of `OPC` (R87). -/
theorem opcOf_and_maskOf (u : UsedFields) : opcOf (w &&& maskOf u) = opcOf w := by
  rw [opcOf_and]
  cases u <;> exact Nat.and_two_pow_sub_one_of_lt_two_pow (n := 8) (opcOf_lt w)

theorem imm8Of_and_maskOf (u : UsedFields) : imm8Of (w &&& maskOf u) = if u = .imm8 then 0 else imm8Of w := by
  rw [imm8Of_and]
  cases u with
  | imm8 => exact Nat.and_zero _
  | neither | fromTo => exact Nat.and_two_pow_sub_one_of_lt_two_pow (n := 8) (imm8Of_lt w)

theorem fromOf_and_maskOf (u : UsedFields) : fromOf (w &&& maskOf u) = if u = .fromTo then 0 else fromOf w := by
  rw [fromOf_and]
  cases u with
  | fromTo => exact Nat.and_zero _
  | neither | imm8 => exact Nat.and_two_pow_sub_one_of_lt_two_pow (n := 3) (fromOf_lt w)

theorem toOf_and_maskOf (u : UsedFields) : toOf (w &&& maskOf u) = if u = .fromTo then 0 else toOf w := by
  rw [toOf_and]
  cases u with
  | fromTo => exact Nat.and_zero _
  | neither | imm8 => exact Nat.and_two_pow_sub_one_of_lt_two_pow (n := 3) (toOf_lt w)

/-- Every row fixes all of `RSVD` (R87). -/
theorem rsvdOf_and_maskOf (u : UsedFields) : rsvdOf (w &&& maskOf u) = rsvdOf w := by
  rw [rsvdOf_and]
  cases u <;> exact Nat.and_two_pow_sub_one_of_lt_two_pow (n := 10) (rsvdOf_lt w)

/-- What the decoder checks of the unused fields, read off the masked word (R81, R87). -/
theorem unusedFieldsZero_iff (u : UsedFields) :
    unusedFieldsZero u w = true ↔
      imm8Of (w &&& maskOf u) = 0 ∧ fromOf (w &&& maskOf u) = 0 ∧ toOf (w &&& maskOf u) = 0 ∧ rsvdOf (w &&& maskOf u) = 0 := by
  rw [imm8Of_and_maskOf, fromOf_and_maskOf, toOf_and_maskOf, rsvdOf_and_maskOf]
  cases u <;> grind [unusedFieldsZero]

end Masked

/-- A masked word is an opcode exactly where `OPC` is that opcode and the fields the mask covers are zero (R81, R87). -/
theorem and_maskOf_eq_iff {u : UsedFields} {w : Word} {o : Nat} (ho : o < 256) :
    w &&& maskOf u = toWord o ↔ opcOf w = o ∧ unusedFieldsZero u w = true := by
  have hword : toWord o = wordOfFields o 0 0 0 := rfl
  rw [hword, eq_wordOfFields_iff ho (by decide) (by decide) (by decide), opcOf_and_maskOf, unusedFieldsZero_iff]

/-! ### The rows of the opcode map -/

/-- `r.IsRowOf i`: the row fixes the opcode of `i` and every bit outside the fields `i` uses (R87). -/
def OpcodeRow.IsRowOf (r : OpcodeRow) (i : Instr) : Prop := r.matchWord = toWord i.opcode ∧ r.mask = maskOf i.used

theorem fits_iff_of_isRowOf {r : OpcodeRow} {i : Instr} (h : r.IsRowOf i) {w : Word} :
    r.fits w = true ↔ opcOf w = i.opcode ∧ unusedFieldsZero i.used w = true := by
  obtain ⟨hmatch, hmask⟩ := h
  rw [OpcodeRow.fits, beq_iff_eq, hmatch, hmask, and_maskOf_eq_iff i.opcode_lt]

/-- Every command has its row in the map (R85). -/
theorem exists_row (i : Instr) : ∃ r ∈ opcodeRows, r.IsRowOf i := by
  cases i <;> simp [opcodeRows, OpcodeRow.IsRowOf, Instr.opcode, Instr.used, maskOf]

/-- Every row of the map is that of a command (R85). -/
theorem exists_instr_of_row : ∀ r ∈ opcodeRows, ∃ i : Instr, r.IsRowOf i := by
  simp only [opcodeRows, List.forall_mem_cons]
  exact ⟨⟨.fsBind 0, rfl, rfl⟩, ⟨.fsUnbind, rfl, rfl⟩, ⟨.fsReset, rfl, rfl⟩, ⟨.fsLoad, rfl, rfl⟩, ⟨.fsFlush, rfl, rfl⟩,
    ⟨.conv 0 0, rfl, rfl⟩, ⟨.convQuery 0 0, rfl, rfl⟩, ⟨.brBind, rfl, rfl⟩, ⟨.brGet 0, rfl, rfl⟩, ⟨.brGets 0, rfl, rfl⟩,
    ⟨.brGetb, rfl, rfl⟩, ⟨.brSeek, rfl, rfl⟩, ⟨.brUnbind, rfl, rfl⟩, ⟨.bwBind, rfl, rfl⟩, ⟨.bwPut 0, rfl, rfl⟩,
    ⟨.bwPutb, rfl, rfl⟩, ⟨.bwSeek, rfl, rfl⟩, ⟨.bwFlush, rfl, rfl⟩, ⟨.bwClose, rfl, rfl⟩, by simp⟩

/-- The decoder takes a word exactly where it fits a row (R87). -/
theorem decodes_iff_fits_row {w : Word} : (∃ i, decode w = .command i) ↔ ∃ r ∈ opcodeRows, r.fits w = true := by
  constructor
  · rintro ⟨i, hdec⟩
    obtain ⟨hopc, hunused, -⟩ := decode_eq_command_iff.1 hdec
    obtain ⟨r, hr, hrow⟩ := exists_row i
    exact ⟨r, hr, (fits_iff_of_isRowOf hrow).2 ⟨hopc, hunused⟩⟩
  · rintro ⟨r, hr, hfits⟩
    obtain ⟨i, hrow⟩ := exists_instr_of_row r hr
    obtain ⟨hopc, hunused⟩ := (fits_iff_of_isRowOf hrow).1 hfits
    exact ⟨i.readFrom w, (decode_of_opcode hopc).trans (checkUnused_eq_command.2 ⟨hunused, rfl⟩)⟩

/-- A word that fits a row of the map has the row's opcode. -/
theorem opcOf_of_fits {r : OpcodeRow} (hr : r ∈ opcodeRows) {w : Word} (h : r.fits w = true) :
    opcOf w = opcOf r.matchWord := by
  obtain ⟨i, hrow⟩ := exists_instr_of_row r hr
  obtain ⟨hopc, -⟩ := (fits_iff_of_isRowOf hrow).1 h
  obtain ⟨hmatch, -⟩ := hrow
  rw [hopc, hmatch, opcOf_toWord i.opcode_lt]

/-- No opcode stands in two rows (R85). -/
theorem row_eq_of_opcode_eq : ∀ r ∈ opcodeRows, ∀ r' ∈ opcodeRows, opcOf r.matchWord = opcOf r'.matchWord → r = r' := by
  decide

/-- A word that fits no row is rejected (R86, R87). -/
theorem rejected_of_fits_no_row {w : Word} (h : ∀ r ∈ opcodeRows, r.fits w = false) : ∃ x, decode w = .rejected x := by
  cases hdec : decode w with
  | rejected x => exact ⟨x, rfl⟩
  | command i =>
    obtain ⟨r, hr, hfits⟩ := decodes_iff_fits_row.1 ⟨i, hdec⟩
    simp [h r hr] at hfits

namespace Machine

/-- A rejected word next on the bus for `CMD`: the step takes the write off the bus and writes `STATUS` (R86). -/
theorem step_of_rejected {s : State} {w : Word} {x : Reject} {rest : List HostAction} (hbus : s.bus = .regWrite 0 w :: rest)
    (hdec : decode w = .rejected x) : step s = raise .illegalCommand (takenFromBus rest s) := by
  rw [step_of_bus hbus, hostAct_regWrite_cmd, runCommand, hdec]

end Machine
end Sys2Proof

section
open Sys2Proof Sys2Proof.Machine

/-- Settles O1: the fields of the command's word are its opcode and its immediates, and the decoder reads them back. -/
theorem encodedCommandDecodes : Obligations.EncodedCommandDecodes :=
  fun _ hwf => decode_encode hwf

/-- Settles O2: the five fields of the word are those of the command it decodes to. -/
theorem decodedWordIsTheEncoding : Obligations.DecodedWordIsTheEncoding :=
  fun _ _ hdec => encode_of_decode hdec

/-- Settles O3: a row says what the decoder checks, and a word's `OPC` leaves one row to it. -/
theorem wordIsValidIffOneRowFits : Obligations.WordIsValidIffOneRowFits := by
  refine fun w => ⟨decodes_iff_fits_row, fun r hr r' hr' hfits hfits' => row_eq_of_opcode_eq r hr r' hr' ?_⟩
  rw [← opcOf_of_fits hr hfits, ← opcOf_of_fits hr' hfits']

/-- Settles O7: a word that fits no row is rejected. -/
theorem unfittingWordIsIllegal : Obligations.UnfittingWordIsIllegal := by
  intro s w rest hbus hrows
  obtain ⟨x, hdec⟩ := rejected_of_fits_no_row hrows
  rw [step_of_rejected hbus hdec]
  rfl

/-- Settles O4: six of the words are encodings of commands; in the others `IMM8` is not zero or the opcode is in no row. -/
theorem writtenOutWordsDecode : Obligations.WrittenOutWordsDecode := by
  refine ⟨decode_encode (i := .fsBind 5) ?_, decode_encode (i := .fsLoad) ?_, decode_encode (i := .conv 0 3) ?_,
    decode_encode (i := .conv 3 0) ?_, decode_encode (i := .brGet 16) ?_, decode_encode (i := .bwPut 3) ?_, ?_, ?_⟩ <;>
    decide

end

/-!
PROOFS. The HeaderParser port: the sizes, the parse and the compare of a composite descriptor, and the bind of a descriptor
(spec/40_parser_port.md R104, R107; spec/43_frame_sync.md R190).
-/
namespace Sys2Proof.Machine

/-! ### The composite descriptor -/

/-- The fold that takes the larger size at each member gives the largest size of all the members: it is some member's, and
no member's is larger. -/
theorem foldl_max_size {α : Type} [LinearOrder α] (size : ParserDescriptor → α) (M : ParserDescriptor)
    (Ms : List ParserDescriptor) :
    (∃ D ∈ M :: Ms, size D = Ms.foldl (fun x D => max x (size D)) (size M)) ∧
      ∀ D ∈ M :: Ms, size D ≤ Ms.foldl (fun x D => max x (size D)) (size M) := by
  have hmax : ((M :: Ms).map size).max? = some (Ms.foldl (fun x D => max x (size D)) (size M)) := by
    rw [List.map_cons, List.max?_cons', List.foldl_map]
  obtain ⟨hmem, hle⟩ := List.max?_eq_some_iff.1 hmax
  exact ⟨List.mem_map.1 hmem, fun D hD => hle _ (List.mem_map_of_mem hD)⟩

/-- The fold that takes the smaller size at each member gives the smallest size of all the members: the largest in the
reversed order. -/
theorem foldl_min_size (size : ParserDescriptor → Nat) (M : ParserDescriptor) (Ms : List ParserDescriptor) :
    (∃ D ∈ M :: Ms, size D = Ms.foldl (fun x D => min x (size D)) (size M)) ∧
      ∀ D ∈ M :: Ms, Ms.foldl (fun x D => min x (size D)) (size M) ≤ size D :=
  foldl_max_size (α := ℕᵒᵈ) size M Ms

/-- The first member that handles a format, by its place in the member list. -/
theorem find?_canParse_eq_some_iff {Ds : List ParserDescriptor} {x : Word} {D : ParserDescriptor} :
    Ds.find? (fun D => D.canParse x) = some D ↔
      ∃ pre post, Ds = pre ++ D :: post ∧ D.canParse x = true ∧ ∀ E ∈ pre, E.canParse x = false := by
  simp only [List.find?_eq_some_iff_append, Bool.not_eq_true']
  exact ⟨fun ⟨hD, pre, post, hDs, hpre⟩ => ⟨pre, post, hDs, hD, hpre⟩,
    fun ⟨pre, post, hDs, hD, hpre⟩ => ⟨hD, pre, post, hDs, hpre⟩⟩

section Composite
variable {M : ParserDescriptor} {Ms : List ParserDescriptor}

/-- The composite parses as the first member that parses its own share of the bytes (R107). -/
theorem compositeDescriptor_parse_eq_some_iff {bs : List Byte} {h : HeaderInfo} :
    (compositeDescriptor M Ms).parse bs = some h ↔
      ∃ pre D post, M :: Ms = pre ++ D :: post ∧ D.parse (bs.take D.headerSize) = some h ∧
        ∀ E ∈ pre, E.parse (bs.take E.headerSize) = none :=
  List.findSome?_eq_some_iff

/-- The composite's compare needs one format, and a first member that handles it; that member decides (R107). -/
theorem compositeDescriptor_compare_iff_find {a b : HeaderInfo} :
    (compositeDescriptor M Ms).compare a b = true ↔
      a.format = b.format ∧
        ∃ D, (M :: Ms).find? (fun D => D.canParse a.format) = some D ∧ D.compare a b = true := by
  simp only [compositeDescriptor, Bool.and_eq_true, beq_iff_eq]
  cases (M :: Ms).find? (fun D => D.canParse a.format) <;> simp

/-- The composite's compare, by the place of the member that decides (R107). -/
theorem compositeDescriptor_compare_iff {a b : HeaderInfo} :
    (compositeDescriptor M Ms).compare a b = true ↔
      a.format = b.format ∧ ∃ pre D post, M :: Ms = pre ++ D :: post ∧ D.canParse a.format = true ∧
        D.compare a b = true ∧ ∀ E ∈ pre, E.canParse a.format = false := by
  simp only [compositeDescriptor_compare_iff_find, find?_canParse_eq_some_iff]
  constructor
  · rintro ⟨hformat, D, ⟨pre, post, hMs, hD, hpre⟩, hcompare⟩
    exact ⟨hformat, pre, D, post, hMs, hD, hcompare, hpre⟩
  · rintro ⟨hformat, pre, D, post, hMs, hD, hcompare, hpre⟩
    exact ⟨hformat, D, ⟨pre, post, hMs, hD, hpre⟩, hcompare⟩

/-- The composite handles the formats its members handle (R107). -/
theorem compositeDescriptor_canParse_iff {x : Word} :
    (compositeDescriptor M Ms).canParse x = true ↔ ∃ D ∈ M :: Ms, D.canParse x = true :=
  List.any_eq_true

end Composite

/-! ### The bind of a descriptor -/

/-- FS_BIND as one equation: it binds where the index and the sizes are in range and is turned away elsewhere (R190). -/
theorem fsBindOn_eq (P : Platform) (pidx : Nat) (s : State) :
    fsBindOn P pidx s =
      .next
        (if pidx < P.np ∧ bindable P (P.parsers pidx) = true then
          { s with status := .ok, fs := bumpGen (boundUnit pidx (P.parsers pidx) s.fs) }
        else { s with status := .badParserParams }) := by
  unfold fsBindOn
  split
  case isTrue hidx => rw [if_neg fun h => absurd h.1 (by omega), raise]
  case isFalse hidx =>
    split
    case isTrue hsizes => rw [if_neg (by simp [hsizes]), raise]
    case isFalse hsizes => rw [if_pos ⟨by omega, by simpa using hsizes⟩, finish]

/-- What a bind leaves of the FS: the reset state with the descriptor latched, one generation on, with the input cursor as it
was (R190, R195). -/
theorem bumpGen_boundUnit (pidx : Nat) (D : ParserDescriptor) (f : FsUnit) :
    bumpGen (boundUnit pidx D f) =
      { FsUnit.reset with
        bound := true, parser := BitVec.ofNat 8 pidx, h := toWord D.headerSize, fmin := toWord D.minFrameSize
        fmax := toWord D.maxFrameSize, cap := toWord (capacityOf D), gen := f.gen + 1
        inPtr := f.inPtr, inEnd := f.inEnd } := rfl

end Sys2Proof.Machine

section
open Sys2Proof Sys2Proof.Machine

/-- Settles O39: the sizes are folds over the members, and `parse` and `compare` look for the first member. -/
theorem compositeTakesTheFirstMatch : Obligations.CompositeTakesTheFirstMatch := by
  intro M Ms
  obtain ⟨hheader, headerLe⟩ := foldl_max_size (·.headerSize) M Ms
  obtain ⟨hmin, minLe⟩ := foldl_min_size (·.minFrameSize) M Ms
  obtain ⟨hmax, maxLe⟩ := foldl_max_size (·.maxFrameSize) M Ms
  exact ⟨⟨fun D hD => ⟨headerLe D hD, minLe D hD, maxLe D hD⟩, hheader, hmin, hmax⟩,
    fun _ _ => compositeDescriptor_parse_eq_some_iff, fun _ _ => compositeDescriptor_compare_iff,
    fun _ => compositeDescriptor_canParse_iff⟩

/-- Settles O21: the index is below `NP` and the descriptor is bindable, or the bind is turned away. -/
theorem fsBindBindsOrRefuses : Obligations.FsBindBindsOrRefuses := by
  intro pidx s D
  have hbind : exec (.fsBind pidx) s = fsBindOn Config.platform pidx s := rfl
  rw [hbind, fsBindOn_eq, bumpGen_boundUnit]
  simp only [bindable_iff, capacityOf, D]

end

/-!
PROOFS. The BitReader: a field of bits, the words a get meets it in, and what the reader's commands answer
(spec/41_bit_cursors.md R120 to R130, spec/00_scope.md R12, spec/70_reset_and_hazards.md R272).
-/
namespace Sys2Proof.Machine

/-! ### A field of bits -/

/-- The `n` bits from place `k`, the first most significant: what `streamField` and `State.readerField` share (R12). -/
def bitField (bit : Nat → Bool) (k : Nat) : Nat → Nat
  | 0 => 0
  | n + 1 => 2 * bitField bit k n + (bit (k + n)).toNat

theorem streamField_eq_bitField (m : Memory) (buf k n : Nat) :
    streamField m buf k n = bitField (streamBit m buf) k n := by
  induction n with
  | zero => rfl
  | succ n ih => rw [streamField, bitField, ih]

theorem readerField_eq_bitField (s : State) (n : Nat) :
    s.readerField n = bitField s.readerBit s.br.cur.pos.toNat n := by
  induction n with
  | zero => rfl
  | succ n ih => rw [State.readerField, bitField, ih]

section Field
variable {bit bit' : Nat → Bool} {k n : Nat}

theorem bitField_congr (h : ∀ x, k ≤ x → x < k + n → bit x = bit' x) : bitField bit k n = bitField bit' k n := by
  induction n with
  | zero => rfl
  | succ n ih => rw [bitField, bitField, ih fun x hlo hhi => h x hlo (by omega), h (k + n) (by omega) (by omega)]

theorem bitField_lt : bitField bit k n < 2 ^ n := by
  induction n with
  | zero => exact Nat.one_pos
  | succ n ih =>
    have hbit := Bool.toNat_le (bit (k + n))
    rw [bitField, Nat.pow_succ]
    omega

/-- The first bit of a field is its most significant one. -/
theorem bitField_succ_eq_first_add : bitField bit k (n + 1) = 2 ^ n * (bit k).toNat + bitField bit (k + 1) n := by
  induction n with
  | zero => simp [bitField]
  | succ n ih =>
    rw [bitField, ih, bitField, Nat.pow_succ, show k + 1 + n = k + (n + 1) by omega]
    ring

/-- A field that holds the bits of `v`, most significant first, is `v`. -/
theorem bitField_eq_of_testBit {v : Nat} (hv : v < 2 ^ n) (h : ∀ i, i < n → bit (k + i) = v.testBit (n - 1 - i)) :
    bitField bit k n = v := by
  induction n generalizing v with
  | zero => exact (Nat.lt_one_iff.1 hv).symm
  | succ n ih =>
    have hhigh : bitField bit k n = v / 2 := by
      refine ih (by rw [Nat.pow_succ] at hv; omega) fun i hi => ?_
      rw [h i (by omega), ← Nat.testBit_succ, show n + 1 - 1 - i = n - 1 - i + 1 by omega]
    have hlow : (bit (k + n)).toNat = v % 2 := by
      rw [h n (by omega), show n + 1 - 1 - n = 0 by omega, Nat.testBit_zero]
      rcases Nat.mod_two_eq_zero_or_one v with hv2 | hv2 <;> simp [hv2]
    rw [bitField, hhigh, hlow, Nat.div_add_mod]

end Field

/-! ### The words of a cursor -/

theorem Cursor.widxOf_mono (c : Cursor) {j k : Nat} (h : j ≤ k) : c.widxOf j ≤ c.widxOf k :=
  Nat.div_le_div_right (by omega)

/-- The word of a stream bit below `2^32` has an index that a register holds (R39, R122). -/
theorem Cursor.toNat_toWord_widxOf (c : Cursor) {k : Nat} (hk : k < 2 ^ 32) : (toWord (c.widxOf k)).toNat = c.widxOf k := by
  obtain ⟨-, hwidx, -⟩ := cursor_geometry c k
  exact Nat.mod_eq_of_lt (by omega)

/-- Bit `i` of byte `j` of a word, both counted from the most significant end (R12, R122). -/
theorem getLsbD_fourBytes (byte : Nat → Byte) {j i : Nat} (hj : j < 4) (hi : i < 8) :
    (byte 0 ++ byte 1 ++ byte 2 ++ byte 3).getLsbD (31 - (8 * j + i)) = (byte j).getLsbD (7 - i) := by
  simp only [BitVec.getLsbD_append]
  obtain rfl | rfl | rfl | rfl : j = 0 ∨ j = 1 ∨ j = 2 ∨ j = 3 := by omega
  · rw [if_neg (by omega), if_neg (by omega), if_neg (by omega), show 31 - (8 * 0 + i) - 8 - 8 - 8 = 7 - i by omega]
  · rw [if_neg (by omega), if_neg (by omega), if_pos (by omega), show 31 - (8 * 1 + i) - 8 - 8 = 7 - i by omega]
  · rw [if_neg (by omega), if_pos (by omega), show 31 - (8 * 2 + i) - 8 = 7 - i by omega]
  · rw [if_pos (by omega), show 31 - (8 * 3 + i) = 7 - i by omega]

/-- The cursor word of a stream bit of the region holds that bit at its place (R64, R122). -/
theorem getLsbD_wordAt (m : Memory) {c : Cursor} {k : Nat} (hlo : c.start.toNat ≤ k) (hhi : k < c.stop.toNat) :
    (wordAt m c (c.widxOf k)).getLsbD (c.wbitOf k) = streamBit m c.buf.toNat k := by
  obtain ⟨hbase, hwidx, hwbit, hlow, hhigh⟩ := cursor_geometry c k
  obtain ⟨q, hq⟩ : ∃ q, q = k + 8 * (c.buf.toNat % 4) := ⟨_, rfl⟩
  have hbit : c.wbitOf k = 31 - (8 * (q % 32 / 8) + k % 8) := by omega
  have haddr : c.base + 4 * c.widxOf k + q % 32 / 8 = c.buf.toNat + k / 8 := by omega
  have hword := getLsbD_fourBytes (fun j => regionByte m c (c.base + 4 * c.widxOf k + j)) (j := q % 32 / 8)
    (i := k % 8) (by omega) (by omega)
  rw [hbit]
  refine hword.trans ?_
  rw [haddr, regionByte, if_pos (by omega), streamBit]

/-! ### The loop of a get -/

section Loop
variable (m : Memory) (r : BrUnit) (k : Nat)

/-- The cursor word of index `w` as a get that begins at stream bit `k` meets it: the cached one where the get begins in it,
and a fresh one elsewhere (R123, R125). -/
def wordMet (w : Nat) : Word := if r.holds (r.cur.widxOf k) = true ∧ r.cur.widxOf k = w then r.word else wordAt m r.cur w

/-- Stream bit `x` in the word that a get from `k` meets (R122, R123). -/
def bitMet (x : Nat) : Bool := (wordMet m r k (r.cur.widxOf x)).getLsbD (r.cur.wbitOf x)

/-- The reader that a get from `k` leaves behind its last stream bit `x` (R123, R125). -/
def cachedAt (x : Nat) : BrUnit :=
  { r with wvalid := true, widx := toWord (r.cur.widxOf x), word := wordMet m r k (r.cur.widxOf x) }

variable {m r k}

theorem BrUnit.holds_iff {w : Nat} : r.holds w = true ↔ r.wvalid = true ∧ r.widx.toNat = w := by
  simp [BrUnit.holds]

theorem wordMet_of_ne {w : Nat} (h : r.cur.widxOf k ≠ w) : wordMet m r k w = wordAt m r.cur w :=
  if_neg fun hw => h hw.2

/-- Where the cache is up to date, every word is met as MEM holds it. -/
theorem wordMet_of_fresh (h : r.wvalid = true → r.word = wordAt m r.cur r.widx.toNat) (w : Nat) :
    wordMet m r k w = wordAt m r.cur w := by
  unfold wordMet
  split
  case isTrue hw =>
    obtain ⟨hholds, rfl⟩ := hw
    obtain ⟨hvalid, hidx⟩ := BrUnit.holds_iff.1 hholds
    rw [h hvalid, hidx]
  case isFalse => rfl

theorem fetchWord_eq_cachedAt : fetchWord m r k = cachedAt m r k k := by
  unfold fetchWord
  split
  case isTrue hholds =>
    obtain ⟨hvalid, hidx⟩ := BrUnit.holds_iff.1 hholds
    rw [cachedAt, wordMet, if_pos ⟨hholds, rfl⟩, ← hvalid, ← hidx, toWord, BitVec.ofNat_toNat, BitVec.setWidth_eq]
  case isFalse hmiss => rw [cachedAt, wordMet, if_neg fun hw => hmiss hw.1, loadWord]

/-- One bit read changes no word that the rest of the get meets. -/
theorem wordMet_fetchWord (hk : k < 2 ^ 32) {w : Nat} (hw : r.cur.widxOf (k + 1) ≤ w) :
    wordMet m (fetchWord m r k) (k + 1) w = wordMet m r k w := by
  have hmono : r.cur.widxOf k ≤ r.cur.widxOf (k + 1) := r.cur.widxOf_mono (Nat.le_succ k)
  have hidx := r.cur.toNat_toWord_widxOf hk
  rw [fetchWord_eq_cachedAt]
  by_cases hsame : r.cur.widxOf k = w
  · have hnext : r.cur.widxOf (k + 1) = w := by omega
    have hholds : (cachedAt m r k k).holds (r.cur.widxOf (k + 1)) = true :=
      BrUnit.holds_iff.2 ⟨rfl, hidx.trans (hsame.trans hnext.symm)⟩
    rw [wordMet, if_pos ⟨hholds, hnext⟩, ← hsame]
    rfl
  · rw [wordMet_of_ne hsame, wordMet, if_neg]
    · rfl
    · rintro ⟨hholds, hnext⟩
      exact hsame (hidx.symm.trans ((BrUnit.holds_iff.1 hholds).2.trans hnext))

/-- The loop of a get of at least one bit: the field it meets behind the value it began with, and the last word left in the
cache (R123, R126). -/
theorem readBits_succ_eq (n v : Nat) (hlast : k + n < 2 ^ 32) :
    readBits m (n + 1) r k v = (2 ^ (n + 1) * v + bitField (bitMet m r k) k (n + 1), cachedAt m r k (k + n)) := by
  induction n generalizing r k v with
  | zero => simp [readBits, readBit, fetchWord_eq_cachedAt, bitField, bitMet, cachedAt]
  | succ n ih =>
    have hk : k < 2 ^ 32 := by omega
    have hword : ∀ x, k + 1 ≤ x → wordMet m (fetchWord m r k) (k + 1) (r.cur.widxOf x) = wordMet m r k (r.cur.widxOf x) :=
      fun x hx => wordMet_fetchWord hk (r.cur.widxOf_mono hx)
    have hrest : bitField (bitMet m (fetchWord m r k) (k + 1)) (k + 1) (n + 1) = bitField (bitMet m r k) (k + 1) (n + 1) :=
      bitField_congr fun x hx _ => by rw [bitMet, fetchWord_cur, hword x hx, bitMet]
    have hleft : cachedAt m (fetchWord m r k) (k + 1) (k + 1 + n) = cachedAt m r k (k + (n + 1)) := by
      rw [show k + 1 + n = k + (n + 1) by omega, cachedAt, fetchWord_cur, hword _ (by omega)]
      rfl
    have hfirst : (fetchWord m r k).word.getLsbD (r.cur.wbitOf k) = bitMet m r k k := by
      rw [fetchWord_eq_cachedAt]
      rfl
    rw [readBits, readBit]
    dsimp only
    rw [ih _ (by omega), hrest, hleft, hfirst, bitField_succ_eq_first_add (n := n + 1)]
    refine Prod.ext ?_ rfl
    dsimp only
    ring

end Loop
/-! ### What a get answers -/

section Get
variable {s : State} {n : Nat} {put : Nat → Word}

/-- Inside the region, the bit a get meets in a cursor word is the one `State.readerBit` names (R122, R123). -/
theorem bitMet_eq_readerBit {x : Nat} (hlo : s.br.cur.start.toNat ≤ x) (hhi : x < s.br.cur.stop.toNat) :
    bitMet s.mem s.br s.br.cur.pos.toNat x = s.readerBit x := by
  unfold bitMet State.readerBit
  split
  case isTrue h =>
    obtain ⟨hvalid, hfirst, hx⟩ := h
    rw [wordMet, if_pos ⟨BrUnit.holds_iff.2 ⟨hvalid, hfirst⟩, hfirst.symm.trans hx⟩]
  case isFalse h =>
    rw [wordMet, if_neg, getLsbD_wordAt s.mem hlo hhi]
    rintro ⟨hholds, hx⟩
    obtain ⟨hvalid, hfirst⟩ := BrUnit.holds_iff.1 hholds
    exact h ⟨hvalid, hfirst, hfirst.trans hx⟩

/-- Where the cache is up to date, a get meets the bits of the stream (R272). -/
theorem readerBit_of_fresh (hfresh : s.CacheFresh) {x : Nat} (hlo : s.br.cur.start.toNat ≤ x)
    (hhi : x < s.br.cur.stop.toNat) : s.readerBit x = streamBit s.mem s.br.cur.buf.toNat x := by
  rw [← bitMet_eq_readerBit hlo hhi, bitMet, wordMet_of_fresh hfresh, getLsbD_wordAt s.mem hlo hhi]

/-- Where the cache is up to date, a get inside the region returns the stream's field (R12, R272). -/
theorem readerField_of_fresh (hgood : s.br.Good) (hfresh : s.CacheFresh)
    (hfits : s.br.cur.pos.toNat + n ≤ s.br.cur.stop.toNat) :
    s.readerField n = streamField s.mem s.br.cur.buf.toNat s.br.cur.pos.toNat n := by
  rw [readerField_eq_bitField, streamField_eq_bitField]
  exact bitField_congr fun x hlo hhi =>
    readerBit_of_fresh hfresh (Nat.le_trans hgood.cur.start_le_pos hlo) (Nat.lt_of_lt_of_le hhi hfits)

theorem readerField_lt : s.readerField n < 2 ^ n := readerField_eq_bitField s n ▸ bitField_lt

/-- The position behind a field, as a sum of words (R126, R144). -/
theorem toWord_toNat_add (p : Word) (n : Nat) : toWord (p.toNat + n) = p + toWord n := by
  rw [toWord, BitVec.ofNat_add, BitVec.ofNat_toNat, BitVec.setWidth_eq]

/-- `t` is `s` after a get of `n` bits, whatever `RES0` holds: the position is behind the field, the word of its last bit is
cached as the get met it, and nothing else has changed (R123, R126). -/
def State.MovedPast (s : State) (n : Nat) (t : State) : Prop :=
  t = { s with status := .ok, res0 := t.res0, br := t.br } ∧
    t.br.cur = { s.br.cur with pos := s.br.cur.pos + toWord n } ∧
      (n = 0 → t.br = s.br) ∧
        (1 ≤ n → t.br.wvalid = true ∧ t.br.widx.toNat = s.br.cur.widxOf (s.br.cur.pos.toNat + n - 1) ∧
          ∀ k, s.br.cur.start.toNat ≤ k → k < s.br.cur.stop.toNat →
            s.br.cur.widxOf k = s.br.cur.widxOf (s.br.cur.pos.toNat + n - 1) →
              t.br.word.getLsbD (s.br.cur.wbitOf k) = s.readerBit k) ∧
          (s.CacheFresh → t.CacheFresh)

/-- What a get of at least one bit leaves (R123, R126). -/
theorem gotField_succ_eq (hgood : s.br.Good) (hfits : s.br.cur.pos.toNat + (n + 1) ≤ s.br.cur.stop.toNat) :
    gotField (n + 1) put s =
      { s with
        res0 := put (s.readerField (n + 1))
        br :=
          { cachedAt s.mem s.br s.br.cur.pos.toNat (s.br.cur.pos.toNat + n) with
            cur := { s.br.cur with pos := s.br.cur.pos + toWord (n + 1) } } } := by
  have hlast : s.br.cur.pos.toNat + n < 2 ^ 32 := Nat.lt_of_lt_of_le hfits (Nat.le_of_lt s.br.cur.stop.isLt)
  have hfield : bitField (bitMet s.mem s.br s.br.cur.pos.toNat) s.br.cur.pos.toNat (n + 1) = s.readerField (n + 1) := by
    rw [readerField_eq_bitField]
    exact bitField_congr fun x hlo hhi =>
      bitMet_eq_readerBit (Nat.le_trans hgood.cur.start_le_pos hlo) (Nat.lt_of_lt_of_le hhi hfits)
  rw [gotField, readBits_succ_eq n 0 hlast, hfield, Nat.mul_zero, Nat.zero_add, toWord_toNat_add]
  rfl

theorem movedPast_zero (s : State) (v : Word) : s.MovedPast 0 { s with res0 := v, status := .ok } :=
  ⟨rfl, by simp, fun _ => rfl, fun h => absurd h (by decide), id⟩

theorem movedPast_gotField (hgood : s.br.Good) (hfits : s.br.cur.pos.toNat + (n + 1) ≤ s.br.cur.stop.toNat) :
    s.MovedPast (n + 1) { gotField (n + 1) put s with status := .ok } := by
  have hlast : s.br.cur.pos.toNat + n < 2 ^ 32 := Nat.lt_of_lt_of_le hfits (Nat.le_of_lt s.br.cur.stop.isLt)
  have hidx := s.br.cur.toNat_toWord_widxOf hlast
  rw [gotField_succ_eq hgood hfits]
  refine ⟨rfl, rfl, fun h => absurd h (Nat.succ_ne_zero n), fun _ => ⟨rfl, hidx, fun k hlo hhi hk => ?_⟩,
    fun hfresh _ => ?_⟩
  · rw [← bitMet_eq_readerBit hlo hhi, bitMet, hk]
    rfl
  · refine (wordMet_of_fresh hfresh _).trans ?_
    exact congrArg (wordAt s.mem s.br.cur) hidx.symm

/-- A get inside the region with no byte to load pending ends with `OK`: `RES0` is made of the field it meets, and it moves
past that field (R124, R126). -/
theorem getField_of_clear (hgood : s.br.Good) (hbound : s.br.cur.bound = true)
    (hclear : ∀ a, s.Loads n a → s.bw.isPending a = false) (hn : n ≤ 32)
    (hfits : s.br.cur.pos.toNat + n ≤ s.br.cur.stop.toNat) (hput : n = 0 → put 0 = 0) :
    ∃ t, getField n put s = .next t ∧ t.res0 = put (s.readerField n) ∧ s.MovedPast n t := by
  have hfield : s.br.cur.fieldFits n = true := fieldFits_iff.2 ⟨hn, hfits⟩
  cases n with
  | zero => exact ⟨_, by simp [getField, hbound, hfield, finish], (hput rfl).symm, movedPast_zero s 0⟩
  | succ n =>
    have hcheck : preCheckFails s (n + 1) = false := by
      rw [← Bool.not_eq_true, preCheckFails_iff n.succ_ne_zero]
      rintro ⟨a, hloads, hpending⟩
      simp [hclear a hloads] at hpending
    refine ⟨_, getField_of_ready hbound hfield n.succ_ne_zero hcheck hgood.cur.inside, ?_, movedPast_gotField hgood hfits⟩
    rw [gotField_succ_eq hgood hfits]

/-- A get past the region or of more than 32 bits is turned away (R126, I1). -/
theorem getField_of_not_fits (hbound : s.br.cur.bound = true)
    (hout : 32 < n ∨ s.br.cur.stop.toNat < s.br.cur.pos.toNat + n) :
    getField n put s = .next { s with status := .outOfRangeBitAccess } := by
  have hfield : s.br.cur.fieldFits n = false := by
    rw [← Bool.not_eq_true, fieldFits_iff]
    omega
  simp [getField, hbound, hfield, raise]

end Get

/-! ### The values of a field -/

theorem toNat_unsignedField {n v : Nat} (hn : n ≤ 32) (hv : v < 2 ^ n) : (unsignedField v).toNat = v :=
  Nat.mod_eq_of_lt (Nat.lt_of_lt_of_le hv (Nat.pow_le_pow_right (by decide) hn))

/-- An `n`-bit field extended by its sign is its two's-complement number (R127). -/
theorem toInt_signedField {n v : Nat} (hn : n ≤ 32) (hv : v < 2 ^ n) : (signedField n v).toInt = signedValue n v := by
  rw [signedField, BitVec.toInt_signExtend_of_le hn, BitVec.toInt_eq_toNat_cond, BitVec.toNat_ofNat,
    Nat.mod_eq_of_lt hv, signedValue]
  cases n with
  | zero =>
    obtain rfl := Nat.lt_one_iff.1 hv
    rfl
  | succ n =>
    rw [if_neg n.succ_ne_zero, Nat.add_sub_cancel, Nat.pow_succ]
    exact if_congr (by omega) rfl (by push_cast; rfl)

theorem toNat_boolField {v : Nat} (hv : v < 2) : (boolField v).toNat = v := by
  obtain rfl | rfl : v = 0 ∨ v = 1 := by omega
  · rfl
  · rfl

/-! ### Regions -/

/-- The region check of a bind, with the bytes of R64 written out (R121). -/
theorem regionOk_eq_ite (b s l : Nat) :
    regionOk b s l = if s + l ≤ 2 ^ 32 - 1 ∧ b + (s + l + 7) / 8 ≤ 2 ^ 32 then some (s + l) else none := by
  split
  case isTrue h => exact regionOk_eq_some.2 ⟨rfl, h⟩
  case isFalse h =>
    refine Option.eq_none_iff_forall_ne_some.2 fun e he => h ?_
    obtain ⟨-, hend, hbytes⟩ := regionOk_eq_some.1 he
    exact ⟨hend, hbytes⟩

/-- The cursor a bind leaves, with the region's end as a sum of words (R120, R140). -/
theorem bindTo_eq (b s l : Word) :
    Cursor.bindTo b s (s.toNat + l.toNat) = { bound := true, buf := b, start := s, pos := s, stop := s + l } := by
  rw [Cursor.bindTo, toWord_toNat_add, toWord, BitVec.ofNat_toNat, BitVec.setWidth_eq]

/-- Where a seek may go (R129, R146). -/
theorem canSeek_iff {c : Cursor} {p : Word} :
    c.canSeek p = true ↔ c.start.toNat ≤ p.toNat ∧ p.toNat ≤ c.stop.toNat := by
  simp [Cursor.canSeek]

theorem canSeek_eq_false {c : Cursor} {p : Word} :
    c.canSeek p = false ↔ p.toNat < c.start.toNat ∨ c.stop.toNat < p.toNat := by
  rw [← Bool.not_eq_true, canSeek_iff]
  omega

end Sys2Proof.Machine

section
open Sys2Proof Sys2Proof.Machine

/-- Settles O41: one get serves the three commands, each with its own value of the field. -/
theorem getsReturnTheStreamField : Obligations.GetsReturnTheStreamField := by
  intro s n hgood hbound hclear hn hfits v last moved
  have hv : v < 2 ^ n := readerField_lt
  have hget := fun put => getField_of_clear (put := put) hgood hbound hclear hn hfits
  refine ⟨fun hfresh => readerField_of_fresh hgood hfresh hfits, ?_, ?_, ?_⟩
  · obtain ⟨t, ht, hres, hmoved⟩ := hget unsignedField fun _ => rfl
    exact ⟨t, ht, hres ▸ toNat_unsignedField hn hv, hmoved⟩
  · obtain ⟨t, ht, hres, hmoved⟩ := hget (signedField n) fun h => h ▸ signedField_zero_zero
    exact ⟨t, ht, hres ▸ toInt_signedField hn hv, hmoved⟩
  · rintro rfl
    obtain ⟨t, ht, hres, hmoved⟩ := hget boolField (by decide)
    exact ⟨t, ht, hres ▸ toNat_boolField hv, hmoved⟩

/-- Settles O40: the region check is one condition, and the new end is a sum of words. -/
theorem brBindChecksTheRegion : Obligations.BrBindChecksTheRegion := by
  intro s
  have hbind : exec .brBind s = execBrBind s := rfl
  rw [hbind, execBrBind, regionOk_eq_ite]
  split_ifs
  · simp only [boundReader, bindTo_eq, finish]
  · rfl

/-- Settles O42: the field does not fit, or the seek leaves the region. -/
theorem readerRefusesBitsOutsideTheRegion : Obligations.ReaderRefusesBitsOutsideTheRegion := by
  refine fun s n hbound => ⟨fun hout => ⟨getField_of_not_fits hbound hout, getField_of_not_fits hbound hout⟩,
    fun hout => getField_of_not_fits hbound (.inr hout), fun hout => ?_⟩
  simp [exec, execBrSeek, hbound, canSeek_eq_false.2 hout, raise]
end

/-!
PROOFS. The BitWriter: what a put records, what the commands that commit leave, and the fields read back
(spec/41_bit_cursors.md R140 to R149).
-/
namespace Sys2Proof.Machine

/-! ### What a put answers -/

section Put
variable {s : State} {n v : Nat}

theorem valueFits_iff : valueFits n v = true ↔ 32 ≤ n ∨ v < 2 ^ n := by simp [valueFits]

/-- A put that nothing stands in the way of (R144). -/
theorem putValue_of_fits (hbound : s.bw.cur.bound = true) (hn : n ≤ 32)
    (hfits : s.bw.cur.pos.toNat + n ≤ s.bw.cur.stop.toNat) (hv : 32 ≤ n ∨ v < 2 ^ n) :
    putValue n v s = .next { s with bw := putField n v s.bw, status := .ok } := by
  have hfield : s.bw.cur.fieldFits n = true := fieldFits_iff.2 ⟨hn, hfits⟩
  have hvalue : valueFits n v = true := valueFits_iff.2 hv
  simp [putValue, hbound, hfield, hvalue, finish]

/-- A put past the region or of more than 32 bits is turned away, whatever its value (R144, R145). -/
theorem putValue_of_not_fits (hbound : s.bw.cur.bound = true)
    (hout : 32 < n ∨ s.bw.cur.stop.toNat < s.bw.cur.pos.toNat + n) :
    putValue n v s = .next { s with status := .outOfRangeBitAccess } := by
  have hfield : s.bw.cur.fieldFits n = false := by
    rw [← Bool.not_eq_true, fieldFits_iff]
    omega
  simp [putValue, hbound, hfield, raise]

/-- A put inside the region of a value wider than its field is turned away (R142). -/
theorem putValue_of_too_wide (hbound : s.bw.cur.bound = true) (hn : n < 32)
    (hfits : s.bw.cur.pos.toNat + n ≤ s.bw.cur.stop.toNat) (hv : 2 ^ n ≤ v) :
    putValue n v s = .next { s with status := .illegalValue } := by
  have hfield : s.bw.cur.fieldFits n = true := fieldFits_iff.2 ⟨Nat.le_of_lt hn, hfits⟩
  have hvalue : valueFits n v = false := by
    rw [← Bool.not_eq_true, valueFits_iff]
    omega
  simp [putValue, hbound, hfield, hvalue, raise]

/-- A put records its bits, most significant first, over what was pending (R141, R144). -/
theorem mapGet_putBits (p : List (Nat × Bool)) (k n v x : Nat) :
    mapGet (putBits p k n v) x = if k ≤ x ∧ x < k + n then some (v.testBit (k + n - 1 - x)) else mapGet p x := by
  rw [putBits, mapGet_foldl_mapSet]
  refine ite_congr rfl (fun hx => ?_) fun _ => rfl
  rw [show n - 1 - (x - k) = k + n - 1 - x by omega]

end Put

/-! ### The commands that commit -/

section Commit
variable {s : State}

theorem execBwClose_of_good (h : s.bw.Good) (hbound : s.bw.cur.bound = true) :
    execBwClose s = .next { releaseWriter (commit s) with status := .ok } := by
  rw [execBwClose, if_neg (by simp [hbound]), commitThen_of_inside h.outside_eq_none]

theorem execBwSeek_of_good (h : s.bw.Good) (hbound : s.bw.cur.bound = true) :
    execBwSeek s =
      .next
        (if s.bw.cur.canSeek s.arg0 = true then { seekWriter (commit s) with status := .ok }
        else { s with status := .outOfRangeBitAccess }) := by
  rw [execBwSeek, if_neg (by simp [hbound]), commitThen_of_inside h.outside_eq_none, raise]
  cases s.bw.cur.canSeek s.arg0 <;> rfl

/-- BW_BIND as one equation: the region first, then whether there is a binding to commit (R121, R140). -/
theorem execBwBind_eq (s : State) :
    execBwBind s =
      if s.arg1.toNat + s.arg2.toNat ≤ 2 ^ 32 - 1 ∧ s.arg0.toNat + (s.arg1.toNat + s.arg2.toNat + 7) / 8 ≤ 2 ^ 32 then
        if s.bw.cur.bound = true then commitThen (rebindWriter (s.arg1.toNat + s.arg2.toNat)) s
        else finish (rebindWriter (s.arg1.toNat + s.arg2.toNat) s)
      else raise .addressRange s := by
  rw [execBwBind, regionOk_eq_ite]
  split_ifs <;> rfl

/-- Stream bit `k` of the writer's buffer as the next commit leaves it in MEM (R143). -/
def State.committedBit (s : State) (k : Nat) : Bool :=
  (mapGet s.bw.pending k).getD (streamBit s.mem s.bw.cur.buf.toNat k)

/-- A flush gives MEM the bits the writer shows (R143). -/
theorem streamBit_commit (h : s.bw.Good) (k : Nat) :
    streamBit (commit s).mem s.bw.cur.buf.toNat k = s.committedBit k :=
  streamBit_commitMem h.pending_rising _ _ _

end Commit

/-! ### A reader at a writer's region -/

section AtRegion
variable {s : State} {c : Cursor}

/-- BR_BIND of the region of a good cursor is accepted, and leaves an empty cache (R120, R121, R149). -/
theorem execBrBind_of_good (hc : c.Good) (hbound : c.bound = true) :
    execBrBind (withArgs c.buf c.start (c.stop - c.start) s) =
      .next
        { withArgs c.buf c.start (c.stop - c.start) s with
          br := { s.br with cur := { c with pos := c.start }, wvalid := false }, status := .ok } := by
  have hle : c.start ≤ c.stop := Nat.le_trans hc.start_le_pos hc.pos_le_stop
  have hstop : c.start.toNat + (c.stop - c.start).toNat = c.stop.toNat := by
    rw [BitVec.toNat_sub_of_le hle]
    exact Nat.add_sub_cancel' hle
  have hregion : regionOk c.buf.toNat c.start.toNat (c.stop - c.start).toNat = some c.stop.toNat := by
    rw [regionOk_eq_some, hstop]
    exact ⟨rfl, Nat.le_sub_one_of_lt c.stop.isLt, hc.inside⟩
  have hcur : Cursor.bindTo c.buf c.start c.stop.toNat = { c with pos := c.start } := by
    rw [Cursor.bindTo, hbound, toWord, BitVec.ofNat_toNat, BitVec.setWidth_eq]
  simp only [execBrBind, withArgs, hregion, boundReader, hcur, finish]

theorem execBrSeek_of_canSeek (hbound : s.br.cur.bound = true) (hseek : s.br.cur.canSeek s.arg0 = true) :
    execBrSeek s = .next { s with br := soughtReader s.arg0 s.br, status := .ok } := by
  simp [execBrSeek, hbound, hseek, finish]

end AtRegion

/-! ### Fields put and read back -/

/-- The bits from place `p` hold the fields of a list, one behind the other: each a width and its value. -/
def FieldsAt (bit : Nat → Bool) : Nat → List (Nat × Word) → Prop
  | _, [] => True
  | p, (n, v) :: rest => bitField bit p n = v.toNat ∧ FieldsAt bit (p + n) rest

/-- `t` is what the puts of `fields` leave of a good writer `s`, as far as the bits they put go (R141, R144). -/
structure PutsDone (fields : List (Nat × Word)) (s t : State) : Prop where
  good : t.bw.Good
  cur : t.bw.cur = { s.bw.cur with pos := t.bw.cur.pos }
  kept : ∀ k, k < s.bw.cur.pos.toNat → mapGet t.bw.pending k = mapGet s.bw.pending k
  put : FieldsAt t.committedBit s.bw.cur.pos.toNat fields

/-- Puts of fields that fit their widths and the region all end with `OK` and record the fields (R144, R149). -/
theorem putAll_of_fits {fields : List (Nat × Word)} {s : State} (hgood : s.bw.Good) (hbound : s.bw.cur.bound = true)
    (hvalues : ∀ nv ∈ fields, nv.1 ≤ 32 ∧ nv.2.toNat < 2 ^ nv.1)
    (hfits : s.bw.cur.pos.toNat + (fields.map Prod.fst).sum ≤ s.bw.cur.stop.toNat) :
    ∃ t, putAll fields s = some t ∧ PutsDone fields s t := by
  induction fields generalizing s with
  | nil => exact ⟨s, rfl, hgood, rfl, fun _ _ => rfl, trivial⟩
  | cons nv rest ih =>
    obtain ⟨n, v⟩ := nv
    simp only [List.map_cons, List.sum_cons] at hfits
    obtain ⟨hn, hv⟩ : n ≤ 32 ∧ v.toNat < 2 ^ n := hvalues (n, v) (by simp)
    have hfirst : s.bw.cur.pos.toNat + n ≤ s.bw.cur.stop.toNat := by omega
    have hpos := Cursor.toNat_pos_add hfirst
    obtain ⟨u, hexec, hok, hbw⟩ : ∃ u, exec (.bwPut n) { s with arg0 := v } = .next u ∧ u.status = .ok ∧
        u.bw = putField n v.toNat s.bw :=
      ⟨_, putValue_of_fits (s := { s with arg0 := v }) hbound hn hfirst (.inr hv), rfl, rfl⟩
    obtain ⟨t, ht, hdone⟩ := ih (s := u) (hbw ▸ hgood.putField hbound hfirst v.toNat) (by rw [hbw]; exact hbound)
      (fun nv hnv => hvalues nv (List.mem_cons_of_mem _ hnv))
      (by rw [hbw, putField_cur, hpos]; exact Nat.add_assoc .. ▸ hfits)
    have hput := hdone.put
    have hkept := hdone.kept
    rw [hbw, putField_cur, hpos] at hput hkept
    simp only [putField_pending, mapGet_putBits] at hkept
    refine ⟨t, ?_, hdone.good, ?_, fun k hk => ?_, bitField_eq_of_testBit hv fun i hi => ?_, hput⟩
    · simp [putAll, hexec, hok, ht]
    · rw [hdone.cur, hbw, putField_cur]
    · rw [hkept k (by omega), if_neg (by omega)]
    · rw [State.committedBit, hkept _ (by omega), if_pos (by omega), Option.getD_some,
        show s.bw.cur.pos.toNat + n - 1 - (s.bw.cur.pos.toNat + i) = n - 1 - i by omega]

theorem cacheFresh_of_not_cached {s : State} (hfree : s.br.wvalid = false) : s.CacheFresh :=
  fun hcached => absurd hcached (by simp [hfree])

/-- The reader of `s` stands before the fields of a list in MEM: its cache is up to date, nothing is pending, and the fields
lie inside its region (R126, R149). -/
structure BeforeFields (fields : List (Nat × Word)) (s : State) : Prop where
  good : s.br.Good
  bound : s.br.cur.bound = true
  fresh : s.CacheFresh
  flushed : s.bw.pending = []
  fits : s.br.cur.pos.toNat + (fields.map Prod.fst).sum ≤ s.br.cur.stop.toNat
  stored : FieldsAt (streamBit s.mem s.br.cur.buf.toNat) s.br.cur.pos.toNat fields

/-- A get of the first field returns it and leaves the reader before the rest. -/
theorem BeforeFields.getField {n : Nat} {v : Word} {rest : List (Nat × Word)} {s : State}
    (h : BeforeFields ((n, v) :: rest) s) (hn1 : 1 ≤ n) (hn : n ≤ 32) (put : Nat → Word) :
    ∃ t, Machine.getField n put s = .next t ∧ t.status = .ok ∧ t.res0 = put v.toNat ∧ BeforeFields rest t := by
  obtain ⟨hgood, hbound, hfresh, hflushed, hfits, hfield, hrest⟩ := h
  simp only [List.map_cons, List.sum_cons] at hfits
  have hfirst : s.br.cur.pos.toNat + n ≤ s.br.cur.stop.toNat := by omega
  have hclear : ∀ a, s.Loads n a → s.bw.isPending a = false := fun a _ => by
    simp [BwUnit.isPending, BwUnit.pendingBytes, hflushed]
  obtain ⟨t, hnext, hres, hframe, hcur, -, -, hcache⟩ :=
    getField_of_clear (put := put) hgood hbound hclear hn hfirst (by omega)
  have hpos : t.br.cur.pos.toNat = s.br.cur.pos.toNat + n := by
    rw [hcur, ← toWord_toNat_add]
    exact Cursor.toNat_pos_add hfirst
  have hmem : t.mem = s.mem := by rw [hframe]
  refine ⟨t, hnext, by rw [hframe], ?_, ?_⟩
  · rw [hres, readerField_of_fresh hgood hfresh hfirst, streamField_eq_bitField, hfield]
  · exact
      { good := ⟨by rw [hcur, ← toWord_toNat_add]; exact hgood.cur.advance hbound hfirst, fun _ => by rw [hcur]; exact hbound⟩
        bound := by rw [hcur]; exact hbound
        fresh := hcache hfresh
        flushed := by rw [hframe]; exact hflushed
        fits := by rw [hpos, hcur]; exact Nat.add_assoc .. ▸ hfits
        stored := by rw [hpos, hmem, hcur]; exact hrest }

/-- Gets of the widths of the fields before the reader return them all, in the form `put` gives them. -/
theorem BeforeFields.getAll {get : Nat → Instr} {put : Nat → Nat → Word}
    (hget : ∀ n s, exec (get n) s = Machine.getField n (put n) s) {fields : List (Nat × Word)} {s : State}
    (h : BeforeFields fields s) (hwidths : ∀ nv ∈ fields, 1 ≤ nv.1 ∧ nv.1 ≤ 32) :
    Machine.getAll get (fields.map Prod.fst) s = some (fields.map fun nv => put nv.1 nv.2.toNat) := by
  induction fields generalizing s with
  | nil => rfl
  | cons nv rest ih =>
    obtain ⟨n, v⟩ := nv
    obtain ⟨hn1, hn⟩ : 1 ≤ n ∧ n ≤ 32 := hwidths (n, v) (by simp)
    obtain ⟨t, hnext, hok, hvalue, hlater⟩ := h.getField hn1 hn (put n)
    have hexec : exec (get n) s = .next t := (hget n s).trans hnext
    have hrest := ih hlater fun nv hnv => hwidths nv (List.mem_cons_of_mem _ hnv)
    simp [Machine.getAll, hexec, hok, hrest, hvalue]

/-- BR_GET and BR_GETS both read back the fields before the reader, each in its own form (R126, R127, R149). -/
theorem BeforeFields.getAll_unsigned_and_signed {fields : List (Nat × Word)} {s : State} (h : BeforeFields fields s)
    (hvalues : ∀ nv ∈ fields, 1 ≤ nv.1 ∧ nv.1 ≤ 32 ∧ nv.2.toNat < 2 ^ nv.1) :
    Machine.getAll .brGet (fields.map Prod.fst) s = some (fields.map Prod.snd) ∧
      Machine.getAll .brGets (fields.map Prod.fst) s =
        some (fields.map fun nv => BitVec.ofInt 32 (signedValue nv.1 nv.2.toNat)) := by
  have hwidths : ∀ nv ∈ fields, 1 ≤ nv.1 ∧ nv.1 ≤ 32 := fun nv hnv => ⟨(hvalues nv hnv).1, (hvalues nv hnv).2.1⟩
  constructor
  · rw [h.getAll (put := fun _ => unsignedField) (fun _ _ => rfl) hwidths]
    refine congrArg some (List.map_congr_left fun nv _ => ?_)
    rw [unsignedField, toWord, BitVec.ofNat_toNat, BitVec.setWidth_eq]
  · rw [h.getAll (put := signedField) (fun _ _ => rfl) hwidths]
    refine congrArg some (List.map_congr_left fun nv hnv => ?_)
    obtain ⟨-, hn, hv⟩ := hvalues nv hnv
    rw [← toInt_signedField hn hv, BitVec.ofInt_toInt]

end Sys2Proof.Machine

section
open Sys2Proof Sys2Proof.Machine

/-- Settles O46: BW_PUT and BW_PUTB are one put of a value that fits. -/
theorem putsRecordTheirBits : Obligations.PutsRecordTheirBits := by
  intro s n hbound hfits hn recorded
  have hput : ∀ v, 32 ≤ n ∨ v < 2 ^ n → ∃ t, putValue n v s = .next t ∧ recorded v t := fun v hv =>
    ⟨_, putValue_of_fits hbound hn hfits hv, rfl, by rw [putField_cur, toWord_toNat_add], fun k => mapGet_putBits ..⟩
  refine ⟨fun hv => hput _ (hv.imp_left ge_of_eq), ?_⟩
  rintro rfl
  obtain ⟨t, ht, hrecorded⟩ := hput (if s.arg0 = 0 then 0 else 1) (.inr (by split <;> decide))
  refine ⟨t, ?_, hrecorded⟩
  rw [← ht, exec, execBwPutb, ite_not]

/-- Settles O48: the commit stream bit by stream bit, and the bytes it does not touch. -/
theorem flushCommitsExactlyThePendingBits : Obligations.FlushCommitsExactlyThePendingBits := fun _ hgood hbound =>
  ⟨_, execBwFlush_of_good hgood hbound, rfl, streamBit_commit hgood, fun _ ha => memByte_commit_of_not_pending ha⟩

/-- Settles O49: each of the three commands is the flush with another cursor. -/
theorem seekCloseAndRebindCommitFirst : Obligations.SeekCloseAndRebindCommitFirst := by
  intro s hgood hbound
  refine ⟨_, execBwFlush_of_good hgood hbound, execBwClose_of_good hgood hbound, ?_, ?_⟩
  · rw [exec, execBwSeek_of_good hgood hbound]
    exact congrArg _ (if_congr canSeek_iff rfl rfl)
  · rw [exec, execBwBind_eq, if_pos hbound, commitThen_of_inside hgood.outside_eq_none, rebindWriter, commit_arg0,
      commit_arg1, bindTo_eq]
    split_ifs
    · rfl
    · rfl

/-- Settles O51: the commit leaves the put fields in MEM, and a reader bound afresh meets MEM. -/
theorem putThenGetReturnsTheFields : Obligations.PutThenGetReturnsTheFields := by
  intro s fields hinv hbound hvalues hfits
  have hcur := hinv.bw.cur
  obtain ⟨s1, hput, hdone⟩ := putAll_of_fits hinv.bw hbound (fun nv hnv => (hvalues nv hnv).2) hfits
  have hflush := execBwFlush_of_good hdone.good (hdone.cur ▸ hbound)
  have hstored : FieldsAt (streamBit (commit s1).mem s.bw.cur.buf.toNat) s.bw.cur.pos.toNat fields := by
    have hbuf : s1.bw.cur.buf = s.bw.cur.buf := by rw [hdone.cur]
    rw [← hbuf, funext (streamBit_commit hdone.good)]
    exact hdone.put
  refine ⟨s1, _, _, _, hput, hflush, execBrBind_of_good hcur hbound,
    execBrSeek_of_canSeek hbound (canSeek_iff.2 ⟨hcur.start_le_pos, hcur.pos_le_stop⟩), ?_⟩
  exact BeforeFields.getAll_unsigned_and_signed
    { good := BrUnit.good_of_not_cached hcur rfl
      bound := hbound
      fresh := cacheFresh_of_not_cached rfl
      flushed := rfl
      fits := hfits
      stored := hstored }
    hvalues

/-- Settles O45: a seek is refused just where it leaves the region. -/
theorem brSeekAndUnbindDropTheCache : Obligations.BrSeekAndUnbindDropTheCache := by
  refine fun s => ⟨?_, ?_⟩
  · simp only [exec, execBrSeek, canSeek_eq_false]
    split_ifs
    · rfl
    · rfl
    · rfl
  · rw [exec, execBrUnbind]
    split_ifs
    · rfl
    · rfl

/-- Settles O47: the three refusals of a put, in the order it checks them. -/
theorem putOfTooWideAValueIsRefused : Obligations.PutOfTooWideAValueIsRefused := fun _ _ hbound =>
  ⟨putValue_of_not_fits hbound, fun hout => putValue_of_not_fits hbound (.inr hout),
    fun hfits hn hv => putValue_of_too_wide hbound hn hfits hv⟩

/-- Settles O50: with nothing bound there is nothing to commit. -/
theorem firstBwBindWritesNoMemory : Obligations.FirstBwBindWritesNoMemory := by
  intro s hfree
  have hnot : ¬s.bw.cur.bound = true := by simp [hfree]
  rw [exec, execBwBind_eq, if_neg hnot, rebindWriter, bindTo_eq]
  split_ifs
  · rfl
  · rfl
end

/-!
PROOFS. The converter's bytes as streams of bits: what each primitive conversion carries from its source to its destination
(spec/42_converter.md R161 to R165, R172, R173).
-/
namespace Sys2Proof.Machine

/-! ### Streams of bits -/

/-- Stream bit `k` of a list of bytes, each byte's most significant bit first (R12, R161); 0 past the end. -/
def listBit (bs : List Byte) (k : Nat) : Bool := (bs.getD (k / 8) 0).getLsbD (7 - k % 8)

/-- Two lists of bytes of one length that carry the same stream are equal. -/
theorem eq_of_listBit {xs ys : List Byte} (hlen : xs.length = ys.length)
    (hbits : ∀ k, k < 8 * ys.length → listBit xs k = listBit ys k) : xs = ys := by
  refine List.ext_getElem hlen fun p hx hy => BitVec.eq_of_getLsbD_eq fun i hi => ?_
  have hbit := hbits (8 * p + (7 - i)) (by omega)
  have hbyte : (8 * p + (7 - i)) / 8 = p := by omega
  have hshift : 7 - (8 * p + (7 - i)) % 8 = i := by omega
  simpa only [listBit, hbyte, hshift, List.getD_eq_getElem _ _ hx, List.getD_eq_getElem _ _ hy] using hbit

/-- Zero bytes behind a list add nothing to its stream. -/
theorem listBit_append_zeros (bs : List Byte) (z k : Nat) : listBit (bs ++ List.replicate z 0) k = listBit bs k := by
  rw [listBit, listBit]
  by_cases hin : k / 8 < bs.length
  · rw [List.getD_append _ _ _ _ hin]
  · rw [List.getD_append_right _ _ _ _ (by omega), List.getD_eq_default bs _ (by omega),
      List.getD_eq_getElem?_getD, List.getElem?_getD_replicate_default_eq]

/-! ### Numbers and their digits -/

/-- The number whose `m`-bit digits are `ds`, the first most significant; what a digit holds above `m` bits is ignored. -/
def digitsNat (m : Nat) (ds : List Nat) : Nat := ds.foldl (fun x d => 2 ^ m * x + d % 2 ^ m) 0

/-- The bytes of a number are its 8-bit digits (R163). -/
theorem bytesNat_eq_digitsNat (bs : List Byte) : bytesNat bs = digitsNat 8 (bs.map BitVec.toNat) := by
  have hstep : ∀ (x : Nat) (b : Byte), 256 * x + b.toNat = 2 ^ 8 * x + b.toNat % 2 ^ 8 := fun x b => by
    rw [Nat.mod_eq_of_lt b.isLt]
    rfl
  simp only [bytesNat, digitsNat, List.foldl_map, hstep]

theorem digitsNat_concat (m : Nat) (ds : List Nat) (d : Nat) :
    digitsNat m (ds ++ [d]) = 2 ^ m * digitsNat m ds + d % 2 ^ m := by
  simp [digitsNat]

/-- Counted from the most significant end, the bits of a number are those of its digits, one digit after another. -/
theorem testBit_digitsNat (m : Nat) (ds : List Nat) {k : Nat} (hk : k < m * ds.length) :
    (digitsNat m ds).testBit (m * ds.length - 1 - k) = (ds.getD (k / m) 0).testBit (m - 1 - k % m) := by
  induction ds using List.reverseRecOn with
  | nil => simp at hk
  | append_singleton ds d ih =>
    rw [List.length_append, List.length_singleton, Nat.mul_succ] at hk ⊢
    rw [digitsNat_concat, Nat.testBit_two_pow_mul_add _ (Nat.mod_lt _ (Nat.two_pow_pos m))]
    by_cases hin : k < m * ds.length
    · rw [if_neg (by omega), show m * ds.length + m - 1 - k - m = m * ds.length - 1 - k by omega, ih hin,
        List.getD_append _ _ _ _ (Nat.div_lt_of_lt_mul hin)]
    · obtain ⟨r, rfl⟩ : ∃ r, k = m * ds.length + r := ⟨k - m * ds.length, by omega⟩
      have hr : r < m := by omega
      rw [if_pos (by omega), Nat.mul_add_div (by omega), Nat.mul_add_mod, Nat.div_eq_of_lt hr, Nat.mod_eq_of_lt hr,
        List.getD_append_right _ _ _ _ (by omega), Nat.testBit_mod_two_pow]
      simp [show m * ds.length + m - 1 - (m * ds.length + r) = m - 1 - r by omega, show m - 1 - r < m by omega]

/-- The bits of a number made of bytes are the stream the bytes carry (R163). -/
theorem testBit_bytesNat (bs : List Byte) {k : Nat} (hk : k < 8 * bs.length) :
    (bytesNat bs).testBit (8 * bs.length - 1 - k) = listBit bs k := by
  have hbit := testBit_digitsNat 8 (bs.map BitVec.toNat) (k := k) (by simpa using hk)
  rw [List.length_map] at hbit
  rw [bytesNat_eq_digitsNat, hbit, listBit, ← BitVec.testBit_toNat]
  exact congrArg (fun d : Nat => d.testBit _) (List.getD_map (f := BitVec.toNat) (d := 0#8) ..)

/-- The `k` low bytes of a number carry its `8*k` low bits (R164). -/
theorem listBit_natBytes (n x : Nat) {k : Nat} (hk : k < 8 * n) : listBit (natBytes n x) k = x.testBit (8 * n - 1 - k) := by
  have hbyte : k / 8 < (natBytes n x).length := by rw [natBytes_length]; omega
  rw [listBit, List.getD_eq_getElem _ _ hbyte]
  simp only [natBytes, List.getElem_map, List.getElem_range, BitVec.getLsbD_ofNat, Nat.testBit_shiftRight]
  rw [decide_eq_true (by omega), Bool.true_and]
  congr 1
  omega

/-! ### Groups -/

theorem length_flatMap_groups {α : Type} {l n : Nat} {f : Nat → List α} (hfull : ∀ g < n, (f g).length = l) :
    ((List.range n).flatMap f).length = l * n := by
  rw [List.length_flatMap, List.map_congr_left (g := fun _ => l) fun g hg => hfull g (List.mem_range.1 hg)]
  simp [Nat.mul_comm]

/-- An element of groups put one behind another, each but the last of `l` elements: it is found by its group and its place
there. -/
theorem getD_flatMap_groups {α : Type} {l n i : Nat} {f : Nat → List α} (d : α) (hfull : ∀ g, g + 1 < n → (f g).length = l)
    (hi : i < l * n) : ((List.range n).flatMap f).getD i d = (f (i / l)).getD (i % l) d := by
  induction n with
  | zero => omega
  | succ n ih =>
    have hlen := length_flatMap_groups (l := l) (n := n) (f := f) fun g hg => hfull g (by omega)
    rw [Nat.mul_succ] at hi
    rw [List.range_succ, List.flatMap_append, List.flatMap_singleton]
    by_cases hin : i < l * n
    · rw [List.getD_append _ _ _ _ (by omega), ih (fun g hg => hfull g (by omega)) hin]
    · obtain ⟨r, rfl⟩ : ∃ r, i = l * n + r := ⟨i - l * n, by omega⟩
      have hr : r < l := by omega
      rw [List.getD_append_right _ _ _ _ (by omega), hlen, Nat.mul_add_div (by omega), Nat.div_eq_of_lt hr,
        Nat.mul_add_mod, Nat.mod_eq_of_lt hr, Nat.add_sub_cancel_left, Nat.add_zero]

theorem getD_groupOf {α : Type} (m : Nat) (xs : List α) (g : Nat) {i : Nat} (hi : i < m) (d : α) :
    (groupOf m xs g).getD i d = xs.getD (m * g + i) d := by
  simp [groupOf, List.getD_eq_getElem?_getD, hi]

/-- The stream of groups of `l` bytes put one behind another. -/
theorem listBit_flatMap_groups {l n k : Nat} {f : Nat → List Byte} (hfull : ∀ g, g + 1 < n → (f g).length = l)
    (hk : k < 8 * (l * n)) : listBit ((List.range n).flatMap f) k = listBit (f (k / (8 * l))) (k % (8 * l)) := by
  rw [listBit, getD_flatMap_groups 0 hfull (Nat.div_lt_of_lt_mul hk), listBit, Nat.div_div_eq_div_mul,
    Nat.mod_mul_right_div_self, Nat.mod_mul_right_mod]

/-- Word `j` of groups of `q` words put one behind another. -/
theorem wordBe_flatMap_groups {q n j : Nat} {f : Nat → List Byte} (hfull : ∀ g, (f g).length = 2 * q) (hj : j < q * n) :
    wordBe ((List.range n).flatMap f) j = wordBe (f (j / q)) (j % q) := by
  have hbyte : ∀ r < 2, ((List.range n).flatMap f).getD (2 * j + r) 0 = (f (j / q)).getD (2 * (j % q) + r) 0 :=
    fun r hr => by
      rw [getD_flatMap_groups 0 (fun g _ => hfull g) (by rw [Nat.mul_assoc]; omega), ← Nat.div_div_eq_div_mul, Nat.mod_mul,
        show (2 * j + r) / 2 = j by omega, show (2 * j + r) % 2 = r by omega, Nat.add_comm r]
  simpa only [wordBe, Nat.add_zero] using congrArg₂ (fun x y : Byte => x.toNat * 256 + y.toNat) (hbyte 0 (by omega))
    (hbyte 1 (by omega))

/-- A group of 7 bytes carries the next 56 bits of the stream. -/
theorem listBit_groupOf (bs : List Byte) (g : Nat) {k : Nat} (hk : k < 56) :
    listBit (groupOf 7 bs g) k = listBit bs (56 * g + k) := by
  rw [listBit, getD_groupOf 7 bs g (by omega), listBit, show 7 * g + k / 8 = (56 * g + k) / 8 by omega,
    show k % 8 = (56 * g + k) % 8 by omega]

/-! ### Swap16 -/

/-- Swap16 exchanges the two bytes of each word, the byte past an odd length being 0 (R162). -/
theorem getD_swap16 (bs : List Byte) (i : Nat) :
    (swap16 bs).getD i 0 = bs.getD (if i % 2 = 0 then i + 1 else i - 1) 0 := by
  induction bs using swap16.induct generalizing i with
  | case1 => simp [swap16]
  | case2 b =>
    match i with
    | 0 => rfl
    | 1 => rfl
    | i + 2 => split_ifs <;> simp [swap16]
  | case3 b c rest ih =>
    match i with
    | 0 => rfl
    | 1 => rfl
    | i + 2 =>
      simp only [swap16, List.getD_cons_succ, ih, Nat.add_mod_right]
      split_ifs
      · rfl
      · rw [show i + 2 - 1 = i - 1 + 2 by omega, List.getD_cons_succ, List.getD_cons_succ]

theorem getD_swap16_high (bs : List Byte) (j : Nat) : (swap16 bs).getD (2 * j) 0 = bs.getD (2 * j + 1) 0 := by
  rw [getD_swap16, if_pos (by omega)]

theorem getD_swap16_low (bs : List Byte) (j : Nat) : (swap16 bs).getD (2 * j + 1) 0 = bs.getD (2 * j) 0 := by
  rw [getD_swap16, if_neg (by omega), Nat.add_sub_cancel]

/-- Swap16 turns big-endian words into little-endian ones (R162). -/
theorem wordLe_swap16 (bs : List Byte) (j : Nat) : wordLe (swap16 bs) j = wordBe bs j := by
  rw [wordLe, wordBe, getD_swap16_high, getD_swap16_low]

/-- Swap16 turns little-endian words into big-endian ones (R162). -/
theorem wordBe_swap16 (bs : List Byte) (j : Nat) : wordBe (swap16 bs) j = wordLe bs j := by
  rw [wordLe, wordBe, getD_swap16_high, getD_swap16_low]

theorem swap16_length_of_even {bs : List Byte} (heven : bs.length % 2 = 0) : (swap16 bs).length = bs.length := by
  rw [swap16_length, evenUp, heven, Nat.add_zero]

/-- Swap16 twice gives the bytes again, the byte an odd length is padded with behind them (R162, R172). -/
theorem swap16_swap16 (bs : List Byte) : swap16 (swap16 bs) = if bs.length % 2 = 1 then bs ++ [0] else bs := by
  induction bs using swap16.induct with
  | case1 => rfl
  | case2 b => rfl
  | case3 b c rest ih =>
    simp only [swap16, ih, List.length_cons, Nat.add_assoc, Nat.add_mod_right]
    split_ifs
    · rfl
    · rfl

theorem swap16_swap16_of_even {bs : List Byte} (heven : bs.length % 2 = 0) : swap16 (swap16 bs) = bs := by
  rw [swap16_swap16, if_neg (by omega)]

/-! ### The 14-bit expansion -/

/-- Word `i` of a group of at most 7 bytes, before its padding (R163). -/
def groupWord (grp : List Byte) (i : Nat) : Nat := (bytesNat (padTo7 grp) >>> (42 - 14 * i)) % 2 ^ 14

theorem expandGroup_eq (pad : Pad14) (grp : List Byte) :
    expandGroup pad grp = (List.range 4).flatMap fun i => wordBytes (padWord pad (groupWord grp i)) := rfl

theorem groupWord_lt (grp : List Byte) (i : Nat) : groupWord grp i < 2 ^ 14 := Nat.mod_lt _ (Nat.two_pow_pos 14)

/-- Word `j` of a group carries the stream bits `14*j` to `14*j + 13` of the group (R163). -/
theorem testBit_groupWord {grp : List Byte} (hgrp : grp.length ≤ 7) {j i : Nat} (hj : j < 4) (hi : i < 14) :
    (groupWord grp j).testBit (13 - i) = listBit grp (14 * j + i) := by
  have hlen : (padTo7 grp).length = 7 := by rw [padTo7, List.length_append, List.length_replicate]; omega
  have hbit := testBit_bytesNat (padTo7 grp) (k := 14 * j + i) (by omega)
  rw [hlen, padTo7, listBit_append_zeros, ← padTo7] at hbit
  rw [groupWord, Nat.testBit_mod_two_pow, decide_eq_true (by omega), Bool.true_and, Nat.testBit_shiftRight, ← hbit]
  congr 1
  omega

/-- A padded word is its 14 bits below the padding, which is 0 or 3 (R163). -/
theorem padWord_eq (pad : Pad14) (v : Nat) :
    padWord pad v = 2 ^ 14 * (if pad = .sign ∧ v.testBit 13 = true then 3 else 0) + v := by
  rw [padWord]
  split_ifs
  · omega
  · omega

theorem testBit_padWord (pad : Pad14) {v : Nat} (hv : v < 2 ^ 14) {i : Nat} (hi : i < 14) :
    (padWord pad v).testBit i = v.testBit i := by
  rw [padWord_eq, Nat.testBit_two_pow_mul_add _ hv, if_pos hi]

theorem padWord_lt (pad : Pad14) {v : Nat} (hv : v < 2 ^ 14) : padWord pad v < 2 ^ 16 := by
  rw [padWord_eq]
  split_ifs
  · omega
  · omega

/-- The two top bits of a padded word (R163, I10). -/
theorem padWord_div (pad : Pad14) {v : Nat} (hv : v < 2 ^ 14) :
    padWord pad v / 2 ^ 14 = if pad = .sign ∧ (padWord pad v).testBit 13 = true then 3 else 0 := by
  rw [testBit_padWord pad hv (by omega), padWord_eq, Nat.mul_add_div (Nat.two_pow_pos 14), Nat.div_eq_of_lt hv, Nat.add_zero]

theorem wordBe_wordBytes {w : Nat} (hw : w < 2 ^ 16) : wordBe (wordBytes w) 0 = w := by
  have hbytes : wordBytes w = [BitVec.ofNat 8 (w >>> 8), BitVec.ofNat 8 w] := rfl
  simp only [hbytes, wordBe, Nat.mul_zero, Nat.zero_add, List.getD_cons_zero, List.getD_cons_succ, BitVec.toNat_ofNat,
    Nat.shiftRight_eq_div_pow]
  omega

/-- Word `j` of an expansion is word `j mod 4` of its group, padded (R163). -/
theorem wordBe_expand14be (pad : Pad14) (bs : List Byte) {j : Nat} (hj : j < 4 * ceilDiv bs.length 7) :
    wordBe (expand14be pad bs) j = padWord pad (groupWord (groupOf 7 bs (j / 4)) (j % 4)) := by
  rw [expand14be, wordBe_flatMap_groups (q := 4) (fun g => expandGroup_length pad _) hj, expandGroup_eq,
    wordBe_flatMap_groups (q := 1) (fun i => wordBytes_length _) (by omega), Nat.mod_one, Nat.div_one,
    wordBe_wordBytes (padWord_lt pad (groupWord_lt _ _))]

/-- An expanded word carries 14 bits of the source, the next 14 for the next word (R161, R163). -/
theorem testBit_wordBe_expand14be (pad : Pad14) (bs : List Byte) {j i : Nat} (hj : j < 4 * ceilDiv bs.length 7)
    (hi : i < 14) : (wordBe (expand14be pad bs) j).testBit (13 - i) = listBit bs (14 * j + i) := by
  have hgrp : (groupOf 7 bs (j / 4)).length ≤ 7 := by rw [groupOf_length]; omega
  rw [wordBe_expand14be pad bs hj, testBit_padWord pad (groupWord_lt _ _) (by omega),
    testBit_groupWord hgrp (Nat.mod_lt _ (by omega)) hi, listBit_groupOf bs _ (by omega)]
  congr 1
  omega

/-- The padding of an expanded word (R163, I10). -/
theorem wordBe_expand14be_div (pad : Pad14) (bs : List Byte) {j : Nat} (hj : j < 4 * ceilDiv bs.length 7) :
    wordBe (expand14be pad bs) j / 2 ^ 14 =
      if pad = .sign ∧ (wordBe (expand14be pad bs) j).testBit 13 = true then 3 else 0 := by
  rw [wordBe_expand14be pad bs hj]
  exact padWord_div pad (groupWord_lt _ _)

theorem expand14be_length_even (pad : Pad14) (bs : List Byte) : (expand14be pad bs).length % 2 = 0 := by
  rw [expand14be_length, expandLen]
  omega

/-! ### The 14-bit contraction -/

/-- The words of an even number of bytes are its big-endian words (R164). -/
theorem getD_wordsOf {bs : List Byte} {j : Nat} (hj : 2 * j + 1 < bs.length) : (wordsOf bs).getD j 0 = wordBe bs j := by
  induction bs using wordsOf.induct generalizing j with
  | case1 b c rest ih =>
    match j with
    | 0 => rfl
    | j + 1 =>
      simp only [List.length_cons] at hj
      exact ih (by omega)
  | case2 bs hshort =>
    match bs, hshort with
    | [], _ => simp at hj
    | [b], _ => simp at hj
    | b :: c :: rest, hshort => exact absurd rfl (hshort b c rest)

theorem contractGroup_eq (grp : List Nat) :
    contractGroup grp = natBytes (14 * grp.length / 8) (digitsNat 14 grp >>> (14 * grp.length - 8 * (14 * grp.length / 8))) :=
  rfl

/-- A contracted group carries the 14 low bits of each of its words, as far as they fill whole bytes (R164). -/
theorem listBit_contractGroup {grp : List Nat} {k : Nat} (hk : k < 8 * (14 * grp.length / 8)) :
    listBit (contractGroup grp) k = (grp.getD (k / 14) 0).testBit (13 - k % 14) := by
  rw [contractGroup_eq, listBit_natBytes _ _ hk, Nat.testBit_shiftRight, ← testBit_digitsNat 14 grp (by omega)]
  congr 1
  omega

/-- A contraction carries the 14 low bits of each of its words, as far as they fill whole bytes (R161, R164). -/
theorem listBit_contract14be {bs : List Byte} (heven : bs.length % 2 = 0) {k : Nat} (hk : k < 8 * (7 * bs.length / 8)) :
    listBit (contract14be bs) k = (wordBe bs (k / 14)).testBit (13 - k % 14) := by
  have hwords := wordsOf_length bs
  have hgroup : ∀ g, (contractGroup (groupOf 4 (wordsOf bs) g)).length = 14 * min 4 ((wordsOf bs).length - 4 * g) / 8 :=
    fun g => by rw [contractGroup_length, groupOf_length]
  rw [contract14be, ceilDiv, listBit_flatMap_groups (l := 7) (fun g hg => by rw [hgroup]; omega) (by omega),
    listBit_contractGroup (by rw [groupOf_length]; omega), getD_groupOf _ _ _ (by omega),
    show 4 * (k / (8 * 7)) + k % (8 * 7) / 14 = k / 14 by omega, getD_wordsOf (by omega)]
  congr 1
  omega

theorem contract14be_length_of_even {bs : List Byte} (heven : bs.length % 2 = 0) :
    (contract14be bs).length = 7 * bs.length / 8 := by
  rw [contract14be_length heven, contractLen]
  omega

/-! ### Round trips -/

/-- Contracting an expansion gives the source again, the zero bytes of its last group behind it (R173). -/
theorem contract14be_expand14be (pad : Pad14) (bs : List Byte) :
    contract14be (expand14be pad bs) = bs ++ List.replicate (7 * ceilDiv bs.length 7 - bs.length) 0 := by
  have heven := expand14be_length_even pad bs
  have hlen := expand14be_length pad bs
  have hceil : bs.length ≤ 7 * ceilDiv bs.length 7 := by rw [ceilDiv]; omega
  rw [expandLen] at hlen
  refine eq_of_listBit ?_ fun k hk => ?_
  · rw [contract14be_length_of_even heven, List.length_append, List.length_replicate]
    omega
  · rw [List.length_append, List.length_replicate] at hk
    rw [listBit_contract14be heven (by omega), testBit_wordBe_expand14be pad bs (by omega) (by omega), Nat.div_add_mod,
      listBit_append_zeros]

/-- The little-endian forms round trip as the big-endian ones: the two Swap16s undo each other (R165, R173). -/
theorem contract14le_expand14le (pad : Pad14) (bs : List Byte) :
    contract14le (expand14le pad bs) = contract14be (expand14be pad bs) := by
  rw [contract14le, expand14le, swap16_swap16_of_even (expand14be_length_even pad bs)]

/-- Among BYTE, W16BE and W16LE only the identity copy and Swap16 convert, the same one in both directions (R166). -/
theorem conversionOf_lossless : ∀ a ∈ [Packing.byte, .w16be, .w16le], ∀ b ∈ [Packing.byte, .w16be, .w16le],
    (conversionOf a b = some .copy ∨ conversionOf a b = some .swap) ∧ conversionOf b a = conversionOf a b := by
  decide

end Sys2Proof.Machine

/-!
PROOFS. The table of conversions and the commands CONV and CONV_QUERY (spec/42_converter.md R166 to R171).
-/
namespace Sys2Proof.Machine

theorem contractive_iff {f t : Nat} : contractive f t = true ↔ (f = 3 ∨ f = 4) ∧ t ≠ f := by
  simp [contractive, is14]

/-- Two ranges overlap where they share a byte (R14). -/
theorem overlaps_iff {a b c d : Nat} : overlaps a b c d = true ↔ ∃ x, a ≤ x ∧ x < b ∧ c ≤ x ∧ x < d := by
  simp only [overlaps, Bool.and_eq_true, decide_eq_true_eq]
  constructor
  · rintro ⟨⟨⟨hab, hcd⟩, had⟩, hcb⟩
    exact ⟨max a c, by omega⟩
  · rintro ⟨x, hx⟩
    omega

section Checks
variable {s : State} {f t : Nat} {c : Conversion}

/-- The checks of CONV, one after another, for a pair of the table (R170). -/
theorem exec_conv_of_codes (hconv : conversionOfCodes f t = some c) :
    exec (.conv f t) s =
      if contractive f t = true ∧ s.arg1.toNat % 2 = 1 then raise .badLength s
      else if 2 ^ 32 < s.arg0.toNat + s.arg1.toNat ∨ 2 ^ 32 < s.arg2.toNat + c.outLen s.arg1.toNat then
        raise .addressRange s
      else if s.arg2.toNat ≠ s.arg0.toNat ∧
          overlaps s.arg0.toNat (s.arg0.toNat + s.arg1.toNat) s.arg2.toNat
            (s.arg2.toNat + c.outLen s.arg1.toNat) = true then
        raise .overlap s
      else if s.bw.pendingIn s.arg0.toNat (s.arg0.toNat + s.arg1.toNat) = true ∨
          s.bw.pendingIn s.arg2.toNat (s.arg2.toNat + c.outLen s.arg1.toNat) = true then
        raise .unflushedWriter s
      else finish (converted Config.platform.pad14 c s) := by
  simp only [exec, execConv, convOn, hconv]

theorem exec_conv_of_no_codes (hconv : conversionOfCodes f t = none) :
    exec (.conv f t) s = .next { s with status := .unsupportedConversion } := by
  simp only [exec, execConv, convOn, hconv, raise]

/-- CONV's byte ranges share no byte, or are the same conversion in place (R168). -/
theorem not_overlap_check {src n dst m : Nat} (h : dst = src ∨ ∀ a, src ≤ a → a < src + n → ¬(dst ≤ a ∧ a < dst + m)) :
    ¬(dst ≠ src ∧ overlaps src (src + n) dst (dst + m) = true) := by
  rw [overlaps_iff]
  rintro ⟨hne, x, hlo, hhi, hx⟩
  exact h.resolve_left hne x hlo hhi hx

/-- CONV's check for pending bytes, over the bytes of both ranges (R75, R170). -/
theorem pending_check_iff {w : BwUnit} {src n dst m : Nat} :
    (w.pendingIn src (src + n) = true ∨ w.pendingIn dst (dst + m) = true) ↔
      ∃ a, w.isPending a = true ∧ ((src ≤ a ∧ a < src + n) ∨ (dst ≤ a ∧ a < dst + m)) := by
  rw [pendingIn_iff, pendingIn_iff, ← exists_or]
  exact exists_congr fun a => by tauto

/-- A pair of the table whose checks pass is converted (R170). -/
theorem exec_conv_of_checks (hconv : conversionOfCodes f t = some c)
    (heven : ¬(contractive f t = true ∧ s.arg1.toNat % 2 = 1)) (hsrc : s.arg0.toNat + s.arg1.toNat ≤ 2 ^ 32)
    (hdst : s.arg2.toNat + c.outLen s.arg1.toNat ≤ 2 ^ 32)
    (hapart : s.arg2.toNat = s.arg0.toNat ∨ ∀ a, s.arg0.toNat ≤ a → a < s.arg0.toNat + s.arg1.toNat →
      ¬(s.arg2.toNat ≤ a ∧ a < s.arg2.toNat + c.outLen s.arg1.toNat))
    (hclear : ∀ a, (s.arg0.toNat ≤ a ∧ a < s.arg0.toNat + s.arg1.toNat) ∨
      (s.arg2.toNat ≤ a ∧ a < s.arg2.toNat + c.outLen s.arg1.toNat) → s.bw.isPending a = false) :
    exec (.conv f t) s = .next { converted Config.platform.pad14 c s with status := .ok } := by
  rw [exec_conv_of_codes hconv, if_neg heven, if_neg (by omega), if_neg (not_overlap_check hapart), if_neg, finish]
  rw [pending_check_iff]
  rintro ⟨a, hpending, ha⟩
  simp [hclear a ha] at hpending

end Checks

/-! ### What a conversion leaves -/

/-- What a conversion changes: MEM, `RES0` and the count of free values (R170). -/
theorem converted_frame (pad : Pad14) (c : Conversion) (s : State) :
    converted pad c s =
      { s with res0 := (converted pad c s).res0, mem := (converted pad c s).mem,
               freeCount := (converted pad c s).freeCount } := by
  rw [converted, countWritten_frame]

/-- A length that fits a register is reported, and no free value is drawn (R170). -/
theorem converted_count (pad : Pad14) {c : Conversion} {s : State} (hlen : c.outLen s.arg1.toNat < 2 ^ 32) :
    (converted pad c s).res0.toNat = c.outLen s.arg1.toNat ∧ (converted pad c s).freeCount = s.freeCount := by
  rw [converted, countWritten, if_pos hlen]
  exact ⟨Nat.mod_eq_of_lt hlen, rfl⟩

/-- What a conversion of `n` bytes of MEM gives is as long as the table says (R167). -/
theorem apply_memRead_length (pad : Pad14) {f t : Nat} {c : Conversion} (m : Memory) (a : Nat) {n : Nat}
    (hconv : conversionOfCodes f t = some c) (heven : ¬(contractive f t = true ∧ n % 2 = 1)) :
    (c.apply pad (memRead m a n)).length = c.outLen n := by
  have hread := memRead_length m a n
  rw [apply_length_of_codes pad hconv (by rwa [hread]), hread]

end Sys2Proof.Machine

/-! ### The obligations -/

section
open Sys2Proof Sys2Proof.Machine

/-- Settles O53: the length lemma of each conversion, and the column written out. -/
theorem outputLengthIsTheTables : Obligations.OutputLengthIsTheTables :=
  ⟨fun pad _ _ _ _ hconv heven => apply_length_of_codes pad hconv heven, fun _ =>
    ⟨rfl, rfl, rfl, rfl, rfl, rfl, rfl, rfl, rfl, rfl⟩⟩

/-- Settles O54: the bits of an expanded word, of a contraction and of Swap16; a little-endian form is the big-endian one of
swapped words. -/
theorem expandedWordsCarryTheStream : Obligations.ExpandedWordsCarryTheStream := by
  refine ⟨fun pad bs j i hj hi => ?_, fun bs heven => ?_, fun bs => ⟨swap16_length bs, fun i _ => getD_swap16 bs i⟩,
    fun pad bs => ⟨rfl, rfl, rfl, rfl, rfl, rfl, rfl, rfl, rfl, rfl⟩⟩
  · have hbe := And.intro (testBit_wordBe_expand14be pad bs hj hi) (wordBe_expand14be_div pad bs hj)
    refine ⟨hbe, ?_⟩
    rw [expand14le, wordLe_swap16]
    exact hbe
  · have hlen := swap16_length_of_even heven
    have heven' : (swap16 bs).length % 2 = 0 := hlen ▸ heven
    refine ⟨contract14be_length_of_even heven, ?_, fun k hk => ⟨listBit_contract14be heven hk, ?_⟩⟩
    · rw [contract14le, contract14be_length_of_even heven', hlen]
    · have hbit := listBit_contract14be heven' (k := k) (by rwa [hlen])
      rwa [wordBe_swap16] at hbit

/-- Settles O55: both conversions are the identity copy or both are Swap16. -/
theorem losslessPairsRoundTrip : Obligations.LosslessPairsRoundTrip := by
  intro pad a b c c' bs ha hb hc hc'
  obtain ⟨hkind, hback⟩ := conversionOf_lossless a ha b hb
  obtain rfl : c' = c := Option.some.inj (hc'.symm.trans (hback.trans hc))
  simp only [hc, Option.some.injEq] at hkind
  obtain rfl | rfl := hkind
  · rfl
  · simpa only [Conversion.apply, true_and] using swap16_swap16 bs

/-- Settles O56: the contraction carries the bits of the expanded words, which are those of the source. -/
theorem fourteenBitRoundTrip : Obligations.FourteenBitRoundTrip := fun pad bs =>
  ⟨contract14be_expand14be pad bs, (contract14le_expand14le pad bs).trans (contract14be_expand14be pad bs)⟩

/-- Settles O57: the checks pass, so the bytes read before the write are converted, as many as the table says. -/
theorem convWritesTheConvertedSource : Obligations.ConvWritesTheConvertedSource := by
  intro s f t c src n dst bytes out hconv heven hsrc hdst hapart hclear
  have hlen : out.length = c.outLen n := apply_memRead_length _ s.mem src hconv heven
  have hmem : (converted Config.platform.pad14 c s).mem = memWrite s.mem dst out := converted_mem _ c s
  refine ⟨_, exec_conv_of_checks hconv heven hsrc hdst hapart hclear, ?_, ?_, fun a ha => ?_, converted_count _⟩
  · rw [converted_frame]
  · calc memRead (converted Config.platform.pad14 c s).mem dst (c.outLen n)
        = memRead (memWrite s.mem dst out) dst out.length := by rw [hmem, hlen]
      _ = out := memRead_memWrite_same s.mem dst out
  · calc memByte (converted Config.platform.pad14 c s).mem a
        = memByte (memWrite s.mem dst out) a := by rw [hmem]
      _ = memByte s.mem a := memByte_memWrite_outside s.mem out (by rwa [hlen])

/-- Settles O58: each refusal with the checks before it passed. -/
theorem convChecksInOrder : Obligations.ConvChecksInOrder := by
  refine fun s f t => ⟨exec_conv_of_no_codes, fun c hconv => ?_⟩
  rw [exec_conv_of_codes hconv]
  refine ⟨fun hodd => if_pos hodd, fun heven => ?_⟩
  rw [if_neg heven]
  refine ⟨fun hrange => if_pos hrange, fun hsrc hdst => ?_⟩
  rw [if_neg (by omega)]
  refine ⟨fun hne hshared => if_pos ⟨hne, overlaps_iff.2 hshared⟩, fun hapart hpending => ?_⟩
  rw [if_neg (not_overlap_check hapart)]
  exact if_pos (pending_check_iff.2 hpending)

/-- Settles O52: the table of the pairs of packing types, read by their codes. -/
theorem nineteenPairsAreSupported : Obligations.NineteenPairsAreSupported := by
  refine ⟨fun f t => contractive_iff, fun f t c => ⟨fun hconv => ?_, fun hrow => ?_⟩⟩
  · obtain ⟨a, b, rfl, rfl, hab⟩ := conversionOfCodes_eq_some hconv
    cases a <;> cases b <;> cases hab <;> decide
  · refine (?_ : ∀ row ∈ _, conversionOfCodes row.1 row.2.1 = some row.2.2) _ hrow
    decide

/-- Settles O59: CONV_QUERY's one check, for a pair of the table and for any other. -/
theorem convQueryReportsTheLength : Obligations.ConvQueryReportsTheLength := by
  refine fun s f t => ⟨fun hnone => ?_, fun c hconv => ?_⟩
  · simp only [exec, execConvQuery, hnone, raise]
  · simp only [exec, execConvQuery, hconv]
    split_ifs
    · rfl
    · rfl
end

/-!
PROOFS. What a step of the FS decides, and that bytes which come later do not change it (spec/43_frame_sync.md R196 to
R214).
-/
namespace Sys2Proof.Machine

@[simp] theorem toWord_toNat (w : Word) : toWord w.toNat = w := by
  rw [toWord, BitVec.ofNat_toNat, BitVec.setWidth_eq]

/-! ### Searches in another order -/

section Orders
variable {D : ParserDescriptor} {f : FsUnit}

theorem buffered_eq_false_iff {i : Nat} : buffered f i = false ↔ f.fill < i + f.h.toNat := by simp [buffered]

/-- Where a buffered candidate 3 of a rising list agrees, the loop over the list finds one: all it tries before is buffered
too (R199, R200). -/
theorem search3_of_rising_agrees {h1 h2 : HeaderInfo} {l : List Nat} {r : Nat} (hl : l.Pairwise (· < ·)) (hr : r ∈ l)
    (hagrees : ThirdAgrees D f h1 h2 r) : search3 D f h1 h2 l = .found () := by
  obtain ⟨hbuf, h3, hvalid, hcompare⟩ := hagrees
  have hnotFails : ¬ThirdFails D f h1 h2 r := fun hfails => hfails.2 h3 hvalid hcompare
  cases hsearch : search3 D f h1 h2 l with
  | need =>
    obtain ⟨y, hreached, hshort⟩ := search3_eq_need.1 hsearch
    exact absurd (((reachedIn_of_rising hl).1 hreached).2 r hr (by omega)) hnotFails
  | fail =>
    obtain ⟨hrbuf, hfails⟩ := search3_eq_fail.1 hsearch r hr
    exact absurd ⟨hbuf, hfails⟩ hnotFails
  | found => rfl

/-- The loop for the next free-format header finds one exactly where one that is reached stands there (R210). -/
theorem searchNext_eq_found {h : HeaderInfo} {l : List Nat} {j : Nat} :
    searchNext D f h l = .found j ↔ ReachedIn l (NoHeaderAt D f h) j ∧ NextHeaderAt D f h j := by
  induction l with
  | nil => simp [searchNext]
  | cons x xs ih =>
    have hx : (j = x ∧ NextHeaderAt D f h j) ↔ j = x ∧ NextHeaderAt D f h x := by
      constructor <;> (rintro ⟨rfl, hj⟩; exact ⟨rfl, hj⟩)
    rw [reachedIn_cons, or_and_right, and_assoc, ← ih, hx, searchNext, NextHeaderAt, NoHeaderAt, ← buffered_iff]
    cases hb : buffered f x
    · simp
    cases hv : validAt D f x with
    | none => simp
    | some h' => cases hc : D.compare h h' <;> simp [hc, @eq_comm _ x j]

/-- The loop for the next free-format header needs input exactly where one that is reached is not buffered (R203, R210). -/
theorem searchNext_eq_need {h : HeaderInfo} {l : List Nat} :
    searchNext D f h l = .need ↔ ∃ j, ReachedIn l (NoHeaderAt D f h) j ∧ f.fill < j + f.h.toNat := by
  induction l with
  | nil => simp [searchNext]
  | cons x xs ih =>
    rw [exists_reachedIn_cons, ← ih, searchNext, NoHeaderAt, ← Nat.not_le, ← buffered_iff]
    cases hb : buffered f x
    · simp
    cases hv : validAt D f x with
    | none => simp
    | some h' => cases hc : D.compare h h' <;> simp [hc]

/-- In a rising list with `x` moved to its front an offset is reached where all that come before it meet `P`: `x`, if the
list holds it, and the smaller ones (R210). -/
theorem reachedIn_tryFirst {P : Nat → Prop} {x j : Nat} {l : List Nat} (hl : l.Pairwise (· < ·)) (hj : j ∈ l)
    (hbefore : ∀ y ∈ l, y ≠ j ∧ (y = x ∨ (j ≠ x ∧ y < j)) → P y) : ReachedIn (tryFirst x l) P j := by
  unfold tryFirst
  split
  case isTrue hx =>
    rw [reachedIn_cons]
    by_cases hjx : j = x
    · exact .inl hjx
    · refine .inr ⟨hbefore x hx ⟨Ne.symm hjx, .inl rfl⟩, (reachedIn_of_rising (hl.filter _)).2 ⟨?_, fun y hy hlt => ?_⟩⟩
      · simp [hj, hjx]
      · exact hbefore y (List.mem_filter.1 hy).1 ⟨Nat.ne_of_lt hlt, .inr ⟨hjx, hlt⟩⟩
  case isFalse hx =>
    refine (reachedIn_of_rising hl).2 ⟨hj, fun y hy hlt => hbefore y hy ⟨Nat.ne_of_lt hlt, .inr ⟨?_, hlt⟩⟩⟩
    rintro rfl
    exact hx hj

end Orders

/-! ### The raw scan -/

/-- What the raw scan decides (R207): a debris of `Fmax` bytes, a frame at candidate 1 `x` with candidate 2 at `q`, or that
candidate 1 `x` needs input. -/
inductive ScanVerdict where
  | debris
  | confirm (x : Nat) (h1 : HeaderInfo) (q : Nat)
  | wait (x : Nat)

/-- How a scan that decides so ends. -/
def ScanVerdict.outcome : ScanVerdict → FsUnit → FsOutcome
  | .debris, f => .done (emitDebris f)
  | .confirm x h1 q, f => .done (confirmFrame x h1 q f)
  | .wait x, f => needAt x f

/-- Candidate 1 at `x` needs input for its own probe or for its search (R203, R207). -/
def CandidateWaits (D : ParserDescriptor) (f : FsUnit) (x : Nat) : Prop :=
  buffered f x = false ∨ ∃ h1, validAt D f x = some h1 ∧ search23 D f x h1 = .need

/-- The verdict of the scan over the `left` candidates 1 from `p` up: the first one that has not failed decides (R207). -/
inductive ScanDecides (D : ParserDescriptor) (f : FsUnit) (left p : Nat) : ScanVerdict → Prop where
  | debris (hfail : ∀ x, p ≤ x → x < p + left → CandidateFails D f x) : ScanDecides D f left p .debris
  | confirm {x h1 q} (hlo : p ≤ x) (hhi : x < p + left) (hfail : ∀ y, p ≤ y → y < x → CandidateFails D f y)
      (hbuf : buffered f x = true) (hvalid : validAt D f x = some h1) (hfound : search23 D f x h1 = .found q) :
      ScanDecides D f left p (.confirm x h1 q)
  | wait {x} (hlo : p ≤ x) (hhi : x < p + left) (hfail : ∀ y, p ≤ y → y < x → CandidateFails D f y)
      (hwait : CandidateWaits D f x) : ScanDecides D f left p (.wait x)

section Scan
variable {D : ParserDescriptor} {f g : FsUnit} {left p : Nat} {v : ScanVerdict}

/-- The scan comes to a candidate 1 that all before it have failed. -/
theorem scanFrom_reaches {x : Nat} (hlo : p ≤ x) (hhi : x < p + left)
    (hfail : ∀ y, p ≤ y → y < x → CandidateFails D f y) :
    scanFrom D f left p = scanFrom D f (p + left - x) x := by
  have hskip := scanFrom_skip (left := p + left - x) (x - p) fun y h1 h2 => hfail y h1 (by omega)
  rwa [show x - p + (p + left - x) = left by omega, show p + (x - p) = x by omega] at hskip

/-- The scan ends as its verdict says. -/
theorem ScanDecides.scanFrom_eq (h : ScanDecides D f left p v) : scanFrom D f left p = v.outcome f := by
  cases h with
  | debris hfail => exact scanFrom_skip (left := 0) left hfail
  | @confirm x h1 q hlo hhi hfail hbuf hvalid hfound =>
    rw [scanFrom_reaches hlo hhi hfail, show p + left - x = p + left - x - 1 + 1 by omega, scanFrom]
    simp [hbuf, hvalid, hfound, ScanVerdict.outcome]
  | @wait x hlo hhi hfail hwait =>
    rw [scanFrom_reaches hlo hhi hfail, show p + left - x = p + left - x - 1 + 1 by omega, scanFrom]
    obtain hbuf | ⟨h1, hvalid, hneed⟩ := hwait
    · simp [hbuf, ScanVerdict.outcome]
    · simp [hvalid, hneed, ScanVerdict.outcome]

/-- Every scan has a verdict: all its candidates 1 fail, or the first that does not decides. -/
theorem exists_scanDecides (D : ParserDescriptor) (f : FsUnit) (left p : Nat) : ∃ v, ScanDecides D f left p v := by
  classical
  by_cases hall : ∀ x, p ≤ x → x < p + left → CandidateFails D f x
  · exact ⟨_, .debris hall⟩
  have hex : ∃ x, p ≤ x ∧ x < p + left ∧ ¬CandidateFails D f x := by
    push Not at hall
    exact hall
  obtain ⟨hlo, hhi, hnot⟩ := Nat.find_spec hex
  have hfail : ∀ y, p ≤ y → y < Nat.find hex → CandidateFails D f y := fun y hpy hy => by
    by_contra hno
    exact Nat.find_min hex hy ⟨hpy, by omega, hno⟩
  cases hbuf : buffered f (Nat.find hex) with
  | false => exact ⟨_, .wait hlo hhi hfail (.inl hbuf)⟩
  | true =>
    have hvalid : ∃ h1, validAt D f (Nat.find hex) = some h1 ∧ search23 D f (Nat.find hex) h1 ≠ .fail := by
      rw [candidateFails_iff] at hnot
      push Not at hnot
      exact hnot hbuf
    obtain ⟨h1, hvalid, hsearch⟩ := hvalid
    cases hcase : search23 D f (Nat.find hex) h1 with
    | need => exact ⟨_, .wait hlo hhi hfail (.inr ⟨h1, hvalid, hcase⟩)⟩
    | fail => exact absurd hcase hsearch
    | found q => exact ⟨_, .confirm hlo hhi hfail hbuf hvalid hcase⟩

/-- Every raw scan starts at the search position and covers the candidates 1 below `Fmax` (R207). -/
theorem unsyncedStep_verdict (D : ParserDescriptor) (f : FsUnit) :
    ∃ v, ScanDecides D f (f.fmax.toNat - f.scanPos.toNat) f.scanPos.toNat v ∧ unsyncedStep D f = v.outcome f := by
  obtain ⟨v, hv⟩ := exists_scanDecides D f (f.fmax.toNat - f.scanPos.toNat) f.scanPos.toNat
  exact ⟨v, hv, hv.scanFrom_eq⟩

end Scan

/-! ### The step of a synced FS -/

/-- The confirmed stream goes on at offset 0 with the header `h`: it is whole, valid and compares with the confirmed one
(R208). -/
structure StreamGoesOn (D : ParserDescriptor) (f : FsUnit) (h : HeaderInfo) : Prop where
  buffered : buffered f 0 = true
  valid : validAt D f 0 = some h
  compares : D.compare f.hi h = true

/-- The synced FS desyncs (R208): the header at offset 0 is whole, and it does not continue the stream or is a free-format
one with no header in its window. -/
structure Desyncs (D : ParserDescriptor) (f : FsUnit) : Prop where
  buffered : buffered f 0 = true
  mismatch : ∀ h, validAt D f 0 = some h → D.compare f.hi h = true → h.frameSize = 0 ∧ fastFree D f h = .fail

/-- The frame of a stream that goes on with `h` has `len` bytes: its declared size, once they are buffered (R209), or the
distance to the next header (R210). -/
def FrameEndsAt (D : ParserDescriptor) (f : FsUnit) (h : HeaderInfo) (len : Nat) : Prop :=
  (h.frameSize ≠ 0 ∧ len = h.frameSize.toNat ∧ h.frameSize.toNat ≤ f.fill) ∨
    (h.frameSize = 0 ∧ fastFree D f h = .found len)

section Synced
variable {D : ParserDescriptor} {f : FsUnit} {h : HeaderInfo}

theorem fsStep_of_unsynced (hsync : f.sync = false) : fsStep D f = unsyncedStep D f := by
  rw [fsStep, hsync]
  exact if_neg nofun

theorem fsStep_of_synced (hsync : f.sync = true) : fsStep D f = syncedStep D f := by
  rw [fsStep, hsync]
  exact if_pos rfl

/-- The rescan of a desync is the step of the unit that is not synced, at offset 0 (R208). -/
theorem desync_eq_fsStep : desync D f = fsStep D { f with sync := false, scanPos := 0 } := rfl

theorem fsStep_of_short_header (hsync : f.sync = true) (hbuf : buffered f 0 = false) : fsStep D f = .need f := by
  rw [fsStep_of_synced hsync, syncedStep, if_pos hbuf]

theorem StreamGoesOn.fsStep_eq (hon : StreamGoesOn D f h) (hsync : f.sync = true) : fsStep D f = fastPath D f h := by
  rw [fsStep_of_synced hsync, syncedStep]
  simp [hon.buffered, hon.valid, hon.compares]

theorem Desyncs.fsStep_eq (hdesync : Desyncs D f) (hsync : f.sync = true) : fsStep D f = desync D f := by
  rw [fsStep_of_synced hsync, syncedStep]
  cases hvalid : validAt D f 0 with
  | none => simp [hdesync.buffered]
  | some h =>
    cases hcompare : D.compare f.hi h with
    | false => simp [hdesync.buffered, hcompare]
    | true =>
      obtain ⟨hfree, hfail⟩ := hdesync.mismatch h hvalid hcompare
      simp [hdesync.buffered, hcompare, fastPath, hfree, hfail]

theorem fastPath_of_frameEndsAt {len : Nat} (hends : FrameEndsAt D f h len) :
    fastPath D f h = .done (emitSynced len h f) := by
  obtain ⟨hsize, rfl, hle⟩ | ⟨hfree, hfound⟩ := hends
  · rw [fastPath, if_pos hsize, if_pos hle]
  · simp [fastPath, hfree, hfound]

/-- Every step of a synced FS: it desyncs, it needs input and stays as it is, or it emits a frame (R208 to R210). -/
theorem fsStep_synced_cases (D : ParserDescriptor) (hsync : f.sync = true) :
    Desyncs D f ∨ fsStep D f = .need f ∨ ∃ h len, StreamGoesOn D f h ∧ FrameEndsAt D f h len := by
  cases hbuf : buffered f 0 with
  | false => exact .inr (.inl (fsStep_of_short_header hsync hbuf))
  | true =>
    by_cases hon : ∃ h, validAt D f 0 = some h ∧ D.compare f.hi h = true
    case neg => exact .inl ⟨hbuf, fun h hvalid hcompare => absurd ⟨h, hvalid, hcompare⟩ hon⟩
    obtain ⟨h, hvalid, hcompare⟩ := hon
    have hon : StreamGoesOn D f h := ⟨hbuf, hvalid, hcompare⟩
    by_cases hfree : h.frameSize = 0
    · cases hsearch : fastFree D f h with
      | need => exact .inr (.inl (by simp [hon.fsStep_eq hsync, fastPath, hfree, hsearch]))
      | found j => exact .inr (.inr ⟨h, j, hon, .inr ⟨hfree, hsearch⟩⟩)
      | fail =>
        refine .inl ⟨hbuf, fun h' hvalid' _ => ?_⟩
        obtain rfl : h = h' := Option.some.inj (hvalid.symm.trans hvalid')
        exact ⟨hfree, hsearch⟩
    · by_cases hle : h.frameSize.toNat ≤ f.fill
      · exact .inr (.inr ⟨h, _, hon, .inl ⟨hfree, rfl, hle⟩⟩)
      · exact .inr (.inl (by rw [hon.fsStep_eq hsync, fastPath, if_pos hfree, if_neg hle]))

end Synced
end Sys2Proof.Machine

/-!
PROOFS. Bytes that come later (spec/43_frame_sync.md R203, R214).
-/
namespace Sys2Proof.Machine

/-! ### More bytes behind those buffered -/

/-- `g` has the sizes of `f` and holds the bytes of `f`, perhaps with more behind them. -/
structure FsUnit.Extends (f g : FsUnit) : Prop where
  h : g.h = f.h
  fmin : g.fmin = f.fmin
  fmax : g.fmax = f.fmax
  arena : ∃ bs, g.arena = f.arena ++ bs

section Extends
variable {D : ParserDescriptor} {f g : FsUnit}

theorem FsUnit.extends_more (f : FsUnit) (bs : List Byte) : f.Extends (f.more bs) := ⟨rfl, rfl, rfl, bs, rfl⟩

theorem FsUnit.extends_of_eq (hh : g.h = f.h) (hmin : g.fmin = f.fmin) (hmax : g.fmax = f.fmax)
    (harena : g.arena = f.arena) : f.Extends g := ⟨hh, hmin, hmax, [], by rw [harena, List.append_nil]⟩

/-- What is buffered stays buffered. -/
theorem FsUnit.Extends.buffered_mono (hfg : f.Extends g) {i : Nat} (hbuf : buffered f i = true) : buffered g i = true := by
  obtain ⟨bs, harena⟩ := hfg.arena
  rw [buffered_iff] at hbuf ⊢
  simp only [FsUnit.fill, harena, hfg.h, List.length_append] at hbuf ⊢
  omega

/-- A buffered probe reads the same bytes (R203). -/
theorem FsUnit.Extends.probe_eq (hfg : f.Extends g) {i : Nat} (hbuf : buffered f i = true) :
    probe D g i = probe D f i := by
  obtain ⟨bs, harena⟩ := hfg.arena
  rw [buffered_iff, FsUnit.fill] at hbuf
  have hlen : f.h.toNat ≤ (f.arena.drop i).length := by
    rw [List.length_drop]
    omega
  rw [probe, probe, harena, hfg.h, List.drop_append_of_le_length (by omega),
    List.take_append_of_le_length hlen]

theorem FsUnit.Extends.validAt_eq (hfg : f.Extends g) {i : Nat} (hbuf : buffered f i = true) :
    validAt D g i = validAt D f i := by
  have hrejected (h : HeaderInfo) : sizeRejected g h = sizeRejected f h := by
    simp only [sizeRejected, hfg.fmin, hfg.fmax]
  exact Option.ext fun h => by rw [validAt_eq_some, validAt_eq_some, hfg.probe_eq hbuf, hrejected]

theorem FsUnit.Extends.win_eq (hfg : f.Extends g) (i : Nat) (h : HeaderInfo) : win g i h = win f i h := by
  simp only [win, winLo, winHi, hfg.fmin, hfg.fmax]

theorem FsUnit.Extends.win3_eq (hfg : f.Extends g) (p q : Nat) (h : HeaderInfo) : win3 g p q h = win3 f p q h := by
  simp only [win3, hfg.win_eq]

/-- A search for candidate 3 that does not need input does not see bytes that come later (R203). -/
theorem FsUnit.Extends.search3_eq (hfg : f.Extends g) {h1 h2 : HeaderInfo} {l : List Nat}
    (hdone : search3 D f h1 h2 l ≠ .need) : search3 D g h1 h2 l = search3 D f h1 h2 l := by
  induction l with
  | nil => rfl
  | cons r rs ih =>
    rw [search3] at hdone
    cases hbuf : buffered f r with
    | false => simp [hbuf] at hdone
    | true =>
      rw [search3, search3, hfg.buffered_mono hbuf, hfg.validAt_eq hbuf, hbuf]
      cases hvalid : validAt D f r with
      | none => exact ih (by simpa [hbuf, hvalid] using hdone)
      | some h3 =>
        cases hcompare : D.compare h1 h3 && D.compare h2 h3 with
        | true => simp [hcompare]
        | false => simpa [hcompare] using ih (by simpa [hbuf, hvalid, hcompare] using hdone)

/-- Nor does one for candidate 2. -/
theorem FsUnit.Extends.search2_eq (hfg : f.Extends g) {p : Nat} {h1 : HeaderInfo} {l : List Nat}
    (hdone : search2 D f p h1 l ≠ .need) : search2 D g p h1 l = search2 D f p h1 l := by
  induction l with
  | nil => rfl
  | cons q qs ih =>
    rw [search2] at hdone
    cases hbuf : buffered f q with
    | false => simp [hbuf] at hdone
    | true =>
      rw [search2, search2, hfg.buffered_mono hbuf, hfg.validAt_eq hbuf, hbuf]
      cases hvalid : validAt D f q with
      | none => exact ih (by simpa [hbuf, hvalid] using hdone)
      | some h2 =>
        cases hcompare : D.compare h1 h2 with
        | false => simpa [hcompare] using ih (by simpa [hbuf, hvalid, hcompare] using hdone)
        | true =>
          have hthird : search3 D f h1 h2 (win3 f p q h2) ≠ .need := fun hneed => by
            simp [hbuf, hvalid, hcompare, hneed] at hdone
          simp only [hfg.win3_eq, hfg.search3_eq hthird]
          cases hsearch : search3 D f h1 h2 (win3 f p q h2) with
          | need => exact absurd hsearch hthird
          | found => simp [hcompare]
          | fail => simpa [hcompare] using ih (by simpa [hbuf, hvalid, hcompare, hsearch] using hdone)

theorem FsUnit.Extends.search23_eq (hfg : f.Extends g) {p : Nat} {h1 : HeaderInfo} (hdone : search23 D f p h1 ≠ .need) :
    search23 D g p h1 = search23 D f p h1 := by
  rw [search23, search23, hfg.win_eq]
  exact hfg.search2_eq hdone

/-- Nor does the search for the next free-format header. -/
theorem FsUnit.Extends.searchNext_eq (hfg : f.Extends g) {h : HeaderInfo} {l : List Nat}
    (hdone : searchNext D f h l ≠ .need) : searchNext D g h l = searchNext D f h l := by
  induction l with
  | nil => rfl
  | cons j js ih =>
    rw [searchNext] at hdone
    cases hbuf : buffered f j with
    | false => simp [hbuf] at hdone
    | true =>
      rw [searchNext, searchNext, hfg.buffered_mono hbuf, hfg.validAt_eq hbuf, hbuf]
      cases hvalid : validAt D f j with
      | none => exact ih (by simpa [hbuf, hvalid] using hdone)
      | some h' =>
        cases hcompare : D.compare h h' with
        | true => simp [hcompare]
        | false => simpa [hcompare] using ih (by simpa [hbuf, hvalid, hcompare] using hdone)

theorem FsUnit.Extends.fastFree_eq (hfg : f.Extends g) (hlast : g.lastLen = f.lastLen) {h : HeaderInfo}
    (hdone : fastFree D f h ≠ .need) : fastFree D g h = fastFree D f h := by
  rw [fastFree, fastFree, hfg.win_eq, hlast]
  exact hfg.searchNext_eq hdone

/-- Between units that hold the same bytes a search that cannot tell later bytes answers the same, need included. -/
theorem search_eq_of_same_bytes {α : Type} {S : FsUnit → Search α} (hfg : S f ≠ .need → S g = S f)
    (hgf : S g ≠ .need → S f = S g) : S g = S f := by
  by_cases hf : S f = .need
  · by_contra hne
    exact hne (hgf fun hg => hne (hg.trans hf.symm)).symm
  · exact hfg hf

/-! ### The scan -/

/-- A candidate 1 that has failed stays failed (R203). -/
theorem FsUnit.Extends.candidateFails (hfg : f.Extends g) {x : Nat} (h : CandidateFails D f x) : CandidateFails D g x := by
  rw [candidateFails_iff] at h ⊢
  obtain ⟨hbuf, hfail⟩ := h
  refine ⟨hfg.buffered_mono hbuf, fun h1 hvalid => ?_⟩
  rw [hfg.validAt_eq hbuf] at hvalid
  rw [hfg.search23_eq (by rw [hfail h1 hvalid]; nofun), hfail h1 hvalid]

/-- A candidate 1 waits for input in every unit that holds the same bytes. -/
theorem FsUnit.Extends.candidateWaits (hfg : f.Extends g) (hgf : g.Extends f) {x : Nat} (h : CandidateWaits D f x) :
    CandidateWaits D g x := by
  obtain hbuf | ⟨h1, hvalid, hneed⟩ := h
  · left
    by_contra hno
    rw [Bool.not_eq_false] at hno
    exact absurd (hgf.buffered_mono hno) (by simp [hbuf])
  · cases hbuf : buffered g x with
    | false => exact .inl hbuf
    | true =>
      refine .inr ⟨h1, by rw [← hgf.validAt_eq hbuf]; exact hvalid, ?_⟩
      rw [search_eq_of_same_bytes (S := fun u => search23 D u x h1) hfg.search23_eq hgf.search23_eq]
      exact hneed

/-- A verdict on an output stands whatever comes later, and one of need stands for the same bytes (R203, R214). -/
theorem FsUnit.Extends.scanDecides (hfg : f.Extends g) {left p : Nat} {v : ScanVerdict}
    (hgf : ∀ x, v = .wait x → g.Extends f) (h : ScanDecides D f left p v) : ScanDecides D g left p v := by
  cases h with
  | debris hfail => exact .debris fun x h1 h2 => hfg.candidateFails (hfail x h1 h2)
  | confirm hlo hhi hfail hbuf hvalid hfound =>
    refine .confirm hlo hhi (fun y h1 h2 => hfg.candidateFails (hfail y h1 h2)) (hfg.buffered_mono hbuf) ?_ ?_
    · rw [hfg.validAt_eq hbuf, hvalid]
    · rw [hfg.search23_eq (by rw [hfound]; nofun), hfound]
  | wait hlo hhi hfail hwait =>
    exact .wait hlo hhi (fun y h1 h2 => hfg.candidateFails (hfail y h1 h2)) (hfg.candidateWaits (hgf _ rfl) hwait)

/-- A scan that has made an output makes the same one with more bytes behind (R203). -/
theorem unsyncedStep_more (bs : List Byte) (h : unsyncedStep D f = .done g) :
    unsyncedStep D (f.more bs) = .done (g.more bs) := by
  obtain ⟨v, hv, hstep⟩ := unsyncedStep_verdict D f
  rw [hstep] at h
  cases v with
  | wait x => cases h
  | debris =>
    cases h
    exact ((f.extends_more bs).scanDecides (fun _ hwait => by cases hwait) hv).scanFrom_eq
  | confirm x h1 q =>
    cases h
    exact ((f.extends_more bs).scanDecides (fun _ hwait => by cases hwait) hv).scanFrom_eq

/-! ### The synced step -/

theorem StreamGoesOn.more {h : HeaderInfo} (hon : StreamGoesOn D f h) (bs : List Byte) : StreamGoesOn D (f.more bs) h where
  buffered := (f.extends_more bs).buffered_mono hon.buffered
  valid := by rw [(f.extends_more bs).validAt_eq hon.buffered, hon.valid]
  compares := hon.compares

theorem FrameEndsAt.more {h : HeaderInfo} {len : Nat} (hends : FrameEndsAt D f h len) (bs : List Byte) :
    FrameEndsAt D (f.more bs) h len := by
  obtain ⟨hsize, rfl, hle⟩ | ⟨hfree, hfound⟩ := hends
  · refine .inl ⟨hsize, rfl, Nat.le_trans hle ?_⟩
    simp [FsUnit.fill, FsUnit.more]
  · exact .inr ⟨hfree, by rw [(f.extends_more bs).fastFree_eq rfl (by rw [hfound]; nofun), hfound]⟩

theorem Desyncs.more (hdesync : Desyncs D f) (bs : List Byte) : Desyncs D (f.more bs) where
  buffered := (f.extends_more bs).buffered_mono hdesync.buffered
  mismatch h hvalid hcompare := by
    rw [(f.extends_more bs).validAt_eq hdesync.buffered] at hvalid
    obtain ⟨hfree, hfail⟩ := hdesync.mismatch h hvalid hcompare
    exact ⟨hfree, by rw [(f.extends_more bs).fastFree_eq rfl (by rw [hfail]; nofun), hfail]⟩

/-- A step that has made an output makes the same one with more bytes behind (R203, R214). -/
theorem fsStep_more (bs : List Byte) (h : fsStep D f = .done g) : fsStep D (f.more bs) = .done (g.more bs) := by
  cases hsync : f.sync with
  | false =>
    rw [fsStep_of_unsynced hsync] at h
    rw [fsStep_of_unsynced (f := f.more bs) hsync]
    exact unsyncedStep_more bs h
  | true =>
    have hsync' : (f.more bs).sync = true := hsync
    obtain hdesync | hneed | ⟨h0, len, hon, hends⟩ := fsStep_synced_cases D hsync
    · rw [hdesync.fsStep_eq hsync] at h
      rw [(hdesync.more bs).fsStep_eq hsync']
      exact unsyncedStep_more bs h
    · rw [hneed] at h
      cases h
    · rw [hon.fsStep_eq hsync, fastPath_of_frameEndsAt hends] at h
      cases h
      rw [(hon.more bs).fsStep_eq hsync', fastPath_of_frameEndsAt (hends.more bs)]
      rfl

/-! ### A step taken up again -/

/-- No verdict of the scan reads the search position. -/
theorem ScanVerdict.outcome_scanPos (v : ScanVerdict) (f : FsUnit) (w : Word) :
    v.outcome { f with scanPos := w } = v.outcome f := by
  cases v <;> rfl

/-- The candidates 1 a scan that needs input has passed have failed and stay so: with more bytes it goes on where it
stopped as it would from its start (R203, R214). -/
theorem unsyncedStep_resumes (bs : List Byte) (h : unsyncedStep D f = .need g) :
    unsyncedStep D (g.more bs) = unsyncedStep D (f.more bs) ∧ g.sync = f.sync := by
  obtain ⟨v, hv, hstep⟩ := unsyncedStep_verdict D f
  rw [hstep] at h
  cases hv with
  | debris | confirm => cases h
  | @wait x hlo hhi hfail hwait =>
    cases h
    refine ⟨?_, rfl⟩
    have hx : (toWord x).toNat = x := by
      have := f.fmax.isLt
      exact Nat.mod_eq_of_lt (by omega)
    obtain ⟨w, hw⟩ := exists_scanDecides D (f.more bs) (f.fmax.toNat - x) x
    have hmore : (f.more bs).Extends ({ f with scanPos := toWord x }.more bs) := FsUnit.extends_of_eq rfl rfl rfl rfl
    have hback : ({ f with scanPos := toWord x }.more bs).Extends (f.more bs) := FsUnit.extends_of_eq rfl rfl rfl rfl
    calc unsyncedStep D ({ f with scanPos := toWord x }.more bs)
        = scanFrom D ({ f with scanPos := toWord x }.more bs) (f.fmax.toNat - x) x := by
          rw [unsyncedStep]
          simp only [FsUnit.more, hx]
      _ = w.outcome (f.more bs) :=
          (hmore.scanDecides (fun _ _ => hback) hw).scanFrom_eq.trans (w.outcome_scanPos (f.more bs) (toWord x))
      _ = scanFrom D (f.more bs) (f.fmax.toNat - x) x := hw.scanFrom_eq.symm
      _ = unsyncedStep D (f.more bs) := by
          have hreach := scanFrom_reaches (D := D) (f := f.more bs) hlo hhi
            fun y h1 h2 => (f.extends_more bs).candidateFails (hfail y h1 h2)
          rw [show f.scanPos.toNat + (f.fmax.toNat - f.scanPos.toNat) - x = f.fmax.toNat - x by omega] at hreach
          exact hreach.symm

/-- A step that needs input, taken up again with more bytes, ends as one step on all the bytes (R203, R214). -/
theorem fsStep_resumes (bs : List Byte) (h : fsStep D f = .need g) : fsStep D (g.more bs) = fsStep D (f.more bs) := by
  cases hsync : f.sync with
  | false =>
    rw [fsStep_of_unsynced hsync] at h
    obtain ⟨hstep, hkeep⟩ := unsyncedStep_resumes bs h
    rwa [fsStep_of_unsynced (f := g.more bs) (hkeep.trans hsync), fsStep_of_unsynced (f := f.more bs) hsync]
  | true =>
    have hsync' : (f.more bs).sync = true := hsync
    obtain hdesync | hneed | ⟨h0, len, hon, hends⟩ := fsStep_synced_cases D hsync
    · rw [hdesync.fsStep_eq hsync] at h
      obtain ⟨hstep, hkeep⟩ := unsyncedStep_resumes bs h
      rw [fsStep_of_unsynced (f := g.more bs) hkeep, (hdesync.more bs).fsStep_eq hsync', hstep]
      rfl
    · rw [hneed] at h
      cases h
      rfl
    · rw [hon.fsStep_eq hsync, fastPath_of_frameEndsAt hends] at h
      cases h

/-! ### The fields the search does not read -/

/-- The unit with another result, generation and input cursor. -/
def FsUnit.stamped (r : FsResult) (n p e : Word) (f : FsUnit) : FsUnit :=
  { f with result := r, gen := n, inPtr := p, inEnd := e }

/-- The outcome on a unit with another result, generation and input cursor: an output has a result of its own. -/
def FsOutcome.stamped (r : FsResult) (n p e : Word) : FsOutcome → FsOutcome
  | .need f => .need (f.stamped r n p e)
  | .done f => .done (f.stamped f.result n p e)

variable (r : FsResult) (n a e : Word)

theorem FsUnit.extends_stamped (f : FsUnit) : f.Extends (f.stamped r n a e) := extends_of_eq rfl rfl rfl rfl

theorem FsUnit.stamped_extends (f : FsUnit) : (f.stamped r n a e).Extends f := extends_of_eq rfl rfl rfl rfl

theorem ScanVerdict.outcome_stamped (v : ScanVerdict) (f : FsUnit) :
    v.outcome (f.stamped r n a e) = (v.outcome f).stamped r n a e := by
  cases v <;> rfl

theorem unsyncedStep_stamped (f : FsUnit) :
    unsyncedStep D (f.stamped r n a e) = (unsyncedStep D f).stamped r n a e := by
  obtain ⟨v, hv, hstep⟩ := unsyncedStep_verdict D f
  rw [hstep, ← v.outcome_stamped]
  exact ((f.extends_stamped r n a e).scanDecides (fun _ _ => f.stamped_extends r n a e) hv).scanFrom_eq

theorem fastFree_stamped (f : FsUnit) (h : HeaderInfo) : fastFree D (f.stamped r n a e) h = fastFree D f h :=
  search_eq_of_same_bytes (S := fun u => fastFree D u h) ((f.extends_stamped r n a e).fastFree_eq rfl)
    ((f.stamped_extends r n a e).fastFree_eq rfl)

/-- The step reads neither the result nor the generation nor the input cursor (R207 to R212). -/
theorem fsStep_stamped (f : FsUnit) : fsStep D (f.stamped r n a e) = (fsStep D f).stamped r n a e := by
  have hdesync : desync D (f.stamped r n a e) = (desync D f).stamped r n a e :=
    unsyncedStep_stamped r n a e { f with sync := false, scanPos := 0 }
  have hpath (h : HeaderInfo) : fastPath D (f.stamped r n a e) h = (fastPath D f h).stamped r n a e := by
    rw [fastPath, fastPath, fastFree_stamped, hdesync, show (f.stamped r n a e).fill = f.fill from rfl]
    split_ifs
    · rfl
    · rfl
    · cases fastFree D f h <;> rfl
  cases hsync : f.sync with
  | false =>
    rw [fsStep_of_unsynced hsync, fsStep_of_unsynced (f := f.stamped r n a e) hsync, unsyncedStep_stamped]
  | true =>
    rw [fsStep_of_synced hsync, fsStep_of_synced (f := f.stamped r n a e) hsync, syncedStep, syncedStep,
      show buffered (f.stamped r n a e) 0 = buffered f 0 from rfl,
      show validAt D (f.stamped r n a e) 0 = validAt D f 0 from rfl, hdesync]
    split_ifs
    · rfl
    · cases validAt D f 0 with
      | none => rfl
      | some h =>
        simp only [hpath, show (f.stamped r n a e).hi = f.hi from rfl]
        split_ifs <;> rfl

end Extends
end Sys2Proof.Machine

/-!
PROOFS. The commands of the FS (spec/43_frame_sync.md R191 to R194, R204 to R206, R213).
-/
namespace Sys2Proof.Machine

/-! ### The outputs as the claims write them -/

theorem viewAt_zero (w : Word) : viewAt 0 w.toNat = ⟨0, w⟩ := by
  rw [viewAt, toWord_toNat]
  rfl

theorem emitDebris_eq (f : FsUnit) :
    emitDebris f =
      { f with debris := ⟨0, f.fmax⟩, frame := ⟨0, 0⟩, result := .debris, consumed := f.fmax, scanPos := 0 } := by
  rw [emitDebris, viewAt_zero]
  rfl

/-- An output is a frame or a debris (R33). -/
theorem FsUnit.Output.result_ne {D : ParserDescriptor} {f g : FsUnit} (h : f.Output D g) : g.result ≠ .noOutput := by
  cases h <;> nofun

/-- A step that needs input leaves the last output, the counter and the confirmed header as they were (R203). -/
theorem FsUnit.Waiting.output_kept {f g : FsUnit} (h : f.Waiting g) :
    g.debris = f.debris ∧ g.frame = f.frame ∧ g.consumed = f.consumed ∧ g.count = f.count ∧ g.hi = f.hi ∧
      g.hiValid = f.hiValid := by
  cases h with
  | scanning hscan => cases hscan <;> exact ⟨rfl, rfl, rfl, rfl, rfl, rfl⟩
  | synced => exact ⟨rfl, rfl, rfl, rfl, rfl, rfl⟩

/-! ### FS_FLUSH and FS_LOAD -/

section Commands
variable {s t : State}

/-- The output of a flush, by whether anything is left (R194). -/
theorem flushOutput_eq (f : FsUnit) :
    flushOutput f =
      { f with
        debris := if f.arena = [] then ⟨0, 0⟩ else ⟨0, toWord f.arena.length⟩
        frame := ⟨0, 0⟩
        result := if f.arena = [] then .noOutput else .debris
        consumed := if f.arena = [] then f.consumed else toWord f.arena.length } := by
  by_cases hempty : f.arena = []
  · have hfill : ¬0 < f.fill := by simp [FsUnit.fill, hempty]
    rw [flushOutput, if_neg hfill, if_pos hempty, if_pos hempty, if_pos hempty]
    rfl
  · have hfill : 0 < f.fill := List.length_pos_iff.2 hempty
    rw [flushOutput, if_pos hfill, if_neg hempty, if_neg hempty, if_neg hempty]
    rfl

/-- FS_LOAD where its checks pass (R193). -/
theorem exec_fsLoad_of_checks (hbound : s.fs.bound = true) (hin : s.fs.inPtr.toNat ≤ s.fs.inEnd.toNat)
    (hclear : ∀ a, s.fs.inPtr.toNat ≤ a → a < s.fs.inEnd.toNat → s.bw.isPending a = false) :
    exec .fsLoad s =
      .next (afterFsStep (loadStep (Config.platform.parsers s.fs.parser.toNat) s.mem s.fs) s) := by
  have hpending : s.bw.pendingIn s.fs.inPtr.toNat s.fs.inEnd.toNat = false := pendingIn_eq_false.2 hclear
  have hload : exec .fsLoad s = fsLoadOn Config.platform s := rfl
  rw [hload, fsLoadOn, if_neg (by simp [hbound]), if_neg (by omega), if_neg (by simp [hpending])]

/-- FS_LOAD that is not turned away takes a step on what it has buffered (R193). -/
theorem exec_fsLoad_of_not_failed (h : exec .fsLoad s = .next t) (hok : t.status.isFailure = false) :
    s.fs.bound = true ∧ s.fs.inPtr.toNat ≤ s.fs.inEnd.toNat ∧
      t = afterFsStep (loadStep (Config.platform.parsers s.fs.parser.toNat) s.mem s.fs) s := by
  obtain ⟨e, rfl, hfail⟩ | ⟨hbound, hin, -, ht⟩ := fsLoadOn_eq_next h
  · exact absurd hfail (by simp [show e.isFailure = false from hok])
  · exact ⟨hbound, hin, ht⟩

/-- The state such a load leaves, from what its drop, top-up and step come to with the bound parser `D`. -/
theorem exec_fsLoad_outcome {D : ParserDescriptor} {o : FsOutcome} (h : exec .fsLoad s = .next t)
    (hok : t.status.isFailure = false) (hparser : Config.platform.parsers s.fs.parser.toNat = D)
    (hload : loadStep D s.mem s.fs = o) : t = afterFsStep o s := by
  obtain ⟨-, -, ht⟩ := exec_fsLoad_of_not_failed h hok
  rw [ht, hparser, hload]

/-- An FS_LOAD that ends with `NEED_INPUT` took a step that needs input (R193). -/
theorem exec_fsLoad_of_needInput (h : exec .fsLoad s = .next t) (hneed : t.status = .needInput) :
    s.fs.bound = true ∧ s.fs.inPtr.toNat ≤ s.fs.inEnd.toNat ∧
      ∃ g, loadStep (Config.platform.parsers s.fs.parser.toNat) s.mem s.fs = .need g ∧
        t = { s with fs := bumpGen { g with result := .noOutput }, status := .needInput } := by
  obtain ⟨hbound, hin, ht⟩ := exec_fsLoad_of_not_failed h (by rw [hneed]; rfl)
  refine ⟨hbound, hin, ?_⟩
  cases hstep : loadStep (Config.platform.parsers s.fs.parser.toNat) s.mem s.fs with
  | need g => exact ⟨g, rfl, by rw [ht, hstep]; rfl⟩
  | done g =>
    rw [ht, hstep] at hneed
    cases hneed

/-- What a load has buffered when it takes its step (R205, R206). -/
theorem topUp_dropOutput_eq (m : Memory) (f : FsUnit) :
    let kept := f.arena.drop f.consumed.toNat
    let k := min (f.cap.toNat - kept.length) (f.inEnd.toNat - f.inPtr.toNat)
    topUp m (dropOutput f) =
      { f with
        arena := kept ++ (List.range k).map fun i => memByte m (f.inPtr.toNat + i)
        inPtr := f.inPtr + toWord k, consumed := 0, debris := ⟨0, 0⟩, frame := ⟨0, 0⟩ } := by
  rw [topUp, dropOutput_inPtr, toWord_toNat_add]
  rfl

end Commands

/-! ### The full arena -/

section Full
variable {D : ParserDescriptor} {f g : FsUnit}

/-- A candidate behind a valid header lies at most `Fmax` behind it (R197). -/
theorem le_of_mem_win {i x : Nat} {h : HeaderInfo} (hvalid : validAt D f i = some h) {p : Nat} (hx : x ∈ win f p h) :
    x ≤ p + f.fmax.toNat := by
  have hhi := winHi_le ((validAt_size hvalid).imp_right And.right)
  have := (mem_win.1 hx).2
  omega

/-- With the arena full, every candidate of a scan is buffered: three frames and a header fit (R31, R213). -/
theorem not_candidateWaits_of_full (hsizes : f.SizesGood) (hfull : f.fill = f.cap.toNat) {x : Nat}
    (hx : x < f.fmax.toNat) : ¬CandidateWaits D f x := by
  have hcap := hsizes.cap_eq
  rintro (hshort | ⟨h1, hvalid, hneed⟩)
  · rw [buffered_eq_false_iff] at hshort
    omega
  · obtain ⟨q, hq, hrest⟩ := search2_need hneed
    have hqle := le_of_mem_win hvalid hq
    obtain hshort | ⟨h2, hvalid2, r, hr, hshort⟩ := hrest
    · rw [buffered_eq_false_iff] at hshort
      omega
    · have hrle := le_of_mem_win hvalid2 hr
      rw [buffered_eq_false_iff] at hshort
      omega

/-- With the arena full every step ends in an output (R213). -/
theorem fsStep_of_full (hsizes : f.SizesGood) (hfull : f.fill = f.cap.toNat) : ∃ g, fsStep D f = .done g := by
  cases hstep : fsStep D f with
  | done g => exact ⟨g, rfl⟩
  | need g =>
    exfalso
    have hcap := hsizes.cap_eq
    obtain ⟨u, hu, hneed⟩ | ⟨-, -, hshort | ⟨h0, hvalid, ⟨-, hshort⟩ | ⟨-, hsearch⟩⟩⟩ := fsStep_need hstep
    · obtain ⟨husizes, hufull⟩ : u.SizesGood ∧ u.fill = u.cap.toNat := by
        obtain ⟨rfl, -⟩ | ⟨rfl, -⟩ := hu
        · exact ⟨hsizes, hfull⟩
        · exact ⟨{ hsizes with scan_lt := hsizes.fmax_pos }, hfull⟩
      obtain ⟨x, -, hx, -, hwait⟩ := scanFrom_need hneed
      have hscan := husizes.scan_lt
      exact not_candidateWaits_of_full husizes hufull (by omega) hwait
    · rw [buffered_eq_false_iff] at hshort
      omega
    · obtain hzero | hsize := validAt_size hvalid
      · rw [hzero] at hshort
        exact Nat.not_lt_zero _ hshort
      · omega
    · obtain ⟨j, hj, hshort⟩ := searchNext_need hsearch
      have hjle := le_of_mem_win hvalid (mem_tryFirst.1 hj)
      rw [buffered_eq_false_iff] at hshort
      omega

/-- A step needs input only behind a top-up that took all the input there was (R206, R213). -/
theorem topUpCount_of_need (hf : f.Dropped) {m : Memory} (hneed : fsStep D (topUp m f) = .need g) :
    topUpCount f = f.inEnd.toNat - f.inPtr.toNat := by
  by_contra hcount
  have hfull : (topUp m f).fill = (topUp m f).cap.toNat := by
    have hle := hf.fill_le
    simp only [topUpCount] at hcount
    simp only [FsUnit.fill, topUp_arena, topUp_cap, List.length_append, memRead_length, topUpCount] at hle hcount ⊢
    omega
  obtain ⟨g', hdone⟩ := fsStep_of_full (D := D) (hf.topUp m).sizes hfull
  rw [hneed] at hdone
  cases hdone

end Full

/-! ### Input in two parts -/

section Parts
variable {f g : FsUnit}

/-- The bytes the next top-up takes where the input ends at `e` (R206). -/
def FsUnit.nextInput (m : Memory) (e : Word) (f : FsUnit) : List Byte :=
  memRead m f.inPtr.toNat (topUpCount { f with inEnd := e })

/-- Where it leaves the input cursor. -/
def FsUnit.nextPtr (e : Word) (f : FsUnit) : Word := toWord (f.inPtr.toNat + topUpCount { f with inEnd := e })

theorem topUp_eq_stamped (m : Memory) (e : Word) (f : FsUnit) :
    topUp m { f with inEnd := e } = (f.more (f.nextInput m e)).stamped f.result f.gen (f.nextPtr e) e := rfl

theorem nextInput_eq_of_sameInput (h : f.SameInput g) (m : Memory) (e : Word) :
    g.nextInput m e = f.nextInput m e ∧ g.nextPtr e = f.nextPtr e := by
  have hcount : topUpCount { g with inEnd := e } = topUpCount { f with inEnd := e } := by
    simp only [topUpCount, FsUnit.fill, h.cap, h.arena, h.inPtr]
  rw [FsUnit.nextInput, FsUnit.nextInput, FsUnit.nextPtr, FsUnit.nextPtr, hcount, h.inPtr]
  exact ⟨rfl, rfl⟩

/-- A top-up in two parts, the first of which took all its input, is one top-up (R206). -/
theorem topUp_in_two_parts (m : Memory) (mid : Word) (hlo : f.inPtr.toNat ≤ mid.toNat) (hhi : mid.toNat ≤ f.inEnd.toNat)
    (hall : topUpCount { f with inEnd := mid } = mid.toNat - f.inPtr.toNat) :
    topUp m { topUp m { f with inEnd := mid } with inEnd := f.inEnd } = topUp m f := by
  have hptr : (topUp m { f with inEnd := mid }).inPtr = mid := by
    rw [topUp_inPtr, hall]
    simp only [Nat.add_sub_cancel' hlo, toWord_toNat]
  have hrest : topUpCount f = topUpCount { f with inEnd := mid } +
      topUpCount { topUp m { f with inEnd := mid } with inEnd := f.inEnd } := by
    simp only [topUpCount, FsUnit.fill] at hall
    simp only [topUpCount, FsUnit.fill, hptr, topUp_arena, topUp_cap, List.length_append, memRead_length]
    omega
  have hmid : f.inPtr.toNat + topUpCount { f with inEnd := mid } = mid.toNat := by omega
  have harena : (topUp m { topUp m { f with inEnd := mid } with inEnd := f.inEnd }).arena = (topUp m f).arena := by
    rw [topUp_arena, topUp_arena m f, hrest, memRead_add, hmid, ← List.append_assoc]
    simp only [hptr]
    rfl
  have hend : (topUp m { topUp m { f with inEnd := mid } with inEnd := f.inEnd }).inPtr = (topUp m f).inPtr := by
    rw [topUp_inPtr, topUp_inPtr m f, hrest, ← Nat.add_assoc, hmid]
    simp only [hptr]
  calc topUp m { topUp m { f with inEnd := mid } with inEnd := f.inEnd }
      = { topUp m f with
          arena := (topUp m { topUp m { f with inEnd := mid } with inEnd := f.inEnd }).arena
          inPtr := (topUp m { topUp m { f with inEnd := mid } with inEnd := f.inEnd }).inPtr } := rfl
    _ = topUp m f := by rw [harena, hend]

/-- A load behind one that needed input has nothing to drop (R203, R205). -/
theorem topUp_dropOutput_of_empty (m : Memory) (e : Word) (hconsumed : g.consumed = 0) (hdebris : g.debris = View.empty)
    (hframe : g.frame = View.empty) :
    topUp m (dropOutput { bumpGen { g with result := .noOutput } with inEnd := e }) =
      (g.more (g.nextInput m e)).stamped .noOutput (g.gen + 1) (g.nextPtr e) e := by
  have hdrop : dropOutput { bumpGen { g with result := .noOutput } with inEnd := e } =
      { g with result := .noOutput, gen := g.gen + 1, inEnd := e } := by
    cases g
    simp only at hconsumed hdebris hframe
    subst hconsumed hdebris hframe
    rfl
  rw [hdrop]
  rfl

/-- A load that needs input and the load of the rest come to the outcome of one load of the whole, but for the fields the
search does not read (R203, R214). -/
theorem loadStep_in_two_parts {D : ParserDescriptor} {m : Memory} {mid : Word} (hf : f.Good) (hbound : f.bound = true)
    (hlo : f.inPtr.toNat ≤ mid.toNat) (hhi : mid.toNat ≤ f.inEnd.toNat)
    (hneed : loadStep D m { f with inEnd := mid } = .need g) :
    ∃ o p, loadStep D m f = FsOutcome.stamped f.result f.gen p f.inEnd o ∧
      loadStep D m { bumpGen { g with result := .noOutput } with inEnd := f.inEnd } =
        o.stamped .noOutput (f.gen + 1) p f.inEnd := by
  have hall := topUpCount_of_need ((hf.withCursor f.gen f.inPtr mid).dropped hbound) hneed
  have hwhole := topUp_in_two_parts (f := dropOutput f) m mid hlo hhi hall
  obtain ⟨u, hu⟩ : ∃ u, u = topUp m { dropOutput f with inEnd := mid } := ⟨_, rfl⟩
  have hneed : fsStep D u = .need g := by
    rw [hu]
    exact hneed
  have hwait := fsStep_waiting hneed
  have hsame := hwait.sameInput
  obtain ⟨hdebris, hframe, hconsumed, -⟩ := hwait.output_kept
  obtain ⟨hinput, hptr⟩ := nextInput_eq_of_sameInput hsame m f.inEnd
  have hrest := topUp_dropOutput_of_empty (g := g) m f.inEnd (by rw [hconsumed, hu]; rfl) (by rw [hdebris, hu]; rfl)
    (by rw [hframe, hu]; rfl)
  have hgen : g.gen = f.gen := by rw [hsame.gen, hu]; rfl
  refine ⟨fsStep D (u.more (u.nextInput m f.inEnd)), u.nextPtr f.inEnd, ?_, ?_⟩
  · calc loadStep D m f
        = fsStep D (topUp m { u with inEnd := f.inEnd }) := by rw [hu]; exact congrArg (fsStep D) hwhole.symm
      _ = (fsStep D (u.more (u.nextInput m f.inEnd))).stamped u.result u.gen (u.nextPtr f.inEnd) f.inEnd := by
          rw [topUp_eq_stamped, fsStep_stamped]
      _ = (fsStep D (u.more (u.nextInput m f.inEnd))).stamped f.result f.gen (u.nextPtr f.inEnd) f.inEnd := by
          rw [show u.result = f.result by rw [hu]; rfl, show u.gen = f.gen by rw [hu]; rfl]
  · rw [loadStep, hrest, fsStep_stamped, hinput, hptr, hgen, fsStep_resumes _ hneed]

/-- Behind a step that needed input, the load of the rest differs from the load of the whole in the generation only. -/
theorem afterFsStep_stamped (o : FsOutcome) (r : FsResult) (n p e : Word) (s : State) (u : FsUnit) (st : Status) :
    let whole := afterFsStep (o.stamped r n p e) s
    afterFsStep (o.stamped .noOutput (n + 1) p e) { s with fs := u, status := st } =
      { whole with fs := { whole.fs with gen := whole.fs.gen + 1 } } := by
  cases o <;> rfl

end Parts
end Sys2Proof.Machine

/-!
PROOFS. The debris of a scan and the answers of a search (spec/43_frame_sync.md R197 to R201, R207).
-/
namespace Sys2Proof.Machine

/-! ### Debris -/

section Debris
variable {D : ParserDescriptor} {f g u : FsUnit}

/-- Where the raw scan starts: at the search position, or at offset 0 behind a desync (R207, R208). -/
def FsUnit.scanStart (f : FsUnit) : Nat := if f.sync then 0 else f.scanPos.toNat

theorem FsUnit.SizesGood.scanStart_lt (h : f.SizesGood) : f.scanStart < f.fmax.toNat := by
  unfold FsUnit.scanStart
  split
  · exact h.fmax_pos
  · exact h.scan_lt

theorem scanned_start
    (hu : u = f ∧ f.sync = false ∨ u = { f with sync := false, scanPos := 0 } ∧ f.sync = true) :
    u.scanPos.toNat = f.scanStart ∧ u.fmax = f.fmax ∧ u.Extends f := by
  obtain ⟨rfl, hsync⟩ | ⟨rfl, hsync⟩ := hu
  · exact ⟨by simp [FsUnit.scanStart, hsync], rfl, FsUnit.extends_of_eq rfl rfl rfl rfl⟩
  · exact ⟨by simp [FsUnit.scanStart, hsync], rfl, FsUnit.extends_of_eq rfl rfl rfl rfl⟩

/-- The debris in front of a frame is below `Fmax` bytes (R201). -/
theorem debris_len_of_frame (h : fsStep D f = .done g) (hframe : g.result = .frame) :
    g.debris.len.toNat ≤ f.fmax.toNat - 1 := by
  obtain ⟨u, hu, hdone⟩ | ⟨h0, -, -, -, -, hfast⟩ := fsStep_done h
  · obtain ⟨-, hfmaxEq, -⟩ := scanned_start hu
    obtain ⟨rfl, -⟩ | ⟨p, h1, q, hlo, hhi, -, -, -, rfl, -⟩ := scanFrom_done hdone
    · cases hframe
    · rw [← hfmaxEq, confirmFrame_debris]
      split
      · have hp : (toWord p).toNat = p := by
          have := u.fmax.isLt
          exact Nat.mod_eq_of_lt (by omega)
        simp only [viewAt, hp]
        omega
      · exact Nat.zero_le _
  · obtain ⟨-, -, rfl⟩ | ⟨j, -, -, rfl⟩ := hfast <;> exact Nat.zero_le _

/-- An output that is no frame is the debris of a scan whose candidates 1 have all failed (R201, R207). -/
theorem debris_of_no_frame (h : fsStep D f = .done g) (hnone : g.result ≠ .frame) :
    (g.debris = ⟨0, f.fmax⟩ ∧ g.frame = ⟨0, 0⟩ ∧ g.result = .debris ∧ g.consumed = f.fmax ∧ g.scanPos = 0) ∧
      ∀ x, f.scanStart ≤ x → x < f.fmax.toNat → CandidateFails D f x := by
  obtain ⟨u, hu, hdone⟩ | ⟨h0, -, -, -, -, hfast⟩ := fsStep_done h
  · obtain ⟨hstart, hfmax, hsame⟩ := scanned_start hu
    obtain ⟨rfl, hfail⟩ | ⟨p, h1, q, -, -, -, -, -, rfl, -⟩ := scanFrom_done hdone
    · refine ⟨?_, fun x hlo hhi => hsame.candidateFails (hfail x (by omega) (by rw [hfmax]; omega))⟩
      rw [emitDebris_eq, ← hfmax]
      exact ⟨rfl, rfl, rfl, rfl, rfl⟩
    · exact absurd rfl hnone
  · obtain ⟨-, -, rfl⟩ | ⟨j, -, -, rfl⟩ := hfast <;> exact absurd rfl hnone

/-- Where the last candidate 1 has failed, one frame's bytes are buffered. -/
theorem fmax_le_fill (hsizes : f.SizesGood) (hfail : CandidateFails D f (f.fmax.toNat - 1)) :
    f.fmax.toNat ≤ f.fill := by
  have hprobe := hfail.1
  have hheader := hsizes.h_pos
  omega

/-- The verdict of its scan is the step of an FS that is not synced (R196, R207). -/
theorem ScanDecides.fsStep_eq {v : ScanVerdict} (hsync : f.sync = false)
    (h : ScanDecides D f (f.fmax.toNat - f.scanPos.toNat) f.scanPos.toNat v) : fsStep D f = v.outcome f := by
  rw [fsStep_of_unsynced hsync]
  exact h.scanFrom_eq

/-- What a search for candidate 2 answers: the first of its window that is not ruled out decides (R200). -/
theorem search23_answers (p : Nat) (h1 : HeaderInfo) :
    (search23 D f p h1 = .fail ↔ ∀ q ∈ win f p h1, RulesOut D f h1 q) ∧
      (∀ q, search23 D f p h1 = .found q ↔
        (q ∈ win f p h1 ∧ ∀ x ∈ win f p h1, x < q → RulesOut D f h1 x) ∧ Confirms D f p h1 q) ∧
        (search23 D f p h1 = .need ↔
          ∃ q, (q ∈ win f p h1 ∧ ∀ x ∈ win f p h1, x < q → RulesOut D f h1 x) ∧ Awaits D f p h1 q) := by
  refine ⟨?_, fun q => ?_, ?_⟩
  · simp only [rulesOut_iff (p := p)]
    exact search2_eq_fail
  · rw [← reachedIn_of_rising win_pairwise]
    exact search2_eq_found
  · simp only [← reachedIn_of_rising (win_pairwise (f := f))]
    exact search2_eq_need

end Debris
end Sys2Proof.Machine

/-! ### The obligations -/

section
open Sys2Proof Sys2Proof.Machine

/-- Settles O22: the one check, and every field of the cleared stream and the released parser. -/
theorem fsUnbindReleasesTheParser : Obligations.FsUnbindReleasesTheParser := by
  intro s
  have hunbind : exec .fsUnbind s = execFsUnbind s := rfl
  rw [hunbind, execFsUnbind]
  cases s.fs.bound <;> rfl

/-- Settles O23: the cleared stream is the reset one, the binding and the input cursor kept. -/
theorem fsResetKeepsTheBinding : Obligations.FsResetKeepsTheBinding := fun _ => rfl

/-- Settles O24: the output of a flush of what is left once the last output is dropped. -/
theorem fsFlushEmitsWhatIsLeft : Obligations.FsFlushEmitsWhatIsLeft := by
  intro s left
  have hflush : exec .fsFlush s = execFsFlush s := rfl
  rw [hflush, execFsFlush, flushOutput_eq]
  cases s.fs.bound <;> rfl

/-- Settles O25: the load is a step on what it has buffered, and each kind of output and of need is what the step leaves. -/
theorem fsLoadTakesInputAndEnds : Obligations.FsLoadTakesInputAndEnds := by
  intro s hbound hin hclear kept k toppedUp
  have hload := exec_fsLoad_of_checks hbound hin hclear
  rw [loadStep, topUp_dropOutput_eq] at hload
  cases hstep : fsStep (Config.platform.parsers s.fs.parser.toNat) toppedUp with
  | done g =>
    rw [hstep] at hload
    have hout := fsStep_output hstep
    have hsame := hout.sameInput
    exact ⟨_, hload, rfl, hsame.arena, hsame.inPtr, hsame.inEnd,
      .inl ⟨rfl, hout.result_ne, g, rfl, congrArg (fun n => { g with gen := n + 1 }) hsame.gen⟩⟩
  | need g =>
    rw [hstep] at hload
    have hwait := fsStep_waiting hstep
    have hsame := hwait.sameInput
    obtain ⟨hdebris, hframe, hconsumed, hcount, hhi, hvalid⟩ := hwait.output_kept
    exact ⟨_, hload, rfl, hsame.arena, hsame.inPtr, hsame.inEnd,
      .inr ⟨rfl, hdebris, hframe, hconsumed, hcount, hhi, hvalid, g, rfl,
        congrArg (fun n => { g with result := .noOutput, gen := n + 1 }) hsame.gen⟩⟩

/-- Settles O26: each check with those before it passed, and how a step behind all of them ends. -/
theorem fsLoadChecksInOrder : Obligations.FsLoadChecksInOrder := by
  intro s
  have hload : exec .fsLoad s = fsLoadOn Config.platform s := rfl
  refine ⟨fun hunbound => ?_, fun hbound hin => ?_, fun hbound hin hpending => ?_, fun hbound hin hclear => ?_⟩
  · rw [hload, fsLoadOn, if_pos hunbound, raise]
  · rw [hload, fsLoadOn, if_neg (by simp [hbound]), if_pos hin, raise]
  · rw [hload, fsLoadOn, if_neg (by simp [hbound]), if_neg (by omega), if_pos (pendingIn_iff.2 hpending), raise]
  · refine ⟨_, exec_fsLoad_of_checks hbound hin hclear, ?_⟩
    cases loadStep (Config.platform.parsers s.fs.parser.toNat) s.mem s.fs with
    | need => exact .inr rfl
    | done => exact .inl rfl

/-- Settles O30: a search that fails has seen every candidate 3, and one that finds an agreeing one finds it in rising order
too. -/
theorem primaryGuessChangesNoOutcome : Obligations.PrimaryGuessChangesNoOutcome := by
  intro D f p q h1 h2
  constructor
  · intro hdone
    cases hsearch : search3 D f h1 h2 (win3 f p q h2) with
    | need => exact absurd hsearch hdone
    | fail =>
      have hall := search3_eq_fail.1 hsearch
      exact (search3_eq_fail.2 fun r hr => hall r (mem_win3.2 hr)).symm
    | found =>
      obtain ⟨r, hr, hbuf, hagrees⟩ := search3_found hsearch
      exact (search3_of_rising_agrees win_pairwise (mem_win3.1 hr) ⟨buffered_iff.1 hbuf, hagrees⟩).symm
  · intro hbuf hneed
    obtain ⟨r, hr, hshort⟩ := search3_need hneed
    rw [buffered_iff.2 (hbuf r (mem_win3.1 hr))] at hshort
    cases hshort

/-- Settles O31: a frame of a unit that is not synced is a confirmed one, and its three headers are those the searches
found. -/
theorem confirmedSyncHasThreeMutualHeaders : Obligations.ConfirmedSyncHasThreeMutualHeaders := by
  intro D f g hsync hstep hframe
  rw [fsStep_of_unsynced hsync] at hstep
  obtain ⟨rfl, -⟩ | ⟨p, h1, q, hlo, hhi, -, hv1, hfound, rfl, hfail⟩ := scanFrom_done hstep
  · cases hframe
  · obtain ⟨hq, hqbuf, h2, hv2, hc12, hthird⟩ := search2_found hfound
    obtain ⟨r, hr, hrbuf, h3, hv3, hc13, hc23⟩ := search3_found hthird
    exact ⟨p, q, r, h1, h2, h3, _, hlo, by omega, hq, mem_win3.1 hr, buffered_iff.1 hrbuf, buffered_iff.1 hqbuf, hv1, hv2,
      hv3, hc12, hc13, hc23, rfl, rfl, fun x hx1 hx2 hx hvalid => (hfail x hx1 hx2).2 hx hvalid⟩

/-- Settles O32: the verdict of the scan, and of the searches it makes. -/
theorem debrisNeverExceedsOneFrame : Obligations.DebrisNeverExceedsOneFrame := by
  intro D f hsizes start
  have hscan := hsizes.scan_lt
  have hstart (hsync : f.sync = false) : start = f.scanPos.toNat := if_neg (by simp [hsync])
  refine ⟨fun g hstep => ⟨debris_len_of_frame hstep, fun hnone => ?_⟩, fun hsync hall => ?_,
    fun p hsync hlo hhi hfail => ?_, fun p h1 => search23_answers p h1⟩
  · obtain ⟨⟨hdebris, hframe, hresult, hconsumed, hpos⟩, hall⟩ := debris_of_no_frame hstep hnone
    have hlast := hall (f.fmax.toNat - 1) (Nat.le_sub_one_of_lt hsizes.scanStart_lt) (by omega)
    exact ⟨hdebris, hframe, hresult, hconsumed, hpos, fmax_le_fill hsizes hlast, hall⟩
  · rw [hstart hsync] at hall
    rw [← emitDebris_eq]
    exact (ScanDecides.debris fun x hlo hhi => hall x hlo (by omega)).fsStep_eq hsync
  · rw [hstart hsync] at hlo hfail
    refine ⟨fun hshort => ?_, fun h1 hbuf hvalid => ⟨fun hneed => ?_, fun q hfound => ?_⟩⟩
    · exact (ScanDecides.wait hlo (by omega) hfail (.inl (buffered_eq_false_iff.2 hshort))).fsStep_eq hsync
    · exact (ScanDecides.wait hlo (by omega) hfail (.inr ⟨h1, hvalid, hneed⟩)).fsStep_eq hsync
    · exact (ScanDecides.confirm hlo (by omega) hfail (buffered_iff.2 hbuf) hvalid hfound).fsStep_eq hsync

/-- Settles O33: the stream goes on with a header of declared size. -/
theorem knownSizeFrameNeedsNoLookahead : Obligations.KnownSizeFrameNeedsNoLookahead := by
  intro D f h hsync hbuf hvalid hcompare hsize
  have hon : StreamGoesOn D f h := ⟨buffered_iff.2 (by omega), hvalid, hcompare⟩
  rw [hon.fsStep_eq hsync, fastPath, if_pos hsize, emitSynced, viewAt_zero, toWord_toNat]
  rfl

/-- Settles O34: the offset that decides is the first one reached in the window with `last_len` moved to its front. -/
theorem freeFormatFrameTriesLastLengthFirst : Obligations.FreeFormatFrameTriesLastLengthFirst := by
  intro D f h hsync hbuf hvalid hcompare hfree
  have hon : StreamGoesOn D f h := ⟨buffered_iff.2 (by omega), hvalid, hcompare⟩
  refine ⟨fun j hj hbefore => ?_, fun hnone => ?_⟩
  · have hreached : ReachedIn (tryFirst f.lastLen.toNat (win f 0 h)) (NoHeaderAt D f h) j :=
      reachedIn_tryFirst win_pairwise hj hbefore
    refine ⟨fun hnext => ?_, fun hshort => ?_⟩
    · have hfound : fastFree D f h = .found j := searchNext_eq_found.2 ⟨hreached, hnext⟩
      rw [hon.fsStep_eq hsync, fastPath_of_frameEndsAt (.inr ⟨hfree, hfound⟩)]
      rfl
    · have hneed : fastFree D f h = .need := searchNext_eq_need.2 ⟨j, hreached, hshort⟩
      simp [hon.fsStep_eq hsync, fastPath, hfree, hneed]
  · have hfail : fastFree D f h = .fail := searchNext_eq_fail.2 fun j hj => hnone j (mem_tryFirst.1 hj)
    have hdesync : Desyncs D f :=
      ⟨hon.buffered, fun h' hvalid' _ => by
        obtain rfl : h = h' := Option.some.inj (hvalid.symm.trans hvalid')
        exact ⟨hfree, hfail⟩⟩
    rw [hdesync.fsStep_eq hsync, desync_eq_fsStep]

/-- Settles O35: the header at offset 0 is not whole, or it is whole and does not continue the stream. -/
theorem desyncRescansInTheSameCommand : Obligations.DesyncRescansInTheSameCommand := by
  refine fun D f hsync =>
    ⟨fun hshort => fsStep_of_short_header hsync (buffered_eq_false_iff.2 (by omega)), fun hbuf hmismatch => ?_⟩
  have hdesync : Desyncs D f :=
    ⟨buffered_iff.2 (by omega), fun h hvalid hcompare => by rw [hmismatch h hvalid] at hcompare; cases hcompare⟩
  rw [hdesync.fsStep_eq hsync, desync_eq_fsStep]

/-- Settles O36: with the arena full every candidate is buffered, so a load that needs input took all there was. -/
theorem fullArenaNeverNeedsInput : Obligations.FullArenaNeverNeedsInput := by
  refine ⟨fun D f => fsStep_of_full, fun s t hs h hneed => ?_⟩
  obtain ⟨hbound, hin, g, hstep, rfl⟩ := exec_fsLoad_of_needInput h hneed
  have hsame := loadStep_need_sameInput hstep
  have hcount : topUpCount (dropOutput s.fs) = s.fs.inEnd.toNat - s.fs.inPtr.toNat :=
    topUpCount_of_need (hs.fs.dropped hbound) hstep
  calc g.inPtr
      = toWord (s.fs.inPtr.toNat + topUpCount (dropOutput s.fs)) := hsame.inPtr
    _ = s.fs.inEnd := by rw [hcount, Nat.add_sub_cancel' hin, toWord_toNat]
    _ = g.inEnd := hsame.inEnd.symm

/-- Settles O37: what is buffered decides, so a step that has made an output makes it with more bytes behind. -/
theorem laterBytesChangeNoDecision : Obligations.LaterBytesChangeNoDecision := fun _ _ _ bs h => fsStep_more bs h

/-- Settles O38: the first part takes all its input, the step taken up again ends as one step on all the bytes, and no step
reads the result, the generation or the input cursor. -/
theorem splitInputGivesTheSameOutput : Obligations.SplitInputGivesTheSameOutput := by
  intro s t u v mid hs hlo hhi ht hneed hu hv huok hvok
  obtain ⟨hbound, -, g, hstep, rfl⟩ := exec_fsLoad_of_needInput ht hneed
  obtain ⟨o, p, hwhole, hrest⟩ := loadStep_in_two_parts hs.fs hbound hlo hhi hstep
  have hparser : g.parser = s.fs.parser := (loadStep_need_sameInput hstep).parser
  rw [exec_fsLoad_outcome hv hvok rfl hwhole,
    exec_fsLoad_outcome hu huok (congrArg (fun i => Config.platform.parsers i.toNat) hparser) hrest]
  exact afterFsStep_stamped o s.fs.result s.fs.gen p s.fs.inEnd s _ _

end

/-!
PROOFS. How a command ends: the codes it can end with, and that a command, a host action or a reset is stopped only by a
region or a pending byte above MEM (spec/60_exceptions.md R240, R242, R243, R253).
-/
namespace Sys2Proof.Machine

/-! ### Bytes above MEM -/

/-- Nothing a command or a reset would touch lies above MEM: neither the reader's region (R66) nor a pending byte (R41). -/
structure State.InsideMem (s : State) : Prop where
  region : s.br.cur.hi ≤ memSize
  pending : s.bw.outside = none

theorem State.Inv.insideMem {s : State} (hs : s.Inv) : s.InsideMem where
  region := hs.br.cur.inside
  pending := hs.bw.outside_eq_none

/-! ### The ways a command ends -/

/-- `EndsIn codes s r`: the result `r` of a command run in `s` is a next state with one of `codes` in `STATUS`, or the stop at
a byte above MEM, which takes a state with such a byte. The lemmas below follow a command check by check; that a code stands
in a command's list is looked up. -/
inductive EndsIn (codes : List Status) (s : State) : Result → Prop where
  | next {t} (hcode : t.status ∈ codes) : EndsIn codes s (.next t)
  | outside {a} (hout : ¬s.InsideMem) : EndsIn codes s (.fault (.outsideMem a))

section Ends
variable {codes : List Status} {s s' t : State} {r : Result} {e : Status}

theorem EndsIn.raise (he : e ∈ codes := by simp [codesOf]) : EndsIn codes s (raise e s') := .next he

theorem EndsIn.finish (hok : .ok ∈ codes := by simp [codesOf]) : EndsIn codes s (finish s') := .next hok

theorem EndsIn.commitThen {k : State → State} (hok : .ok ∈ codes := by simp [codesOf]) :
    EndsIn codes s (commitThen k s) := by
  unfold Machine.commitThen
  split
  · rename_i hout
    exact .outside fun hin => by simp [hin.pending] at hout
  · exact .finish hok

/-- A check in front of the rest of a command adds its own code (R243). -/
theorem EndsIn.check {c : Prop} [Decidable c] (hrest : EndsIn codes s r) (he : e ∈ codes := by simp [codesOf]) :
    EndsIn codes s (if c then Machine.raise e s else r) := by
  split
  · exact .raise he
  · exact hrest

theorem EndsIn.status_mem (h : EndsIn codes s (.next t)) : t.status ∈ codes := by
  cases h with
  | next hcode => exact hcode

theorem EndsIn.exists_next (h : EndsIn codes s r) (hin : s.InsideMem) : ∃ t, r = .next t := by
  cases h with
  | next => exact ⟨_, rfl⟩
  | outside hout => exact absurd hin hout

/-! ### The FrameSynchronizer's commands -/

theorem execFsBind_endsIn (pidx : Nat) : EndsIn (codesOf (.fsBind pidx)) s (execFsBind pidx s) :=
  .check <| .check .finish

theorem execFsUnbind_endsIn : EndsIn (codesOf .fsUnbind) s (execFsUnbind s) := .check .finish

theorem execFsReset_endsIn : EndsIn (codesOf .fsReset) s (execFsReset s) := .finish

theorem afterFsStep_status_mem (o : FsOutcome) : (afterFsStep o s).status ∈ codesOf .fsLoad := by
  cases o <;> simp [afterFsStep, codesOf]

theorem execFsLoad_endsIn : EndsIn (codesOf .fsLoad) s (execFsLoad s) :=
  .check <| .check <| .check <| .next (afterFsStep_status_mem _)

theorem execFsFlush_endsIn : EndsIn (codesOf .fsFlush) s (execFsFlush s) := .check .finish

/-! ### The converter's commands -/

theorem execConv_endsIn (f t : Nat) : EndsIn (codesOf (.conv f t)) s (execConv f t s) := by
  unfold execConv convOn
  split
  · exact .raise
  · exact .check <| .check <| .check <| .check .finish

theorem execConvQuery_endsIn (f t : Nat) : EndsIn (codesOf (.convQuery f t)) s (execConvQuery f t s) := by
  unfold execConvQuery
  split
  · exact .raise
  · exact .check .finish

/-! ### The BitReader's commands -/

theorem execBrBind_endsIn : EndsIn (codesOf .brBind) s (execBrBind s) := by
  unfold execBrBind
  split
  · exact .raise
  · exact .finish

/-- The three gets share their codes and their one stop, a region that reaches above MEM (R126, R127, R128). -/
theorem getField_endsIn (n : Nat) (put : Nat → Word) : EndsIn (codesOf .brGetb) s (getField n put s) := by
  unfold getField
  refine .check <| .check ?_
  split
  · exact .finish
  refine .check ?_
  split
  · rename_i hout
    exact .outside fun hin => Nat.not_lt.2 hin.region hout
  · exact .finish

theorem execBrSeek_endsIn : EndsIn (codesOf .brSeek) s (execBrSeek s) := .check <| .check .finish

theorem execBrUnbind_endsIn : EndsIn (codesOf .brUnbind) s (execBrUnbind s) := .check .finish

/-! ### The BitWriter's commands -/

theorem execBwBind_endsIn : EndsIn (codesOf .bwBind) s (execBwBind s) := by
  unfold execBwBind
  split
  · exact .raise
  split
  · exact .commitThen
  · exact .finish

theorem execBwPut_endsIn (n : Nat) : EndsIn (codesOf (.bwPut n)) s (execBwPut n s) := .check <| .check <| .check .finish

/-- BW_PUTB puts 0 or 1, which one bit holds, so its value is never refused (R142, R145). -/
theorem execBwPutb_endsIn : EndsIn (codesOf .bwPutb) s (execBwPutb s) := by
  have hvalue : ¬valueFits 1 (if s.arg0 ≠ 0 then 1 else 0) = false := by split <;> decide
  unfold execBwPutb putValue
  rw [if_neg hvalue]
  exact .check <| .check .finish

theorem execBwSeek_endsIn : EndsIn (codesOf .bwSeek) s (execBwSeek s) := .check <| .check .commitThen

theorem execBwFlush_endsIn : EndsIn (codesOf .bwFlush) s (execBwFlush s) := .check .commitThen

theorem execBwClose_endsIn : EndsIn (codesOf .bwClose) s (execBwClose s) := .check .commitThen

/-- Every command ends with one of its codes, or meets a byte above MEM (R240, R253). -/
theorem exec_endsIn (i : Instr) (s : State) : EndsIn (codesOf i) s (exec i s) := by
  cases i with
  | fsBind pidx => exact execFsBind_endsIn pidx
  | fsUnbind => exact execFsUnbind_endsIn
  | fsReset => exact execFsReset_endsIn
  | fsLoad => exact execFsLoad_endsIn
  | fsFlush => exact execFsFlush_endsIn
  | conv f t => exact execConv_endsIn f t
  | convQuery f t => exact execConvQuery_endsIn f t
  | brBind => exact execBrBind_endsIn
  | brGet n => exact getField_endsIn n unsignedField
  | brGets n => exact getField_endsIn n (signedField n)
  | brGetb => exact getField_endsIn 1 boolField
  | brSeek => exact execBrSeek_endsIn
  | brUnbind => exact execBrUnbind_endsIn
  | bwBind => exact execBwBind_endsIn
  | bwPut n => exact execBwPut_endsIn n
  | bwPutb => exact execBwPutb_endsIn
  | bwSeek => exact execBwSeek_endsIn
  | bwFlush => exact execBwFlush_endsIn
  | bwClose => exact execBwClose_endsIn

end Ends

/-! ### What goes on -/

section GoesOn
variable {i : Instr} {s t : State}

theorem State.InsideMem.exec_goesOn (hs : s.InsideMem) (i : Instr) : ∃ t, exec i s = .next t :=
  (exec_endsIn i s).exists_next hs

theorem State.InsideMem.resetEvent_goesOn (hs : s.InsideMem) : ∃ t, resetEvent s = .next t :=
  ⟨_, resetEvent_eq_next.2 ⟨hs.pending, rfl⟩⟩

theorem State.InsideMem.runCommand_goesOn (hs : s.InsideMem) (w : Word) : ∃ t, runCommand exec w s = .next t := by
  obtain ⟨i, -, hrun⟩ | ⟨r, -, hrun⟩ := runCommand_cases exec w s <;> rw [hrun]
  · exact hs.exec_goesOn i
  · exact ⟨_, rfl⟩

/-- Only a command word and a reset can be stopped; every other access answers a next state outright (R61, R62, R83). -/
theorem State.InsideMem.hostAct_goesOn (hs : s.InsideMem) (a : HostAction) : ∃ t, hostAct exec a s = .next t := by
  cases a with
  | regWrite off v =>
    rw [hostAct]
    split
    · exact ⟨_, rfl⟩
    split
    · exact hs.runCommand_goesOn v
    · exact ⟨_, rfl⟩
  | regRead off =>
    rw [hostAct]
    split <;> exact ⟨_, rfl⟩
  | reset => exact hs.resetEvent_goesOn
  | regWriteOther | regReadOther | arenaRead | arenaWrite | memRead | memWrite => exact ⟨_, rfl⟩

/-- Taking an action off the bus touches no unit, so the block goes on in the state the action finds. -/
theorem State.InsideMem.steps (hs : s.InsideMem) : s.Steps := by
  cases hbus : s.bus with
  | nil => exact ⟨s, step_idle hbus⟩
  | cons a rest =>
    have htaken : (takenFromBus rest s).InsideMem := { hs with }
    rw [State.Steps, step_of_bus hbus]
    exact htaken.hostAct_goesOn a

/-! ### Failures -/

/-- A command that fails was turned away: every effect ends with `OK` or `NEED_INPUT` (R242). -/
theorem CommandAnswer.failure_frame (h : CommandAnswer i s t) (hfail : t.status.isFailure = true) :
    t = { s with status := t.status } := by
  cases h with
  | turnedAway => rfl
  | _ => cases hfail

/-! ### Units with no binding -/

theorem exec_of_fs_unbound (hfree : s.fs.bound = false) :
    ∀ i ∈ [Instr.fsUnbind, .fsLoad, .fsFlush], exec i s = raise .notBound s := by
  simp only [List.forall_mem_cons]
  exact ⟨if_pos hfree, if_pos hfree, if_pos hfree, nofun⟩

theorem exec_of_br_unbound (hfree : s.br.cur.bound = false) (n : Nat) :
    ∀ i ∈ [Instr.brGet n, .brGets n, .brGetb, .brSeek, .brUnbind], exec i s = raise .notBound s := by
  simp only [List.forall_mem_cons]
  exact ⟨if_pos hfree, if_pos hfree, if_pos hfree, if_pos hfree, if_pos hfree, nofun⟩

theorem exec_of_bw_unbound (hfree : s.bw.cur.bound = false) (n : Nat) :
    ∀ i ∈ [Instr.bwPut n, .bwPutb, .bwSeek, .bwFlush, .bwClose], exec i s = raise .notBound s := by
  simp only [List.forall_mem_cons]
  exact ⟨if_pos hfree, if_pos hfree, if_pos hfree, if_pos hfree, if_pos hfree, nofun⟩

end GoesOn
end Sys2Proof.Machine

/-! ### The obligations -/

section
open Sys2Proof Sys2Proof.Machine

/-- Settles O8: of the ways a command can answer, only the one that turns it away ends in a failure. -/
theorem failingCommandWritesStatusOnly : Obligations.FailingCommandWritesStatusOnly := by
  intro i s t h hfail
  exact (exec_answer h).failure_frame hfail

/-- Settles O9: each check of a command raises a code of its list, and what is behind the checks ends with `OK` or
`NEED_INPUT`. -/
theorem commandEndsWithItsOwnCodes : Obligations.CommandEndsWithItsOwnCodes := by
  intro i s t h
  have hends := exec_endsIn i s
  rw [h] at hends
  exact hends.status_mem

/-- Settles O13: the only stop is a byte above MEM, and in a good state neither the reader's region nor a pending byte lies
there. -/
theorem goodStateAlwaysGoesOn : Obligations.GoodStateAlwaysGoesOn := by
  intro s hs
  exact ⟨hs.insideMem.steps, hs.insideMem.exec_goesOn⟩

/-- Settles O10: the first check of each command is that its unit is bound. -/
theorem unboundUnitRaisesNotBound : Obligations.UnboundUnitRaisesNotBound := by
  intro s n
  exact ⟨exec_of_fs_unbound, fun hfree => exec_of_br_unbound hfree n, fun hfree => exec_of_bw_unbound hfree n⟩

end

/-!
PROOFS. Reset and the reader's stale word: what the reset event leaves, and a get whose bits all stand in the cached word
(spec/70_reset_and_hazards.md R260 to R262, R272; spec/41_bit_cursors.md R123).
-/
namespace Sys2Proof.Machine

/-! ### The reset event -/

/-- The reset event changes pending bytes of MEM only (R261, R262). -/
theorem memByte_afterReset_of_not_pending {s : State} {a : Nat} (ha : s.bw.isPending a = false) :
    memByte (afterReset s).mem a = memByte s.mem a := by
  refine memByte_scrambleBytes_outside s.mem s.freeCount fun hmem => ?_
  have hpending := isPending_iff.2 (mem_pendingBytes.1 hmem)
  simp [ha] at hpending

/-- With every pending byte in MEM, a step whose next action is the reset goes on (R260). -/
theorem step_of_reset {s : State} {rest : List HostAction} (hbus : s.bus = .reset :: rest) (hmem : s.bw.outside = none) :
    step s = .next (afterReset (takenFromBus rest s)) :=
  (step_of_bus hbus).trans (resetEvent_eq_next.2 ⟨hmem, rfl⟩)

/-! ### A field of the cached word -/

theorem wordField_eq_bitField (w : Word) (c : Cursor) (k n : Nat) :
    wordField w c k n = bitField (fun x => w.getLsbD (c.wbitOf x)) k n := by
  induction n with
  | zero => rfl
  | succ n ih => rw [wordField, bitField, ih]

theorem wordField_lt {w : Word} {c : Cursor} {k n : Nat} : wordField w c k n < 2 ^ n :=
  wordField_eq_bitField w c k n ▸ bitField_lt

/-- A good, bound reader whose next `n` bits, at least one, are a field of its region that stands wholly in the cached word.
It speaks of no byte of MEM. -/
structure BrUnit.HoldsField (r : BrUnit) (n : Nat) : Prop where
  good : r.Good
  bound : r.cur.bound = true
  pos : 1 ≤ n
  width : n ≤ 32
  fits : r.cur.pos.toNat + n ≤ r.cur.stop.toNat
  holds : ∀ x, r.cur.pos.toNat ≤ x → x < r.cur.pos.toNat + n → r.holds (r.cur.widxOf x) = true

/-- Where the first and the last bit of a field stand in one word, every bit between them does. -/
theorem Cursor.widxOf_eq_of_ends {c : Cursor} {k n w : Nat} (hfirst : c.widxOf k = w) (hlast : c.widxOf (k + n - 1) = w)
    {x : Nat} (hlo : k ≤ x) (hhi : x < k + n) : c.widxOf x = w := by
  have hge : c.widxOf k ≤ c.widxOf x := c.widxOf_mono hlo
  have hle : c.widxOf x ≤ c.widxOf (k + n - 1) := c.widxOf_mono (Nat.le_sub_one_of_lt hhi)
  omega

section Cached
variable {s : State} {n : Nat}

/-- A field in the cached word needs no byte of MEM loaded (R124). -/
theorem BrUnit.HoldsField.not_loads (h : s.br.HoldsField n) (a : Nat) : ¬s.Loads n a := by
  rintro ⟨x, hlo, hhi, hmiss, -⟩
  exact hmiss (BrUnit.holds_iff.1 (h.holds x hlo hhi))

/-- Its bits are met as the cached word holds them (R123, R272). -/
theorem BrUnit.HoldsField.readerField_eq (h : s.br.HoldsField n) :
    s.readerField n = wordField s.br.word s.br.cur s.br.cur.pos.toNat n := by
  rw [readerField_eq_bitField, wordField_eq_bitField]
  refine bitField_congr fun x hlo hhi => ?_
  obtain ⟨hvalid, hfirst⟩ := BrUnit.holds_iff.1 (h.holds _ (Nat.le_refl _) (Nat.lt_add_of_pos_right h.pos))
  obtain ⟨-, hx⟩ := BrUnit.holds_iff.1 (h.holds x hlo hhi)
  exact if_pos ⟨hvalid, hfirst, hx⟩

/-- A get from `k` that ends in the word it began in, cached there, leaves the reader's cache as it was (R123). -/
theorem cachedAt_of_holds {m : Memory} {r : BrUnit} {k x : Nat} (hk : r.holds (r.cur.widxOf k) = true)
    (hx : r.cur.widxOf x = r.cur.widxOf k) : cachedAt m r k x = r :=
  calc cachedAt m r k x = cachedAt m r k k := by rw [cachedAt, cachedAt, hx]
    _ = fetchWord m r k := fetchWord_eq_cachedAt.symm
    _ = r := if_pos hk

/-- What a get of a field in the cached word leaves: `RES0` made of the field, and the position behind it (R126, R272). -/
theorem BrUnit.HoldsField.gotField_eq (h : s.br.HoldsField n) (put : Nat → Word) :
    gotField n put s =
      { s with
        res0 := put (wordField s.br.word s.br.cur s.br.cur.pos.toNat n)
        br := { s.br with cur := { s.br.cur with pos := s.br.cur.pos + toWord n } } } := by
  obtain ⟨n, rfl⟩ := Nat.exists_eq_add_of_le' h.pos
  have hfirst := h.holds _ (Nat.le_refl _) (Nat.lt_add_of_pos_right h.pos)
  have hlast := h.holds (s.br.cur.pos.toNat + n) (by omega) (by omega)
  obtain ⟨-, hfirstIdx⟩ := BrUnit.holds_iff.1 hfirst
  obtain ⟨-, hlastIdx⟩ := BrUnit.holds_iff.1 hlast
  rw [gotField_succ_eq h.good h.fits, h.readerField_eq, cachedAt_of_holds hfirst (hlastIdx.symm.trans hfirstIdx)]

/-- A get of a field in the cached word ends with `OK`, whatever MEM holds and whatever byte is pending (R124, R272). -/
theorem BrUnit.HoldsField.getField_eq (h : s.br.HoldsField n) (put : Nat → Word) :
    getField n put s =
      .next { s with
        status := .ok
        res0 := put (wordField s.br.word s.br.cur s.br.cur.pos.toNat n)
        br := { s.br with cur := { s.br.cur with pos := s.br.cur.pos + toWord n } } } := by
  have hn : n ≠ 0 := Nat.ne_of_gt h.pos
  have hcheck : preCheckFails s n = false := by
    rw [← Bool.not_eq_true, preCheckFails_iff hn]
    rintro ⟨a, hloads, -⟩
    exact h.not_loads a hloads
  rw [getField_of_ready h.bound (fieldFits_iff.2 ⟨h.width, h.fits⟩) hn hcheck h.good.cur.inside, h.gotField_eq]

end Cached
end Sys2Proof.Machine

/-! ### The obligations -/

section
open Sys2Proof Sys2Proof.Machine

/-- Settles O15: a good writer has its pending bytes in MEM, so the reset goes on, and it writes those bytes only. -/
theorem resetEventRestoresResetValues : Obligations.ResetEventRestoresResetValues := fun s rest hs hbus =>
  ⟨_, step_of_reset hbus hs.bw.outside_eq_none, rfl,
    fun _ ha => memByte_afterReset_of_not_pending (s := takenFromBus rest s) ha⟩

/-- Settles O44: no hypothesis on the reader speaks of MEM, so one get answers for `s` and for `s` over any other memory. -/
theorem cachedWordHidesLaterWrites : Obligations.CachedWordHidesLaterWrites := by
  intro s m n hgood hbound hpos hn hfits hvalid hfirst hlast v stale
  have hheld : s.br.HoldsField n :=
    { good := hgood, bound := hbound, pos := hpos, width := hn, fits := hfits
      holds := fun x hlo hhi =>
        BrUnit.holds_iff.2 ⟨hvalid, (Cursor.widxOf_eq_of_ends hfirst hlast hlo hhi).symm⟩ }
  have hother : ({ s with mem := m } : State).br.HoldsField n := hheld
  have hv : v < 2 ^ n := wordField_lt
  refine ⟨⟨_, hheld.getField_eq _, hother.getField_eq _, toNat_unsignedField hn hv, rfl⟩,
    ⟨_, hheld.getField_eq _, hother.getField_eq _, toInt_signedField hn hv, rfl⟩, ?_⟩
  rintro rfl
  exact ⟨_, hheld.getField_eq _, hother.getField_eq _, toNat_boolField hv, rfl⟩

end
